-- ==== Sys2Proof/Word.lean ====
section
/-! DEFINITION. The word types of the TAP engine and the sixteen TAP states by name
(spec/30_encoding.md rules R60 to R62, spec/00_scope.md rules R6 and R7). -/

namespace Sys2Proof

/-- One byte of the ScanBuffer, or one character of a host session line. -/
abbrev Byte := BitVec 8

/-- One hexadecimal digit; also the width of a TAP state code (R6, STATE_BITS = 4). -/
abbrev Nibble := BitVec 4

/-- One bus data word, as the unsigned number it is (R7). DW, how many bits it has, is open (R6): it is `Params.dataWidth`,
and a word of the bus is below `2 ^ DW` (assumption 1). -/
abbrev Data := Nat

/-- One bus address, and one offset from ENGINE_BASE: 32 bits (assumption 2). -/
abbrev Addr := BitVec 32

/-- The sixteen TAP states of R62, by name, in code order. Their codes are `TapState.code`
(Machine/TapGraph.lean); nothing else depends on the numbering but the packing of the route words. -/
inductive TapState where
  | testLogicReset
  | runTestIdle
  | selectDr
  | captureDr
  | shiftDr
  | exit1Dr
  | pauseDr
  | exit2Dr
  | updateDr
  | selectIr
  | captureIr
  | shiftIr
  | exit1Ir
  | pauseIr
  | exit2Ir
  | updateIr
deriving DecidableEq, Repr, Inhabited

end Sys2Proof
end

