-- ==== Sys2Proof/Config.lean ====
section
/-! DEFINITION. What is fixed for one machine (the parameters of spec/00_scope.md rule R6) and the FREE VALUES: opaque
constants with no body, one for each value the spec leaves open, so that no proof can see what they are. -/

namespace Sys2Proof

/-- The open parameters of R6 (93_implementation_defined.md U18): how wide the data bus is, where the block sits on the
bus, at which offset `cur_state` is readable, if at any, and how wide the `clock_divider` input is. No step changes
them. -/
structure Params where
  /-- DW: the bits of a bus data word, at least 16 (D11). -/
  dataWidth : Nat
  /-- ENGINE_BASE: the bus address of offset 0 (D12). -/
  engineBase : Addr
  /-- ADDR_CUR_STATE: the 11-bit offset of the `cur_state` register, or none (D13). -/
  addrCurState : Option (BitVec 11)
  /-- DIVW: the bits of the `clock_divider` input, or none where it is an unbounded natural (D14). -/
  dividerWidth : Option Nat
deriving DecidableEq, Repr

/-- The defaults of R6: DW = 32, ADDR_CUR_STATE = 0x406, an unbounded DIVW; ENGINE_BASE = 0, which the spec leaves open
(assumption 2). -/
def Params.default : Params :=
  { dataWidth := 32, engineBase := 0, addrCurState := some 0x406#11, dividerWidth := none }

/-- ADDR_CUR_STATE, when set, is above the map of R48, which ends at 0x405. -/
def Params.curStateFree (p : Params) : Bool :=
  match p.addrCurState with
  | none => true
  | some a => decide (0x405 < a.toNat)

/-- The constraints of R6 on the open parameters: DW >= 16, and ADDR_CUR_STATE outside the rest of the map. -/
def Params.wf (p : Params) : Bool := decide (16 ≤ p.dataWidth) && p.curStateFree

/-- BUF_BYTES of R6. -/
def Config.bufBytes : Nat := 1024

/-- BUF_BITS of R6. -/
def Config.bufBits : Nat := 8192

/-- RESET_PULSES of R6. -/
def Config.resetPulses : Nat := 5

/-- MAX_ROUTE_STEPS of R6, the document's bound on a navigation. -/
def Config.maxRouteSteps : Nat := 9

/-- The largest distance in the TAP graph (R86, 90_conflicts.md C5). -/
def Config.routeDiameter : Nat := 8

/-- RUNTEST_CHUNK of R6. -/
def Config.runtestChunk : Nat := 1024

/-- FREE VALUE (U7, R87): the route entry of a state toward itself where that state has no self-loop. -/
opaque Config.routeDiagonal : TapState → Bool

/-- FREE VALUE (U11, R13, R98): the byte at an index that nothing has written since the reset whose number is the
first argument. -/
opaque Config.unwrittenByte : Nat → Nat → Byte

/-- FREE VALUE (U10, R57): what a host read of a byte inside the vector's span returns while busy = 1; the argument is
the draw counter of State, so two reads need not agree. -/
opaque Config.busyReadByte : Nat → Byte

/-- FREE VALUE (U22, R33): the level of `tdo` at a sampling instant at which no sample is scripted; the argument is the
draw counter of State. -/
opaque Config.tdoLevel : Nat → Bool

/-- FREE VALUE (R193, U21): the state the TAP of the device under test is in when the block is reset. -/
opaque Config.dutTapAtReset : TapState

/-- FREE VALUE (R160, N13): the case of the hexadecimal digits of an `MR` reply. -/
opaque Config.mrUpperCase : Data → Bool

/-- FREE VALUE (R160, N13): the width of the hexadecimal value of an `MR` reply, as how many zeros lead it. -/
opaque Config.mrLeadingZeros : Data → Nat

/-- FREE VALUE (R160, N13): what separates the value of an `MR` reply from the acknowledgement. -/
opaque Config.mrSeparator : Data → List Byte

/-- FREE VALUE (R160, N13): the status line of a `STOPSIM` reply; the argument is the draw counter of State. -/
opaque Config.stopsimStatusLine : Nat → List Byte

end Sys2Proof
end

