-- ==== Sys2Proof/Syntax.lean ====
section
/-! DEFINITION. The instruction set as spec/opcode_table.json lists it: eight command codes, seventeen bus accesses,
five host session lines, three driver operations; and the raw forms they arrive in (spec/30_encoding.md R60, R63, R67, R74;
spec/44_scan_driver.md R150, R157, R160, R161). -/

namespace Sys2Proof

/-- The registers of the bus map (R48), by name. -/
inductive Reg where
  | buf (k : BitVec 10)
  | scanState
  | endState
  | chainLength
  | control
  | status
  | command
  | curState
deriving DecidableEq, Repr

/-- What the host drives on the bus during a tick in which `bus_req` is 1 (R12). The data port carries the low DW bits of
`wdata` (`decodeBus`). -/
structure BusRequest where
  we : Bool
  addr : Addr
  wdata : Data
deriving DecidableEq, Repr

/-- The driver operations of 44_scan_driver.md. -/
inductive DriverOp where
  | scanIr
  | scanDr
  | runtest
deriving DecidableEq, Repr

/-- One instruction as it arrives, before decoding, in one of the four formats of R74. -/
inductive Raw where
  /-- format CMD: the content of COMMAND[2:0] -/
  | command (code : BitVec 3)
  /-- format BUS: a request at the bus port -/
  | bus (r : BusRequest)
  /-- format HOSTTXT: the characters of one session line, its newline included -/
  | line (text : List Byte)
  /-- format PSEUDO: a call of the driver with its number and its string argument -/
  | call (op : DriverOp) (count : Nat) (arg : List Byte)
deriving DecidableEq, Repr

/-- One constructor per row of spec/opcode_table.json. -/
inductive Instr where
  -- format CMD (R63, R64)
  | cmdNone
  | cmdScan
  | cmdReset
  | cmdState
  | cmdReserved4
  | cmdReserved5
  | cmdReserved6
  | cmdReserved7
  -- format BUS (R67)
  | rdBuf (k : BitVec 10)
  | wrBuf (k : BitVec 10) (d : Data)
  | rdScanState
  | wrScanState (d : Data)
  | rdEndState
  | wrEndState (d : Data)
  | rdChainLength
  | wrChainLength (d : Data)
  | rdControl
  | wrControl (d : Data)
  | rdStatus
  | wrStatus (d : Data)
  | rdCommand
  | wrCommand (d : Data)
  | rdCurState
  | wrCurState (d : Data)
  | outOfRange (we : Bool) (addr : Addr) (d : Data)
  -- format HOSTTXT (R160, R161)
  | mw (addr : Addr) (d : Data)
  | mr (addr : Addr)
  | startsim (board : List Byte)
  | stopsim
  | exit
  -- format PSEUDO (R150, R157)
  | scanIr (count : Nat) (tdi : List Nibble)
  | scanDr (count : Nat) (tdi : List Nibble)
  | runtest (ticks : Nat)
deriving DecidableEq, Repr

/-- The four formats of R74. -/
inductive Format where
  | cmd
  | bus
  | hosttxt
  | pseudo
deriving DecidableEq, Repr

/-- The format column of each row of spec/opcode_table.json. -/
def Instr.format : Instr → Format
  | .cmdNone | .cmdScan | .cmdReset | .cmdState => .cmd
  | .cmdReserved4 | .cmdReserved5 | .cmdReserved6 | .cmdReserved7 => .cmd
  | .rdBuf _ | .wrBuf _ _ | .rdScanState | .wrScanState _ | .rdEndState | .wrEndState _ => .bus
  | .rdChainLength | .wrChainLength _ | .rdControl | .wrControl _ | .rdStatus | .wrStatus _ => .bus
  | .rdCommand | .wrCommand _ | .rdCurState | .wrCurState _ | .outOfRange _ _ _ => .bus
  | .mw _ _ | .mr _ | .startsim _ | .stopsim | .exit => .hosttxt
  | .scanIr _ _ | .scanDr _ _ | .runtest _ => .pseudo

/-- The format a raw form arrives in. -/
def Raw.format : Raw → Format
  | .command _ => .cmd
  | .bus _ => .bus
  | .line _ => .hosttxt
  | .call _ _ _ => .pseudo

/-- Why the decoder rejects a session line or a driver call. A command code and a bus request are never rejected: each
has a row (R64, R67). -/
inductive Reject where
  /-- the line does not end in one newline -/
  | unterminatedLine
  /-- the first word is none of the five commands, or it has the wrong number of operands -/
  | unknownLine
  /-- an address or datum holds a character that is no hexadecimal digit, or none at all -/
  | malformedHex
  /-- an address does not fit 32 bits, or a datum the DW bits of the bus -/
  | valueTooWide
  /-- the vector string of a driver call holds a character that is no hexadecimal digit (R159, N14) -/
  | nonHexDigit
  /-- `runtest` takes no string -/
  | unexpectedArgument
deriving DecidableEq, Repr

end Sys2Proof
end

