-- ==== Sys2Proof/WellFormed.lean ====
section
/-! DEFINITION. Which instructions are well formed on a machine with given parameters: those the spec gives an encoding
(spec/30_encoding.md R60, R67, R68) or whose preconditions the spec states (spec/44_scan_driver.md R150, R152, R159, U19). -/

namespace Sys2Proof

/-- The offset lies outside the map of R48: above 0x405 and not ADDR_CUR_STATE (R68, R143). -/
def offsetOutside (p : Params) (off : Addr) : Bool :=
  decide (0x405 < off.toNat) && decide (p.addrCurState.map (·.toNat) ≠ some off.toNat)

/-- The `cur_state` rows exist when ADDR_CUR_STATE is set, above the rest of the map (R142). -/
def curStateMapped (p : Params) : Bool :=
  p.addrCurState.isSome && p.curStateFree

/-- R6, R60: a data word of the bus has DW bits, and DW is at least 16. -/
def dataFits (p : Params) (d : Data) : Bool := decide (16 ≤ p.dataWidth ∧ d < 2 ^ p.dataWidth)

/-- A board name is one word: it holds neither a space nor a newline (assumption 16). -/
def boardName (board : List Byte) : Bool :=
  !board.isEmpty && board.all fun c => decide (c ≠ 0x20#8 ∧ c ≠ 0x0A#8)

/-- R150, R152: 1 to 8192 bits, and the digits, padded to whole bytes, fill exactly the bytes the vector occupies. -/
def vectorFits (count : Nat) (tdi : List Nibble) : Bool :=
  decide (1 ≤ count ∧ count ≤ Config.bufBits ∧ (tdi.length + 1) / 2 = (count + 7) / 8)

def Instr.wellFormed (p : Params) : Instr → Bool
  | .cmdNone | .cmdScan | .cmdReset | .cmdState => true
  | .cmdReserved4 | .cmdReserved5 | .cmdReserved6 | .cmdReserved7 => true
  | .rdBuf _ | .rdScanState | .rdEndState | .rdChainLength | .rdControl | .rdStatus | .rdCommand => true
  | .wrBuf _ d | .wrScanState d | .wrEndState d | .wrChainLength d | .wrControl d => dataFits p d
  | .wrStatus d | .wrCommand d | .mw _ d => dataFits p d
  | .rdCurState => curStateMapped p
  | .wrCurState d => curStateMapped p && dataFits p d
  | .outOfRange _ addr d => offsetOutside p (addr - p.engineBase) && dataFits p d
  | .mr _ | .stopsim | .exit => true
  | .startsim board => boardName board
  | .scanIr count tdi | .scanDr count tdi => vectorFits count tdi
  | .runtest _ => true

end Sys2Proof
end

