-- ==== Sys2Proof/Decode.lean ====
section
/-! DEFINITION. The decoder of each of the four formats of R74, total, and after it the encoder
(spec/30_encoding.md R60 to R68, spec/44_scan_driver.md R150, R157, R160, R161). -/

namespace Sys2Proof

/-! ## Ports of open width -/

/-- What a port of DW bits carries of a number: its low DW bits (R8, R12). -/
def Params.busWord (p : Params) (d : Nat) : Data := d % 2 ^ p.dataWidth

/-- What the `clock_divider` input carries of a number: its low DIVW bits (R8, R27), all of it where DIVW is unbounded. -/
def Params.dividerValue (p : Params) (d : Nat) : Nat :=
  match p.dividerWidth with
  | none => d
  | some w => d % 2 ^ w

/-! ## Format CMD -/

/-- R63, R64: the command a COMMAND value selects. -/
def decodeCommand (code : BitVec 3) : Instr :=
  match code.toNat with
  | 0 => .cmdNone
  | 1 => .cmdScan
  | 2 => .cmdReset
  | 3 => .cmdState
  | 4 => .cmdReserved4
  | 5 => .cmdReserved5
  | 6 => .cmdReserved6
  | _ => .cmdReserved7

/-! ## Format BUS -/

/-- R67, R48: the register an offset selects, if any. Every bit of the offset above bit 10 must be 0. -/
def decodeOffset (p : Params) (off : Addr) : Option Reg :=
  if off.toNat < 0x400 then some (.buf (off.setWidth 10))
  else if off.toNat = 0x400 then some .scanState
  else if off.toNat = 0x401 then some .endState
  else if off.toNat = 0x402 then some .chainLength
  else if off.toNat = 0x403 then some .control
  else if off.toNat = 0x404 then some .status
  else if off.toNat = 0x405 then some .command
  else if p.addrCurState.map (·.toNat) = some off.toNat then some .curState
  else none

/-- R67, R60: the access a request selects, by `bus_we` and the offset `bus_addr - ENGINE_BASE` (R12), with the DW bits
its data port carries. -/
def decodeBus (p : Params) (r : BusRequest) : Instr :=
  match r.we, decodeOffset p (r.addr - p.engineBase) with
  | false, some (.buf k) => .rdBuf k
  | true, some (.buf k) => .wrBuf k (p.busWord r.wdata)
  | false, some .scanState => .rdScanState
  | true, some .scanState => .wrScanState (p.busWord r.wdata)
  | false, some .endState => .rdEndState
  | true, some .endState => .wrEndState (p.busWord r.wdata)
  | false, some .chainLength => .rdChainLength
  | true, some .chainLength => .wrChainLength (p.busWord r.wdata)
  | false, some .control => .rdControl
  | true, some .control => .wrControl (p.busWord r.wdata)
  | false, some .status => .rdStatus
  | true, some .status => .wrStatus (p.busWord r.wdata)
  | false, some .command => .rdCommand
  | true, some .command => .wrCommand (p.busWord r.wdata)
  | false, some .curState => .rdCurState
  | true, some .curState => .wrCurState (p.busWord r.wdata)
  | we, none => .outOfRange we r.addr (p.busWord r.wdata)

/-! ## Hexadecimal text -/

/-- The value of a hexadecimal digit character; both cases are read, in a session line (assumption 16) and in the string of
a driver call (assumption 25). -/
def hexDigit (c : Byte) : Option Nibble :=
  if 0x30 ≤ c.toNat ∧ c.toNat ≤ 0x39 then some (BitVec.ofNat 4 (c.toNat - 0x30))
  else if 0x41 ≤ c.toNat ∧ c.toNat ≤ 0x46 then some (BitVec.ofNat 4 (c.toNat - 0x37))
  else if 0x61 ≤ c.toNat ∧ c.toNat ≤ 0x66 then some (BitVec.ofNat 4 (c.toNat - 0x57))
  else none

/-- The uppercase character of a digit (R155 "uppercase hex"). -/
def hexChar (n : Nibble) : Byte :=
  if n.toNat < 10 then BitVec.ofNat 8 (0x30 + n.toNat) else BitVec.ofNat 8 (0x37 + n.toNat)

/-- The lowercase character of a digit. -/
def lowerHexChar (n : Nibble) : Byte :=
  if n.toNat < 10 then BitVec.ofNat 8 (0x30 + n.toNat) else BitVec.ofNat 8 (0x57 + n.toNat)

/-- Every character a digit, most significant first, or none. -/
def hexDigits : List Byte → Option (List Nibble)
  | [] => some []
  | c :: r =>
    match hexDigit c, hexDigits r with
    | some d, some ds => some (d :: ds)
    | _, _ => none

/-- The number a string of digits denotes, most significant digit first, continuing from `acc`. -/
def hexValue (acc : Nat) : List Nibble → Nat
  | [] => acc
  | d :: r => hexValue (acc * 16 + d.toNat) r

/-- A hexadecimal field of a session line as a number of at most `bits` bits. -/
def parseHex (bits : Nat) (text : List Byte) : Except Reject Nat :=
  if text.isEmpty then .error .malformedHex
  else
    match hexDigits text with
    | none => .error .malformedHex
    | some ds => if hexValue 0 ds < 2 ^ bits then .ok (hexValue 0 ds) else .error .valueTooWide

/-- The low `n` hexadecimal digits of a number, most significant first. -/
def hexDigitsOf : Nat → Nat → List Nibble
  | 0, _ => []
  | n + 1, v => hexDigitsOf n (v / 16) ++ [BitVec.ofNat 4 v]

/-- How many hexadecimal digits a number has without leading zeros; 0 has one. -/
def hexLength (v : Nat) : Nat := v.log2 / 4 + 1

/-- The low `n` hexadecimal digits of a number, as characters. -/
def renderHex (n v : Nat) : List Byte := (hexDigitsOf n v).map hexChar

/-- How many digits the encoder writes for a data word of DW bits. -/
def dataDigits (p : Params) : Nat := (p.dataWidth + 3) / 4

/-! ## Format HOSTTXT -/

def spaceChar : Byte := 0x20#8
def newlineChar : Byte := 0x0A#8

/-- `MW` -/
def wordMw : List Byte := [0x4D#8, 0x57#8]
/-- `MR` -/
def wordMr : List Byte := [0x4D#8, 0x52#8]
/-- `STARTSIM` -/
def wordStartsim : List Byte := [0x53#8, 0x54#8, 0x41#8, 0x52#8, 0x54#8, 0x53#8, 0x49#8, 0x4D#8]
/-- `STOPSIM` -/
def wordStopsim : List Byte := [0x53#8, 0x54#8, 0x4F#8, 0x50#8, 0x53#8, 0x49#8, 0x4D#8]
/-- `EXIT` -/
def wordExit : List Byte := [0x45#8, 0x58#8, 0x49#8, 0x54#8]

/-- The words of a line, cut at each space. -/
def splitWords : List Byte → List (List Byte)
  | [] => [[]]
  | c :: r =>
    if c = spaceChar then [] :: splitWords r
    else
      match splitWords r with
      | [] => [[c]]
      | w :: ws => (c :: w) :: ws

/-- The line without its newline, if the newline ends it and is the only one ("newline-terminated text lines", R160). -/
def stripNewline : List Byte → Option (List Byte)
  | [] => none
  | c :: r =>
    if c = newlineChar then (if r.isEmpty then some [] else none)
    else (stripNewline r).map (c :: ·)

/-- R160: the command whose words these are. An address has 32 bits and a datum DW. -/
def decodeWords (p : Params) : List (List Byte) → Except Reject Instr
  | [w] =>
    if w = wordStopsim then .ok .stopsim
    else if w = wordExit then .ok .exit
    else .error .unknownLine
  | [w, a] =>
    if w = wordMr then
      match parseHex 32 a with
      | .ok addr => .ok (.mr (BitVec.ofNat 32 addr))
      | .error e => .error e
    else if w = wordStartsim then (if a.isEmpty then .error .unknownLine else .ok (.startsim a))
    else .error .unknownLine
  | [w, a, b] =>
    if w = wordMw then
      match parseHex 32 a, parseHex p.dataWidth b with
      | .ok addr, .ok d => .ok (.mw (BitVec.ofNat 32 addr) d)
      | .error e, _ => .error e
      | _, .error e => .error e
    else .error .unknownLine
  | _ => .error .unknownLine

/-- R160, R161: a session line. -/
def decodeLine (p : Params) (text : List Byte) : Except Reject Instr :=
  match stripNewline text with
  | none => .error .unterminatedLine
  | some t => decodeWords p (splitWords t)

/-! ## Format PSEUDO -/

/-- R150, R157: a driver call. DESIGN CHOICE (assumption 25): a lowercase digit of `tdi_hex`, which the spec leaves open (N14),
is read as the digit. -/
def decodeCall (op : DriverOp) (count : Nat) (arg : List Byte) : Except Reject Instr :=
  match op with
  | .scanIr =>
    match hexDigits arg with
    | some ds => .ok (.scanIr count ds)
    | none => .error .nonHexDigit
  | .scanDr =>
    match hexDigits arg with
    | some ds => .ok (.scanDr count ds)
    | none => .error .nonHexDigit
  | .runtest => if arg.isEmpty then .ok (.runtest count) else .error .unexpectedArgument

/-- The decoder: total on every raw form, rejecting by name. -/
def decode (p : Params) : Raw → Except Reject Instr
  | .command code => .ok (decodeCommand code)
  | .bus r => .ok (decodeBus p r)
  | .line text => decodeLine p text
  | .call op count arg => decodeCall op count arg

/-! ## The words of opcode_table.json -/

/-- R67: the request a 12-bit word `{bus_we, offset[10:0]}` of the table stands for, on a bus where the block sits at
`p.engineBase`. Bits 15:12 of the word's two bytes are taken as the offset bits above bit 10, bits 31:16 and up as write
data (assumption 15). -/
def tableRequest (p : Params) (w : Nat) : BusRequest :=
  { we := w.testBit 11
    addr := p.engineBase + BitVec.ofNat 32 (w % 2 ^ 11 + (w / 2 ^ 12 % 2 ^ 4) * 2 ^ 11)
    wdata := w / 2 ^ 16 }

/-- The raw form of a word of the table: one byte holds a command code in its low three bits (R63; the bits above a
field are ignored, R65), two bytes hold a bus access. -/
def tableRaw (p : Params) (nbits w : Nat) : Raw :=
  if nbits ≤ 8 then .command (BitVec.ofNat 3 w) else .bus (tableRequest p w)

/-- The instruction the decoder reads from a word numbered as spec/opcode_table.json numbers it. -/
def decodeTableWord (nbits w : Nat) : Option Instr :=
  match decode Params.default (tableRaw Params.default nbits w) with
  | .ok i => some i
  | .error _ => none

/-! ## The encoder -/

/-- R48: the offset of a register. (`curState` has one only where ADDR_CUR_STATE is set.) -/
def regOffset (p : Params) : Reg → Addr
  | .buf k => k.setWidth 32
  | .scanState => 0x400#32
  | .endState => 0x401#32
  | .chainLength => 0x402#32
  | .control => 0x403#32
  | .status => 0x404#32
  | .command => 0x405#32
  | .curState => (p.addrCurState.getD 0x406#11).setWidth 32

/-- The request that reads a register. -/
def readRequest (p : Params) (r : Reg) : BusRequest :=
  { we := false, addr := p.engineBase + regOffset p r, wdata := 0 }

/-- The request that writes a register. -/
def writeRequest (p : Params) (r : Reg) (d : Data) : BusRequest :=
  { we := true, addr := p.engineBase + regOffset p r, wdata := d }

/-- The encoding of each instruction: R63 and R64 (CMD), R67 (BUS), R160 and R161 (HOSTTXT), R150 and R157 (PSEUDO). -/
def encode (p : Params) : Instr → Raw
  | .cmdNone => .command 0b000#3
  | .cmdScan => .command 0b001#3
  | .cmdReset => .command 0b010#3
  | .cmdState => .command 0b011#3
  | .cmdReserved4 => .command 0b100#3
  | .cmdReserved5 => .command 0b101#3
  | .cmdReserved6 => .command 0b110#3
  | .cmdReserved7 => .command 0b111#3
  | .rdBuf k => .bus (readRequest p (.buf k))
  | .wrBuf k d => .bus (writeRequest p (.buf k) d)
  | .rdScanState => .bus (readRequest p .scanState)
  | .wrScanState d => .bus (writeRequest p .scanState d)
  | .rdEndState => .bus (readRequest p .endState)
  | .wrEndState d => .bus (writeRequest p .endState d)
  | .rdChainLength => .bus (readRequest p .chainLength)
  | .wrChainLength d => .bus (writeRequest p .chainLength d)
  | .rdControl => .bus (readRequest p .control)
  | .wrControl d => .bus (writeRequest p .control d)
  | .rdStatus => .bus (readRequest p .status)
  | .wrStatus d => .bus (writeRequest p .status d)
  | .rdCommand => .bus (readRequest p .command)
  | .wrCommand d => .bus (writeRequest p .command d)
  | .rdCurState => .bus (readRequest p .curState)
  | .wrCurState d => .bus (writeRequest p .curState d)
  | .outOfRange we addr d => .bus { we := we, addr := addr, wdata := d }
  | .mw addr d =>
    .line (wordMw ++ [spaceChar] ++ renderHex 8 addr.toNat ++ [spaceChar] ++ renderHex (dataDigits p) d ++ [newlineChar])
  | .mr addr => .line (wordMr ++ [spaceChar] ++ renderHex 8 addr.toNat ++ [newlineChar])
  | .startsim board => .line (wordStartsim ++ [spaceChar] ++ board ++ [newlineChar])
  | .stopsim => .line (wordStopsim ++ [newlineChar])
  | .exit => .line (wordExit ++ [newlineChar])
  | .scanIr count tdi => .call .scanIr count (tdi.map hexChar)
  | .scanDr count tdi => .call .scanDr count (tdi.map hexChar)
  | .runtest ticks => .call .runtest ticks []

end Sys2Proof
end

