-- ==== Sys2Proof/Machine/State.lean ====
section
/-! DEFINITION. Everything the spec gives the machine, as plain data (spec/10_state.md), with the inputs the machine reads
and the host session's last reply; the reasons a step can stop; and the state after reset (R32). -/

namespace Sys2Proof.Machine

/-- The ScanBuffer (R13): the bytes something has written since reset, by byte index, in the canonical form
`Memory.wf` of Machine/Ops.lean. An unlisted index holds NO value of its own: what a read of it gives is a free value
(assumption 5). -/
abbrev Memory := List Host.Cell

/-- The engine phases of R21, the machine's "program counter". -/
inductive Phase where
  | idle
  | preShift
  | clearBuffer
  | gotoStart
  | shift
  | gotoState
  | tapReset
  | done
deriving DecidableEq, Repr

/-- Which half of a TCK pulse is in progress (R29). -/
inductive Half where
  | low
  | high
deriving DecidableEq, Repr

/-- Where the `tdo` samples come from (R33): the environment, not the block. -/
inductive Dut where
  /-- scripted samples, oldest first, then free values: R33's "free input (a draw)" -/
  | samples (l : List Bool)
  /-- the identity-loopback DUT of 95_test_vectors.md: `tdo` equals TDI at every instant -/
  | loopback
  /-- the RegDUT of 95_test_vectors.md: one register, bit 0 first, in both scan paths -/
  | register (bits : List Bool)
deriving DecidableEq, Repr

/-- What the host or the environment does next (R11): the inputs of R12, one entry at a time. -/
inductive Stimulus where
  /-- one tick with `bus_req` = 1 -/
  | request (r : BusRequest)
  /-- one tick without a request -/
  | idle
  /-- one tick with `rst` = 1, and with or without a request, which is then not performed (R190;
  assumption 24) -/
  | reset (r : Option BusRequest)
  /-- the `clock_divider` input takes another value (R27) -/
  | divider (d : Nat)
  /-- one line on the session channel (R160) -/
  | line (text : List Byte)
  /-- one call of the driver (R150, R157) -/
  | call (op : DriverOp) (count : Nat) (arg : List Byte)
deriving DecidableEq, Repr

/-- What the host session or the driver answered last (R160, R155); the host's, not the block's. -/
inductive Reply where
  /-- nothing yet -/
  | none
  /-- the literal acknowledgement `OK` -/
  | ok
  /-- the value of an `MR`, then `OK` -/
  | value (v : Data)
  /-- the status line of `STOPSIM` (free, by the number it was drawn with), then `OK` -/
  | statusLine (draw : Nat)
  /-- the literal `Goodbye` -/
  | goodbye
  /-- the captured vector of a scan, as its string of uppercase hexadecimal characters (R150, R155) -/
  | vector (text : List Byte)
  /-- a driver operation that returns nothing is over -/
  | returned
deriving DecidableEq, Repr

@[ext]
structure State where
  -- software-visible registers (R13 to R20)
  /-- R13 BUF -/
  buf : Memory
  /-- R14 SCAN_STATE -/
  scanState : TapState
  /-- R15 END_STATE -/
  endState : TapState
  /-- R16 CHAIN_LENGTH -/
  chainLength : BitVec 16
  /-- R17 GO -/
  go : Bool
  /-- R19 COMMAND -/
  command : BitVec 3
  /-- R20 cur_state -/
  curState : TapState
  -- the sequencer (R21, R24)
  /-- R21 eng -/
  eng : Phase
  /-- R24 bit_index -/
  bitIndex : BitVec 16
  -- hidden state (R22, R23, R25, R26)
  /-- R22 pending -/
  pending : Bool
  /-- R23 target -/
  target : TapState
  /-- R25 scan_tms -/
  scanTms : Bool
  /-- R25 end_tms -/
  endTms : Bool
  /-- R26 reset_count -/
  resetCount : Nat
  -- pins and the position within a pulse (R28, R29)
  /-- R28 TCK -/
  tck : Bool
  /-- R28 TMS -/
  tms : Bool
  /-- R28 TDI -/
  tdi : Bool
  /-- R29 tck_half -/
  tckHalf : Half
  /-- R29 half_count -/
  halfCount : Nat
  /-- R104: the `s` of the pulse in progress, from its sampling instant to its end (assumption 7) -/
  tdoSample : Bool
  -- bus outputs (R12, R130)
  /-- bus_ack -/
  busAck : Bool
  /-- bus_rdata, DW bits, valid with bus_ack -/
  busRdata : Data
  -- inputs and the environment (R11, R27, R33)
  /-- R27 clock_divider, a number of DIVW bits -/
  clockDivider : Nat
  /-- R6: the open parameters DW, ENGINE_BASE, ADDR_CUR_STATE and DIVW, fixed for one machine -/
  params : Params
  /-- what the host does next, first first -/
  script : List Stimulus
  /-- R33: the source of `tdo` -/
  dut : Dut
  /-- R193: the state the TAP of the device under test is in -/
  dutTap : TapState
  -- the host's side (R160, R155)
  /-- the last reply of the session or the driver -/
  reply : Reply
  -- the model's own counters for free values
  /-- how many free values have been drawn -/
  draws : Nat
  /-- how many resets the buffer's contents have been lost in -/
  bufEpoch : Nat
deriving DecidableEq, Repr

/-- The block itself raises nothing (R170). These faults are the model's own: loops of the model whose bound, which R122
gives, would be passed. Both are safe: the model stops where the hardware would go on for ever. -/
inductive Fault where
  /-- STUCK. Raised by the meaning of a command that has not reached DONE within the ticks R122 and R203 allow. Safe. -/
  | commandNeverEnds
  /-- STUCK. Raised by the driver's poll (R154, which has no timeout) when busy has not fallen within that many polls.
  Safe. -/
  | pollNeverEnds
deriving DecidableEq, Repr

/-- The inputs to which the spec gives no meaning (its word is "refuse", 93_implementation_defined.md), and the arms not
written yet. All are safe: nothing can be proved about what follows. -/
inductive Refusal where
  /-- Raised by exec for an instruction that has no meaning yet. Safe. -/
  | notModelled (mnemonic : String)
  /-- U1, R143: raised by an access to an offset outside the map. Safe. -/
  | outOfRange
  /-- U5, R116 (a): raised at shift entry of a SCAN with CHAIN_LENGTH > 8192. Safe. -/
  | chainLengthExceedsBuffer
  /-- U6, R116 (b): raised at shift entry of a SCAN whose SCAN_STATE has no self-loop. Safe. -/
  | scanStateNotStable
  /-- U9, R196: raised by a write of the buffer or of a parameter register during a command. Safe. -/
  | writeDuringCommand
  /-- U23, R130: raised by a bus request less than two ticks after the one before. Safe. -/
  | requestTooSoon
  /-- U17, R27: raised by a change of `clock_divider` while busy = 1. Safe. -/
  | dividerDuringCommand
  /-- U19, R150, R152: raised by a driver operation called outside its preconditions. Safe. -/
  | driverPrecondition
  /-- R160, N13, N14: raised by a session line or a driver call the decoder rejects. Safe. -/
  | undecodable (r : Reject)
deriving DecidableEq, Repr

/-- R32 and R191: the machine right after reset. Everything not in R32 (bus_rdata, the inputs, the host's side, the free
value counters) is the model's choice and named in the assumption log (3, 7, 8, 9, 10, 12). -/
def State.reset : State where
  buf := []
  scanState := .testLogicReset
  endState := .testLogicReset
  chainLength := 0
  go := false
  command := 0
  curState := .testLogicReset
  eng := .idle
  bitIndex := 0
  pending := false
  target := .testLogicReset
  scanTms := false
  endTms := false
  resetCount := 0
  tck := false
  tms := false
  tdi := false
  tckHalf := .low
  halfCount := 0
  tdoSample := false
  busAck := false
  busRdata := 0
  clockDivider := 0
  params := Params.default
  script := []
  dut := .samples []
  dutTap := Config.dutTapAtReset
  reply := .none
  draws := 0
  bufEpoch := 0

end Sys2Proof.Machine
end

