-- ==== Sys2Proof/Machine/TapGraph.lean ====
section
/-! DEFINITION. TapGraph: the codes of the TAP states, the transition table and the router
(spec/30_encoding.md R62; spec/40_tapgraph.md R80 to R89). -/

namespace Sys2Proof.Machine

/-- R62: the code of a state. -/
def tapCode : TapState → Nibble
  | .testLogicReset => 0x0#4
  | .runTestIdle => 0x1#4
  | .selectDr => 0x2#4
  | .captureDr => 0x3#4
  | .shiftDr => 0x4#4
  | .exit1Dr => 0x5#4
  | .pauseDr => 0x6#4
  | .exit2Dr => 0x7#4
  | .updateDr => 0x8#4
  | .selectIr => 0x9#4
  | .captureIr => 0xA#4
  | .shiftIr => 0xB#4
  | .exit1Ir => 0xC#4
  | .pauseIr => 0xD#4
  | .exit2Ir => 0xE#4
  | .updateIr => 0xF#4

/-- R62: the state of a code. Every 4-bit value is a state (R89). -/
def tapOfCode (c : Nibble) : TapState :=
  match c.toNat with
  | 0 => .testLogicReset
  | 1 => .runTestIdle
  | 2 => .selectDr
  | 3 => .captureDr
  | 4 => .shiftDr
  | 5 => .exit1Dr
  | 6 => .pauseDr
  | 7 => .exit2Dr
  | 8 => .updateDr
  | 9 => .selectIr
  | 10 => .captureIr
  | 11 => .shiftIr
  | 12 => .exit1Ir
  | 13 => .pauseIr
  | 14 => .exit2Ir
  | _ => .updateIr

/-- R81: the state the TAP enters at a rising edge of TCK, by the value of TMS. -/
def tapNext : TapState → Bool → TapState
  | .testLogicReset, false => .runTestIdle
  | .testLogicReset, true => .testLogicReset
  | .runTestIdle, false => .runTestIdle
  | .runTestIdle, true => .selectDr
  | .selectDr, false => .captureDr
  | .selectDr, true => .selectIr
  | .captureDr, false => .shiftDr
  | .captureDr, true => .exit1Dr
  | .shiftDr, false => .shiftDr
  | .shiftDr, true => .exit1Dr
  | .exit1Dr, false => .pauseDr
  | .exit1Dr, true => .updateDr
  | .pauseDr, false => .pauseDr
  | .pauseDr, true => .exit2Dr
  | .exit2Dr, false => .shiftDr
  | .exit2Dr, true => .updateDr
  | .updateDr, false => .runTestIdle
  | .updateDr, true => .selectDr
  | .selectIr, false => .captureIr
  | .selectIr, true => .testLogicReset
  | .captureIr, false => .shiftIr
  | .captureIr, true => .exit1Ir
  | .shiftIr, false => .shiftIr
  | .shiftIr, true => .exit1Ir
  | .exit1Ir, false => .pauseIr
  | .exit1Ir, true => .updateIr
  | .pauseIr, false => .pauseIr
  | .pauseIr, true => .exit2Ir
  | .exit2Ir, false => .shiftIr
  | .exit2Ir, true => .updateIr
  | .updateIr, false => .runTestIdle
  | .updateIr, true => .selectDr

/-- R82 (a): the TMS value that keeps the TAP in a state, for the six states that have one. -/
def selfLoop : TapState → Option Bool
  | .testLogicReset => some true
  | .runTestIdle | .shiftDr | .pauseDr | .shiftIr | .pauseIr => some false
  | .selectDr | .captureDr | .exit1Dr | .exit2Dr | .updateDr => none
  | .selectIr | .captureIr | .exit1Ir | .exit2Ir | .updateIr => none

/-- A stable state: one with a self-loop (R9, R82 (a)). -/
def isStable (s : TapState) : Bool := (selfLoop s).isSome

/-- R84, packed as R85 packs it: bit t of the word of s is `route(s, t)`, t by its code. The diagonal bits are not read. -/
def routeWord : TapState → BitVec 16
  | .testLogicReset => 0x0001#16
  | .runTestIdle => 0xFFFD#16
  | .selectDr => 0xFE03#16
  | .captureDr => 0xFFE7#16
  | .shiftDr => 0xFFEF#16
  | .exit1Dr => 0xFF0F#16
  | .pauseDr => 0xFFBF#16
  | .exit2Dr => 0xFF0F#16
  | .updateDr => 0xFEFD#16
  | .selectIr => 0x01FF#16
  | .captureIr => 0xF3FF#16
  | .shiftIr => 0xF7FF#16
  | .exit1Ir => 0x87FF#16
  | .pauseIr => 0xDFFF#16
  | .exit2Ir => 0x87FF#16
  | .updateIr => 0x7FFD#16

/-- R83, R87: the TMS value that begins the shortest path from s to t; on the diagonal the self-loop's value, and where
there is no self-loop a free value. -/
def route (s t : TapState) : Bool :=
  if s = t then
    match selfLoop s with
    | some v => v
    | none => Config.routeDiagonal s
  else (routeWord s).getLsbD (tapCode t).toNat

/-- R88: the TMS values the router gives from s until t is reached, at most `fuel` of them. -/
def pathWithin : Nat → TapState → TapState → List Bool
  | 0, _, _ => []
  | n + 1, s, t => if s = t then [] else route s t :: pathWithin n (tapNext s (route s t)) t

/-- R88: `path(s, t)`. MAX_ROUTE_STEPS bounds it (R86). -/
def path (s t : TapState) : List Bool := pathWithin Config.maxRouteSteps s t

/-- R86: `d(s, t)`, the length of the path the router takes. -/
def distance (s t : TapState) : Nat := (path s t).length

/-- The state a sequence of TMS values leads to. -/
def tapRun : TapState → List Bool → TapState
  | s, [] => s
  | s, v :: r => tapRun (tapNext s v) r

end Sys2Proof.Machine
end

