-- ==== Sys2Proof/Machine/Flags.lean ====
section
/-! DEFINITION. The one-bit conditions of the block: busy, the trigger edge, dispatch, and the windows in which the host
may not write or reads no fixed value (spec/10_state.md R17, R18, R22; spec/42_engine_commands.md R101, R102;
spec/70_reset_and_hazards.md R196; spec/20_memory.md R57). -/

namespace Sys2Proof.Machine

/-- R18: `busy = (eng != IDLE) and (eng != DONE)`; it is not stored. -/
def isBusy (s : State) : Bool := decide (s.eng ≠ .idle) && decide (s.eng ≠ .done)

/-- R102: the COMMAND value selects SCAN, RESET or STATE. -/
def selectsCommand (code : BitVec 3) : Bool :=
  decide (code = 1#3) || decide (code = 2#3) || decide (code = 3#3)

/-- R102: the engine is in IDLE with a trigger pending. -/
def triggered (s : State) : Bool := decide (s.eng = .idle) && s.pending

/-- R102: the step of IDLE that leaves IDLE: a trigger is pending and COMMAND selects a command. -/
def dispatching (s : State) : Bool := triggered s && selectsCommand s.command

/-- R101: a write of the control register with these data is a trigger. -/
def triggerEdge (d : Data) (s : State) : Bool :=
  d.testBit 0 && !s.go && decide (s.eng = .idle)

/-- R101, R146: `pending` after a tick in which the host writes the control register, from the state `s` of that tick and
the state `u` the engine leaves: a dispatch in the same tick wins. -/
def pendingAfterWrite (d : Data) (s u : State) : Bool :=
  if triggerEdge d s && !dispatching s then true else u.pending

/-- R196: the window in which the host must not write the buffer or a parameter register: busy = 1, or `pending = 1`
with COMMAND = 1, 2 or 3. -/
def commandInFlight (s : State) : Bool := isBusy s || (s.pending && selectsCommand s.command)

/-- R91: `nbytes(count)`, the bytes a vector of `count` bits occupies. -/
def nbytes (count : Nat) : Nat := count / 8 + (if count % 8 > 0 then 1 else 0)

/-- R57: the byte lies inside the vector's span while busy = 1, so a host read of it returns any value. -/
def readsIntermediate (k : Nat) (s : State) : Bool :=
  isBusy s && decide (k < nbytes s.chainLength.toNat)

end Sys2Proof.Machine
end

