-- ==== Sys2Proof/Machine/Operands.lean ====
section
/-! DEFINITION. The operand forms: the ScanBuffer by byte and by bit (spec/41_scanbuffer.md R90 to R98,
spec/20_memory.md R41), and the field each register has in a bus data word (spec/30_encoding.md R61, R65, R66). -/

namespace Sys2Proof.Machine

/-! ## The ScanBuffer -/

/-- The byte listed at an index, if any. -/
def Memory.lookup : Memory → Nat → Option Byte
  | [], _ => none
  | (a, x) :: r, k => if a = k then some x else Memory.lookup r k

/-- The memory with byte `v` at index `k`; a list with rising indices stays one. -/
def Memory.store : Memory → Nat → Byte → Memory
  | [], k, v => [(k, v)]
  | (a, x) :: r, k, v =>
    if k < a then (k, v) :: (a, x) :: r
    else if k = a then (k, v) :: r
    else (a, x) :: Memory.store r k v

/-- The indices rise strictly, from `lo` on. -/
def Memory.rising : Nat → Memory → Bool
  | _, [] => true
  | lo, (a, _) :: r => decide (lo ≤ a) && Memory.rising (a + 1) r

/-- The canonical form: strictly rising indices, all of them bytes of the buffer. (An unlisted index has no value, so no
entry can equal one.) -/
def Memory.wf (m : Memory) : Bool :=
  Memory.rising 0 m && m.all fun c => decide (c.1 < Config.bufBytes)

/-- R94 `read_byte(k)`; a byte nothing has written since reset is a free value (R98, U11). -/
def readByte (s : State) (k : Nat) : Byte :=
  match Memory.lookup s.buf k with
  | some v => v
  | none => Config.unwrittenByte s.bufEpoch k

/-- R94 `write_byte(k, v)`. -/
def writeByte (s : State) (k : Nat) (v : Byte) : State := { s with buf := Memory.store s.buf k v }

/-- R92 `read_bit(i)`. -/
def readBit (s : State) (i : Nat) : Bool := (readByte s (i / 8)).getLsbD (i % 8)

/-- R93: the byte with bit `m` replaced, `(old & ~(1 << m)) | (b << m)`. -/
def setBit (old : Byte) (m : Nat) (b : Bool) : Byte :=
  (old &&& ~~~(1#8 <<< m)) ||| ((if b then 1#8 else 0#8) <<< m)

/-- R93 `write_bit(i, b)`: a read-modify-write of the byte that holds bit `i`. -/
def writeBit (s : State) (i : Nat) (b : Bool) : State :=
  writeByte s (i / 8) (setBit (readByte s (i / 8)) (i % 8) b)

/-! ## The registers of the bus map -/

/-- R65 `zext_DW` of a one-bit field. -/
def bitWord (b : Bool) : Data := if b then 1 else 0

/-- R134 to R142: the value a bus read of a register returns, zero-extended (R65): as an unsigned number the DW-bit word is
the field itself, whatever DW is. -/
def regRead : Reg → State → Data
  | .buf k, s =>
    if readsIntermediate k.toNat s then (Config.busyReadByte s.draws).toNat
    else (readByte s k.toNat).toNat
  | .scanState, s => (tapCode s.scanState).toNat
  | .endState, s => (tapCode s.endState).toNat
  | .chainLength, s => s.chainLength.toNat
  | .control, s => bitWord s.go
  | .status, s => bitWord (isBusy s)
  | .command, s => s.command.toNat
  | .curState, s => (tapCode s.curState).toNat

/-- How many free values that read draws (R57). -/
def regReadDraws : Reg → State → Nat
  | .buf k, s => if readsIntermediate k.toNat s then 1 else 0
  | .scanState, _ | .endState, _ | .chainLength, _ | .control, _ => 0
  | .status, _ | .command, _ | .curState, _ => 0

/-- R135 to R142: what a bus write of a register with data `d` changes. `s` is the state of the tick, `u` the state the
engine's step of the same tick leaves (R146). -/
def regWrite (r : Reg) (d : Data) (s u : State) : State :=
  match r with
  | .buf k => writeByte u k.toNat (BitVec.ofNat 8 d)
  | .scanState => { u with scanState := tapOfCode (BitVec.ofNat 4 d) }
  | .endState => { u with endState := tapOfCode (BitVec.ofNat 4 d) }
  | .chainLength => { u with chainLength := BitVec.ofNat 16 d }
  | .control => { u with go := d.testBit 0, pending := pendingAfterWrite d s u }
  | .status => u
  | .command => { u with command := BitVec.ofNat 3 d }
  | .curState => u

/-- R196: the registers the host must not write during a command. The control register may be written; a write of a
read-only register changes nothing. -/
def isParameter : Reg → Bool
  | .buf _ | .scanState | .endState | .chainLength | .command => true
  | .control | .status | .curState => false

end Sys2Proof.Machine
end

