-- ==== Sys2Proof/Machine/Ops.lean ====
section
/-! DEFINITION. The shared operations: the TCK pulse, the engine's step in every phase, one tick of the controller clock,
reset, and a bus access (spec/42_engine_commands.md R100 to R128, spec/43_register_bridge.md R130 to R146,
spec/70_reset_and_hazards.md R190 and R202, spec/10_state.md R32 and R33).

The block takes no exception and returns from none (R170, R179): the one operation that abandons what is in progress and
puts the machine at a fixed point is reset, `applyReset`. -/

namespace Sys2Proof.Machine

/-- How a tick, an access, or an instruction ends. -/
abbrev Result (α : Type) := Host.Outcome α Fault Refusal

/-- What follows a result that has not stopped. -/
def andThen {α β : Type} (o : Result α) (f : α → Result β) : Result β :=
  match o with
  | .next a => f a
  | .fault r => .fault r
  | .refused r => .refused r

/-- R130: `bus_ack` in the next tick. -/
def withAck (b : Bool) (s : State) : State := { s with busAck := b }

/-! ## The TCK pulse -/

/-- The operands of `Pulse(v, d, capture)` (R104); `tdi = none` is `hold`. -/
structure PulseOp where
  tms : Bool
  tdi : Option Bool
  capture : Bool
deriving DecidableEq, Repr

/-- R111: the TMS value of shift bit `bit_index`. -/
def shiftTms (s : State) : Bool :=
  if s.bitIndex = s.chainLength - 1 then s.endTms else s.scanTms

/-- R107, R112, R118, R127: the pulse the current engine step is, or none where the step is bookkeeping. -/
def pulseOp (s : State) : Option PulseOp :=
  match s.eng with
  | .gotoStart | .gotoState =>
    if s.curState = s.target then none
    else some { tms := route s.curState s.target, tdi := none, capture := false }
  | .shift =>
    if s.bitIndex = s.chainLength then none
    else some { tms := shiftTms s, tdi := some (readBit s s.bitIndex.toNat), capture := true }
  | .tapReset =>
    if s.resetCount < Config.resetPulses then some { tms := true, tdi := none, capture := false }
    else none
  | .idle | .preShift | .clearBuffer | .done => none

/-- R28: the levels of TMS and TDI. -/
def withPins (tms tdi : Bool) (s : State) : State := { s with tms := tms, tdi := tdi }

/-- R104, R202: TMS and TDI take the pulse's values at the tick a pulse starts. -/
def drive (s : State) : State :=
  match pulseOp s with
  | none => s
  | some p =>
    if s.tckHalf = .low ∧ s.halfCount = 0 then withPins p.tms (p.tdi.getD s.tdi) s else s

/-- R33: the level of `tdo` at the sampling instant. -/
def tdoLevel (s : State) : Bool :=
  match s.dut with
  | .samples (b :: _) => b
  | .samples [] => Config.tdoLevel s.draws
  | .loopback => s.tdi
  | .register bits => bits.headD s.tdi

/-- R104: `s <- tdo`, used only if the pulse captures. -/
def sampleTdo (s : State) : State :=
  match s.dut with
  | .samples (b :: l) => { s with tdoSample := b, dut := .samples l }
  | .samples [] => { s with tdoSample := tdoLevel s, draws := s.draws + 1 }
  | .loopback => { s with tdoSample := tdoLevel s }
  | .register _ => { s with tdoSample := tdoLevel s }

/-- What the register of a RegDUT holds after a rising edge in a shift state (95_test_vectors.md). -/
def shiftRegister (tdi : Bool) : List Bool → List Bool
  | [] => []
  | _ :: r => r ++ [tdi]

/-- What the device under test does at a rising edge of TCK (R104, R193): its TAP follows TMS, and a RegDUT in a shift
state shifts. -/
def dutEdge (s : State) : State :=
  let dut :=
    match s.dut with
    | .samples l => .samples l
    | .loopback => .loopback
    | .register bits =>
      if s.dutTap = .shiftDr ∨ s.dutTap = .shiftIr then .register (shiftRegister s.tdi bits)
      else .register bits
  { s with dut := dut, dutTap := tapNext s.dutTap s.tms }

/-- R104, R202: the end of the low half-period: `tdo` is sampled, then TCK rises. -/
def risingEdge (p : PulseOp) (s : State) : State :=
  let u := dutEdge (if p.capture then sampleTdo s else s)
  { u with tck := true, tckHalf := .high, halfCount := 0 }

/-- R104, R202: the end of the high half-period: TCK falls and `cur_state` follows. -/
def fallingEdge (p : PulseOp) (s : State) : State :=
  { s with tck := false, tckHalf := .low, halfCount := 0, curState := tapNext s.curState p.tms }

/-- R112: the sample replaces the bit that was sent, and the index advances. -/
def captureBit (s : State) : State :=
  { writeBit s s.bitIndex.toNat s.tdoSample with bitIndex := s.bitIndex + 1 }

/-- R118: one more reset pulse is over. -/
def countPulse (s : State) : State := { s with resetCount := s.resetCount + 1 }

/-- R112, R118: what the step does beside its pulse, at the pulse's end. -/
def stepAfterPulse (s : State) : State :=
  match s.eng with
  | .shift => captureBit s
  | .tapReset => countPulse s
  | .gotoStart | .gotoState => s
  | .idle | .preShift | .clearBuffer | .done => s

/-- R29: the count of the ticks elapsed in the current half-period. -/
def withHalfCount (n : Nat) (s : State) : State := { s with halfCount := n }

/-- R202: one tick of a pulse step. Each half-period lasts `1 + clock_divider` ticks. -/
def pulseTick (p : PulseOp) (s : State) : State :=
  if s.halfCount < s.clockDivider then withHalfCount (s.halfCount + 1) s
  else
    match s.tckHalf with
    | .low => risingEdge p s
    | .high => stepAfterPulse (fallingEdge p s)

/-! ## The bookkeeping steps -/

/-- R102: dispatch of SCAN. -/
def dispatchScan (s : State) : State := { s with pending := false, eng := .preShift }

/-- R102: dispatch of RESET. -/
def dispatchReset (s : State) : State :=
  { s with pending := false, resetCount := 0, eng := .tapReset }

/-- R102: dispatch of STATE. -/
def dispatchState (s : State) : State :=
  { s with pending := false, target := s.endState, eng := .gotoState }

/-- R102: the step of IDLE. -/
def stepIdle (s : State) : State :=
  if s.pending then
    if s.command = 1#3 then dispatchScan s
    else if s.command = 2#3 then dispatchReset s
    else if s.command = 3#3 then dispatchState s
    else s
  else s

/-- R108: the step of PRE_SHIFT. -/
def leavePreShift (s : State) : State := { s with eng := .clearBuffer }

/-- R109: the step of CLEAR_BUFFER. -/
def leaveClearBuffer (s : State) : State :=
  { s with target := s.scanState, bitIndex := 0, eng := .gotoStart }

/-- R110: the step of GOTO_START once the TAP is there. -/
def enterShift (s : State) : State :=
  { s with
    scanTms := route s.scanState s.scanState
    endTms := route s.scanState s.endState
    eng := .shift }

/-- R110, R116: shift entry, or its refusal. -/
def shiftEntry (s : State) : Result State :=
  if isStable s.scanState = false then .refused .scanStateNotStable
  else if Config.bufBits < s.chainLength.toNat then .refused .chainLengthExceedsBuffer
  else .next (enterShift s)

/-- R112: the step of SHIFT once every bit is shifted. -/
def leaveShift (s : State) : State := { s with target := s.endState, eng := .gotoState }

/-- R114: the step of GOTO_STATE once the TAP is there. -/
def enterDone (s : State) : State := { s with eng := .done }

/-- R119: the step of TAP_RESET after the last pulse. -/
def leaveTapReset (s : State) : State := { s with curState := .testLogicReset, eng := .done }

/-- R121: the step of DONE. -/
def stepDone (s : State) : State := if s.go then s else { s with eng := .idle }

/-- R128: the steps that are no pulse, by phase. -/
def bookkeepingTick (s : State) : Result State :=
  match s.eng with
  | .idle => .next (stepIdle s)
  | .preShift => .next (leavePreShift s)
  | .clearBuffer => .next (leaveClearBuffer s)
  | .gotoStart => shiftEntry s
  | .shift => .next (leaveShift s)
  | .gotoState => .next (enterDone s)
  | .tapReset => .next (leaveTapReset s)
  | .done => .next (stepDone s)

/-- R128, R202: what the engine does in one controller tick. -/
def engineTick (s : State) : Result State :=
  match pulseOp s with
  | some p => .next (pulseTick p s)
  | none => bookkeepingTick s

/-! ## One tick of the controller clock -/

/-- One tick with `rst` = 0 (R146): the engine's part, then `bridge`, what the bus does in the same tick, then the pins of
a pulse that starts with the next tick. -/
def tickWith (bridge : State → State) (s : State) : Result State :=
  andThen (engineTick s) fun u => .next (drive (bridge u))

/-- One tick without a bus request: `bus_ack` is 0 in the next (R130). -/
def idleTick (s : State) : Result State := tickWith (withAck false) s

/-- `n` ticks without a bus request. -/
def idleTicks : Nat → State → Result State
  | 0, s => .next s
  | n + 1, s => andThen (idleTick s) (idleTicks n)

/-- R190, R191, R192: one tick with `rst` = 1. Every state element takes its value of R32; the contents of the buffer are
unspecified from here on (R13, R98: assumption 6). The inputs, the device under test and the host keep theirs.
A request of that tick is dropped whatever `bus_ack` is, and leaves nothing that the spacing of R130 counts from
(assumption 24). -/
def applyReset (s : State) : State :=
  { s with
    buf := []
    bufEpoch := s.bufEpoch + 1
    scanState := .testLogicReset
    endState := .testLogicReset
    chainLength := 0
    go := false
    command := 0
    curState := .testLogicReset
    eng := .idle
    bitIndex := 0
    pending := false
    target := .testLogicReset
    scanTms := false
    endTms := false
    resetCount := 0
    tck := false
    tms := false
    tdi := false
    tckHalf := .low
    halfCount := 0
    tdoSample := false
    busAck := false }

/-! ## The bus -/

/-- R130, U23: a request may be asserted in any tick but the one in which the access before is acknowledged. DESIGN CHOICE
(assumption 24): the request before is known by its acknowledge alone, so one dropped in a tick with `rst` = 1 (R133, R190)
is no access that the two ticks count from, and a request in the very next tick is accepted. -/
def requestTick (bridge : State → State) (s : State) : Result State :=
  if s.busAck then .refused .requestTooSoon else tickWith bridge s

/-- R132, R130: `BusRead` of a register. `bus_rdata` in the next tick is the register's value in this one. -/
def busRead (r : Reg) (s : State) : Result State :=
  requestTick (fun u =>
    withAck true { u with busRdata := regRead r s, draws := u.draws + regReadDraws r s }) s

/-- R131, R130, R196: `BusWrite` of a register. It takes effect, and is acknowledged, in the next tick. -/
def busWrite (r : Reg) (d : Data) (s : State) : Result State :=
  if isParameter r && commandInFlight s then .refused .writeDuringCommand
  else requestTick (fun u => withAck true (regWrite r d s u)) s

/-- R142: the `cur_state` register is in the map only where ADDR_CUR_STATE is set. -/
def whenCurStateMapped (s : State) (o : Result State) : Result State :=
  if s.params.addrCurState.isSome then o else .refused .outOfRange

/-! ## A blocking host (R50, R130, R161) -/

/-- The host waits for the acknowledge of the access before, if it is still on the bus. -/
def awaitAck (s : State) : Result State := if s.busAck then idleTick s else .next s

/-- A whole write access of a host that waits for its acknowledge: the request tick, then the acknowledge tick. -/
def hostWrite (r : Reg) (d : Data) (s : State) : Result State :=
  andThen (awaitAck s) fun s => andThen (busWrite r d s) idleTick

/-- A whole read access of such a host, with the data it takes in the acknowledge tick. -/
def hostRead (r : Reg) (s : State) : Result (Data × State) :=
  andThen (awaitAck s) fun s =>
    andThen (busRead r s) fun u => andThen (idleTick u) fun t => .next (u.busRdata, t)

/-- R27, U17: the `clock_divider` input takes another value, of DIVW bits. -/
def changeDivider (d : Nat) (s : State) : Result State :=
  if isBusy s then .refused .dividerDuringCommand
  else .next { s with clockDivider := s.params.dividerValue d }

end Sys2Proof.Machine
end

