-- ==== Sys2Proof/Machine/Bridge.lean ====
section
/-! DEFINITION. The bus accesses (spec/43_register_bridge.md R130 to R147). Each is ONE tick, the tick of the request: the
engine takes its step of that tick (R146), a write has its effect and a read its value from the next tick on, and
`bus_ack` is 1 there (R130). -/

namespace Sys2Proof.Machine

/-- R134. -/
def execRdBuf (k : BitVec 10) (s : State) : Result State := busRead (.buf k) s

/-- R135. -/
def execWrBuf (k : BitVec 10) (d : Data) (s : State) : Result State := busWrite (.buf k) d s

/-- R136. -/
def execRdScanState (s : State) : Result State := busRead .scanState s

/-- R136. -/
def execWrScanState (d : Data) (s : State) : Result State := busWrite .scanState d s

/-- R137. -/
def execRdEndState (s : State) : Result State := busRead .endState s

/-- R137. -/
def execWrEndState (d : Data) (s : State) : Result State := busWrite .endState d s

/-- R138. -/
def execRdChainLength (s : State) : Result State := busRead .chainLength s

/-- R138. -/
def execWrChainLength (d : Data) (s : State) : Result State := busWrite .chainLength d s

/-- R139. -/
def execRdControl (s : State) : Result State := busRead .control s

/-- R139, R101. -/
def execWrControl (d : Data) (s : State) : Result State := busWrite .control d s

/-- R140. -/
def execRdStatus (s : State) : Result State := busRead .status s

/-- R140, R66: acknowledged, no effect. -/
def execWrStatus (d : Data) (s : State) : Result State := busWrite .status d s

/-- R141. -/
def execRdCommand (s : State) : Result State := busRead .command s

/-- R141. -/
def execWrCommand (d : Data) (s : State) : Result State := busWrite .command d s

/-- R142. -/
def execRdCurState (s : State) : Result State := whenCurStateMapped s (busRead .curState s)

/-- R142: acknowledged, no effect. -/
def execWrCurState (d : Data) (s : State) : Result State :=
  whenCurStateMapped s (busWrite .curState d s)

/-- R143, R68, U1: "undefined behavior"; nothing is said of the value read or of the state written. -/
def execOutOfRange (_we : Bool) (_addr : Addr) (_d : Data) (_s : State) : Result State :=
  .refused .outOfRange

end Sys2Proof.Machine
end

