-- ==== Sys2Proof/Machine/Engine.lean ====
section
/-! DEFINITION. The eight command codes (spec/42_engine_commands.md R105, R106, R113, R117; spec/30_encoding.md R64).

The meaning of a command is what the engine does from the IDLE step that dispatches it to its entry into DONE, with no
bus access in between: its end-to-end effect (R123, R124, R117). A bus access that comes between runs the same ticks one
at a time (Machine/Bridge.lean). -/

namespace Sys2Proof.Machine

/-- R122, R203: no command is busy for more ticks than a SCAN of 8 + 8192 + 8 pulses. -/
def commandTickBound (s : State) : Nat :=
  5 + (Config.routeDiameter + Config.bufBits + Config.routeDiameter) * (2 * (1 + s.clockDivider))

/-- Ticks until the engine is in DONE. -/
def runToDone : Nat → State → Result State
  | 0, s => if s.eng = .done then .next s else .fault .commandNeverEnds
  | n + 1, s => if s.eng = .done then .next s else andThen (idleTick s) (runToDone n)

/-- The tick of a dispatch, then the command to its end. -/
def runCommand (dispatch : State → State) (s : State) : Result State :=
  runToDone (commandTickBound s) (drive (withAck false (dispatch s)))

/-- R105: a trigger with COMMAND = NONE starts nothing and leaves `pending` set; the tick passes. -/
def execCmdNone (s : State) : Result State := idleTick s

/-- R106: SCAN. Where no trigger is pending in IDLE the command does not start (R101, R102) and the tick passes. -/
def execCmdScan (s : State) : Result State :=
  if triggered s then runCommand dispatchScan s else idleTick s

/-- R117: RESET. -/
def execCmdReset (s : State) : Result State :=
  if triggered s then runCommand dispatchReset s else idleTick s

/-- R113: STATE. -/
def execCmdState (s : State) : Result State :=
  if triggered s then runCommand dispatchState s else idleTick s

/-- R64: a reserved code selects no command; a trigger with it does what a trigger with NONE does. -/
def execCmdReserved4 (s : State) : Result State := idleTick s

/-- R64. -/
def execCmdReserved5 (s : State) : Result State := idleTick s

/-- R64. -/
def execCmdReserved6 (s : State) : Result State := idleTick s

/-- R64. -/
def execCmdReserved7 (s : State) : Result State := idleTick s

end Sys2Proof.Machine
end

