-- ==== Sys2Proof/Machine/Driver.lean ====
section
/-! DEFINITION. The ScanDriver (spec/44_scan_driver.md R150 to R159): scan_ir, scan_dr and runtest as the sequences of bus
accesses of a blocking host. -/

namespace Sys2Proof.Machine

/-! ## The vector's text (R151, R155) -/

/-- R151 step 1: an odd number of digits is padded with one leading 0. -/
def padDigits (ds : List Nibble) : List Nibble := if ds.length % 2 = 1 then 0#4 :: ds else ds

/-- R151 step 2: two digits a byte, the most significant first. -/
def pairDigits : List Nibble → List Byte
  | hi :: lo :: r => (hi ++ lo) :: pairDigits r
  | _ => []

/-- R151: the bytes to load, BUF[0] first. (Reversing a single byte changes nothing.) -/
def encodeVector (ds : List Nibble) : List Byte := (pairDigits (padDigits ds)).reverse

/-- R155: the bytes reversed, each rendered as its two uppercase hexadecimal characters. -/
def renderBytes (bytes : List Byte) : List Byte :=
  bytes.reverse.flatMap fun b => [hexChar (b.extractLsb' 4 4), hexChar (b.extractLsb' 0 4)]

/-- R155: `tdo_hex`, the rendered string, its leading digit dropped when there are more than `ceil(count / 4)`. -/
def decodeVector (count : Nat) (bytes : List Byte) : List Byte :=
  let text := renderBytes bytes
  if (count + 3) / 4 < text.length then text.drop 1 else text

/-! ## The accesses (R152, R153, R154, R155, R157) -/

/-- R152: `MW k B[k]` in increasing k, from index `k` on. -/
def loadBytes : Nat → List Byte → State → Result State
  | _, [], s => .next s
  | k, b :: r, s =>
    andThen (hostWrite (.buf (BitVec.ofNat 10 k)) b.toNat s) (loadBytes (k + 1) r)

/-- R154: polls of the status register until bit 0 is 0. It has no timeout; the bound is a number of polls no command
outlasts (R122). -/
def poll : Nat → State → Result State
  | 0, _ => .fault .pollNeverEnds
  | n + 1, s =>
    andThen (hostRead .status s) fun vt => if vt.1.testBit 0 then poll n vt.2 else .next vt.2

/-- R153, R154, R157: the parameters, COMMAND = SCAN, GO raised, the poll, GO lowered. -/
def scanCommand (len : Nat) (scan finish : TapState) (s : State) : Result State :=
  andThen (hostWrite .chainLength len s) fun s =>
  andThen (hostWrite .scanState (tapCode scan).toNat s) fun s =>
  andThen (hostWrite .endState (tapCode finish).toNat s) fun s =>
  andThen (hostWrite .command 1 s) fun s =>
  andThen (hostWrite .control 1 s) fun s =>
  andThen (poll (commandTickBound s + 1) s) fun s =>
  hostWrite .control 0 s

/-- R155: `n` bytes from index `k` on. -/
def readBytes : Nat → Nat → State → Result (List Byte × State)
  | _, 0, s => .next ([], s)
  | k, n + 1, s =>
    andThen (hostRead (.buf (BitVec.ofNat 10 k)) s) fun vt =>
    andThen (readBytes (k + 1) n vt.2) fun bt => .next (BitVec.ofNat 8 vt.1 :: bt.1, bt.2)

/-- R150, R152, U19: 1 to 8192 bits, and as many bytes as the vector occupies. -/
def scanPrecondition (count : Nat) (tdi : List Nibble) : Bool :=
  decide (1 ≤ count ∧ count ≤ Config.bufBits ∧ (encodeVector tdi).length = nbytes count)

/-- R150, R151 to R155. Outside its preconditions (R150, R152, U19) the operation is refused before any access. -/
def scanVector (shiftState : TapState) (count : Nat) (tdi : List Nibble) (s : State) : Result State :=
  if scanPrecondition count tdi = false then .refused .driverPrecondition
  else
    andThen (loadBytes 0 (encodeVector tdi) s) fun s =>
    andThen (scanCommand count shiftState .runTestIdle s) fun s =>
    andThen (readBytes 0 (nbytes count) s) fun bt =>
    .next { bt.2 with reply := .vector (decodeVector count bt.1) }

/-- R150, R153. -/
def execScanIr (count : Nat) (tdi : List Nibble) (s : State) : Result State :=
  scanVector .shiftIr count tdi s

/-- R150, R153. -/
def execScanDr (count : Nat) (tdi : List Nibble) (s : State) : Result State :=
  scanVector .shiftDr count tdi s

/-- R157: full chunks. -/
def runChunks : Nat → State → Result State
  | 0, s => .next s
  | n + 1, s =>
    andThen (scanCommand Config.runtestChunk .runTestIdle .runTestIdle s) (runChunks n)

/-- R157: `ticks / 1024` full chunks, then a chunk of the remainder unless that is 0. -/
def execRuntest (ticks : Nat) (s : State) : Result State :=
  andThen (runChunks (ticks / Config.runtestChunk) s) fun s =>
  andThen
    (if ticks % Config.runtestChunk = 0 then .next s
     else scanCommand (ticks % Config.runtestChunk) .runTestIdle .runTestIdle s)
    fun s => .next { s with reply := .returned }

end Sys2Proof.Machine
end

