-- ==== Sys2Proof/Machine/Session.lean ====
section
/-! DEFINITION. The host session lines (spec/44_scan_driver.md R160, R161): `MW` and `MR` are one whole bus access of a
host that waits for its acknowledge; the other three do not touch the block. -/

namespace Sys2Proof.Machine

/-- R161: `MW addr d` is one bus write, at the offset `addr - ENGINE_BASE`, of the DW bits of `d`. -/
def execMw (addr : Addr) (d : Data) (s : State) : Result State :=
  match decodeOffset s.params (addr - s.params.engineBase) with
  | none => .refused .outOfRange
  | some r => andThen (hostWrite r (s.params.busWord d) s) fun t => .next { t with reply := .ok }

/-- R161: `MR addr` is one bus read; the reply carries its value. -/
def execMr (addr : Addr) (s : State) : Result State :=
  match decodeOffset s.params (addr - s.params.engineBase) with
  | none => .refused .outOfRange
  | some r => andThen (hostRead r s) fun vt => .next { vt.2 with reply := .value vt.1 }

/-- R160: "do not touch the block"; acknowledged with `OK`. -/
def execStartsim (_board : List Byte) (s : State) : Result State := .next { s with reply := .ok }

/-- R160: a status line, whose form is open (N13), then `OK`. -/
def execStopsim (s : State) : Result State :=
  .next { s with reply := .statusLine s.draws, draws := s.draws + 1 }

/-- R160: `Goodbye`. -/
def execExit (s : State) : Result State := .next { s with reply := .goodbye }

/-- The literal `OK` and the end of the line. -/
def okText : List Byte := [0x4F#8, 0x4B#8, 0x0D#8, 0x0A#8]

/-- The literal `Goodbye` and the end of the line. -/
def goodbyeText : List Byte :=
  [0x47#8, 0x6F#8, 0x6F#8, 0x64#8, 0x62#8, 0x79#8, 0x65#8, 0x0D#8, 0x0A#8]

/-- R160: the digits of the value an `MR` reply carries, in a width that is open (N13). -/
def mrDigits (v : Data) : List Nibble := hexDigitsOf (hexLength v + Config.mrLeadingZeros v) v

/-- R160: "the hexadecimal register value", in a case that is open (N13). -/
def mrValueText (v : Data) : List Byte :=
  (mrDigits v).map (if Config.mrUpperCase v then hexChar else lowerHexChar)

/-- R160: the characters of a session reply; R150, R155: the string a scan answers its caller with. Nothing is answered
before the first reply, nor by runtest (R157). -/
def replyText : Reply → List Byte
  | .ok => okText
  | .value v => mrValueText v ++ Config.mrSeparator v ++ okText
  | .statusLine n => Config.stopsimStatusLine n ++ okText
  | .goodbye => goodbyeText
  | .vector text => text
  | .none | .returned => []

end Sys2Proof.Machine
end

