-- ==== Sys2Proof/Machine/Dispatch.lean ====
section
/-! DEFINITION. exec: the meaning of each instruction, one arm per row of spec/opcode_table.json. -/

namespace Sys2Proof.Machine

def exec (i : Instr) (s : State) : Host.Outcome State Fault Refusal :=
  match i with
  | .cmdNone => Sys2Proof.Machine.execCmdNone s
  | .cmdScan => Sys2Proof.Machine.execCmdScan s
  | .cmdReset => Sys2Proof.Machine.execCmdReset s
  | .cmdState => Sys2Proof.Machine.execCmdState s
  | .cmdReserved4 => Sys2Proof.Machine.execCmdReserved4 s
  | .cmdReserved5 => Sys2Proof.Machine.execCmdReserved5 s
  | .cmdReserved6 => Sys2Proof.Machine.execCmdReserved6 s
  | .cmdReserved7 => Sys2Proof.Machine.execCmdReserved7 s
  | .rdBuf k => Sys2Proof.Machine.execRdBuf k s
  | .wrBuf k d => Sys2Proof.Machine.execWrBuf k d s
  | .rdScanState => Sys2Proof.Machine.execRdScanState s
  | .wrScanState d => Sys2Proof.Machine.execWrScanState d s
  | .rdEndState => Sys2Proof.Machine.execRdEndState s
  | .wrEndState d => Sys2Proof.Machine.execWrEndState d s
  | .rdChainLength => Sys2Proof.Machine.execRdChainLength s
  | .wrChainLength d => Sys2Proof.Machine.execWrChainLength d s
  | .rdControl => Sys2Proof.Machine.execRdControl s
  | .wrControl d => Sys2Proof.Machine.execWrControl d s
  | .rdStatus => Sys2Proof.Machine.execRdStatus s
  | .wrStatus d => Sys2Proof.Machine.execWrStatus d s
  | .rdCommand => Sys2Proof.Machine.execRdCommand s
  | .wrCommand d => Sys2Proof.Machine.execWrCommand d s
  | .rdCurState => Sys2Proof.Machine.execRdCurState s
  | .wrCurState d => Sys2Proof.Machine.execWrCurState d s
  | .outOfRange we addr d => Sys2Proof.Machine.execOutOfRange we addr d s
  | .mw addr d => Sys2Proof.Machine.execMw addr d s
  | .mr addr => Sys2Proof.Machine.execMr addr s
  | .startsim board => Sys2Proof.Machine.execStartsim board s
  | .stopsim => Sys2Proof.Machine.execStopsim s
  | .exit => Sys2Proof.Machine.execExit s
  | .scanIr count tdi => Sys2Proof.Machine.execScanIr count tdi s
  | .scanDr count tdi => Sys2Proof.Machine.execScanDr count tdi s
  | .runtest ticks => Sys2Proof.Machine.execRuntest ticks s

end Sys2Proof.Machine
end

