-- ==== Sys2Proof/Machine/Step.lean ====
section
/-! DEFINITION. One step of the machine, and where a word of the opcode table goes so that the next step runs it.

The block fetches no instruction (spec/20_memory.md R40). What it runs comes from two places: the host, whose next act is
the first entry of `script` (R11: the inputs of R12), and, when the host does nothing more, the COMMAND register, which
the engine reads in the IDLE step of a pending trigger (R102). -/

namespace Sys2Proof.Machine

/-- A decoded instruction is run; a rejected one is refused by the reject's name. -/
def runDecoded (o : Except Reject Instr) (s : State) : Host.Outcome State Fault Refusal :=
  match o with
  | .ok i => exec i s
  | .error e => .refused (.undecodable e)

/-- What one entry of the script does. -/
def stimulate (x : Stimulus) (s : State) : Host.Outcome State Fault Refusal :=
  match x with
  | .request r => runDecoded (decode s.params (.bus r)) s
  | .idle => idleTick s
  | .reset _ => .next (applyReset s)
  | .divider d => changeDivider d s
  | .line text => runDecoded (decode s.params (.line text)) s
  | .call op count arg => runDecoded (decode s.params (.call op count arg)) s

/-- The host's next act; or, where it has none, the command a pending trigger starts; or one tick. -/
def step (s : State) : Host.Outcome State Fault Refusal :=
  match s.script with
  | x :: rest => stimulate x { s with script := rest }
  | [] =>
    if triggered s then runDecoded (decode s.params (.command s.command)) s else idleTick s

/-- A command code goes where a trigger puts one: in COMMAND, with GO and `pending` set, the engine in IDLE and the host
silent. A bus access becomes the host's next act. -/
def State.withFetchWord (s : State) (nbits w : Nat) : State :=
  match tableRaw s.params nbits w with
  | .command code =>
    { s with
      command := code, go := true, pending := true, eng := .idle
      tck := false, tckHalf := .low, halfCount := 0, script := [] }
  | .bus r => { s with script := .request r :: s.script, busAck := false }
  | .line text => { s with script := .line text :: s.script }
  | .call op count arg => { s with script := .call op count arg :: s.script }

end Sys2Proof.Machine
end

