-- ==== Sys2Proof/Safety.lean ====
section
/-! DEFINITION. The words in which claims about the machine are stated: the invariant of a legal run, agreement with the
device under test (spec/70_reset_and_hazards.md R193), the pulses a device under test sees (spec/42_engine_commands.md
R104), and what a tick, a navigation and a scan come to (R107, R123; spec/70_reset_and_hazards.md R203). -/

namespace Sys2Proof.Machine

/-- No pulse is in progress: the machine stands at the first tick of an engine step. -/
def betweenPulses (s : State) : Bool := decide (s.tckHalf = .low) && decide (s.halfCount = 0)

/-- TMS and TDI have the values of the pulse the current step is, if it is one (R202: "from tick a"). -/
def pinsDriven (s : State) : Prop :=
  ∀ p, pulseOp s = some p → s.tms = p.tms ∧ ∀ b, p.tdi = some b → s.tdi = b

/-- The invariant of a run that the spec gives a meaning to, the pins and the widths of the ports aside. -/
structure InvCore (s : State) : Prop where
  /-- the buffer is in canonical form, with indices below 1024 (R13) -/
  bufWf : Memory.wf s.buf = true
  /-- R26: 0 to 5 -/
  resetCountBound : s.resetCount ≤ Config.resetPulses
  /-- R146: a trigger is pending only in IDLE -/
  pendingInIdle : s.pending = true → s.eng = .idle
  /-- R28: TCK is 1 exactly in the high half of a pulse -/
  tckIsHalf : s.tck = decide (s.tckHalf = .high)
  /-- R29: 0 to clock_divider -/
  halfCountBound : s.halfCount ≤ s.clockDivider
  /-- R29: a half-period is in progress only within a pulse -/
  atRest : pulseOp s = none → s.tckHalf = .low ∧ s.halfCount = 0
  /-- R23, R109: on the way to SCAN_STATE the target is SCAN_STATE and the index 0 -/
  startTarget : s.eng = .gotoStart → s.target = s.scanState ∧ s.bitIndex = 0
  /-- R23 -/
  endTarget : s.eng = .gotoState → s.target = s.endState
  /-- R110, R116, R24: in SHIFT the scan is one the spec gives a meaning to, and the index is within it -/
  shifting : s.eng = .shift →
    isStable s.scanState = true ∧ s.chainLength.toNat ≤ Config.bufBits ∧
    s.bitIndex.toNat ≤ s.chainLength.toNat ∧
    s.scanTms = route s.scanState s.scanState ∧ s.endTms = route s.scanState s.endState
  /-- R125: before the last bit the TAP stands in SCAN_STATE -/
  shiftPosition : s.eng = .shift → s.bitIndex.toNat < s.chainLength.toNat → s.curState = s.scanState
  /-- R118, R82 (b): the pulses still to come bring `cur_state` to TEST_LOGIC_RESET -/
  resetProgress : s.eng = .tapReset →
    tapRun s.curState (List.replicate (Config.resetPulses - s.resetCount) true) = .testLogicReset

/-- The open parameters meet their constraints, and what lies on a port of open width fits it. -/
structure PortsFit (s : State) : Prop where
  /-- R6: DW >= 16, and ADDR_CUR_STATE outside the rest of the map -/
  paramsWf : s.params.wf = true
  /-- R27: `clock_divider` is a number of DIVW bits -/
  dividerFits : s.params.dividerValue s.clockDivider = s.clockDivider
  /-- R12, R60: `bus_rdata` is a word of DW bits -/
  rdataFits : s.busRdata < 2 ^ s.params.dataWidth

/-- The invariant of a run that the spec gives a meaning to. It holds after reset and every step keeps it. -/
structure Inv (s : State) : Prop extends InvCore s, PortsFit s where
  /-- R202: the pins have the pulse's values throughout the pulse -/
  pins : pinsDriven s

/-- R193: `cur_state` equals the TAP state of the device under test; between the rising edge of a pulse and its end the
device is one transition ahead. -/
def DutInSync (s : State) : Prop :=
  s.dutTap = match s.tckHalf with
    | .low => s.curState
    | .high => tapNext s.curState s.tms

/-- The tick is not a shift entry that R116 refuses. -/
def tickLegal (s : State) : Bool :=
  if s.eng = .gotoStart ∧ s.curState = s.target then
    isStable s.scanState && decide (s.chainLength.toNat ≤ Config.bufBits)
  else true

/-- One rising edge of TCK as the device under test sees it (R104): the levels of TMS and TDI. -/
structure Edge where
  tms : Bool
  tdi : Bool
deriving DecidableEq, Repr

/-- The rising edges of `n` ticks without a bus request, in order. -/
def risingEdges : Nat → State → List Edge
  | 0, _ => []
  | n + 1, s =>
    match idleTick s with
    | .next t =>
      if s.tck = false ∧ t.tck = true then { tms := s.tms, tdi := s.tdi } :: risingEdges n t
      else risingEdges n t
    | .fault _ => []
    | .refused _ => []

/-- R202: the ticks of one pulse. -/
def pulseTicks (s : State) : Nat := 2 * (1 + s.clockDivider)

/-- R123: the TAP state after the shift pulses of a SCAN, `c1`. -/
def afterShift (s : State) : TapState :=
  if s.chainLength = 0 then s.scanState else tapNext s.scanState (route s.scanState s.endState)

/-- R123: the TMS values of a SCAN's shift pulses. -/
def shiftTmsAt (s : State) (i : Nat) : Bool :=
  if i + 1 = s.chainLength.toNat then route s.scanState s.endState else route s.scanState s.scanState

/-- R123: the level TDI has after a SCAN. -/
def tdiAfterScan (s : State) : Bool :=
  if s.chainLength = 0 then s.tdi else readBit s (s.chainLength.toNat - 1)

/-- R123: the pulses of a SCAN, in order. -/
def scanEdges (s : State) : List Edge :=
  (path s.curState s.scanState).map (fun v => { tms := v, tdi := s.tdi }) ++
  (List.range s.chainLength.toNat).map (fun i => { tms := shiftTmsAt s i, tdi := readBit s i }) ++
  (path (afterShift s) s.endState).map (fun v => { tms := v, tdi := tdiAfterScan s })

/-- R203: the ticks from the dispatch of a SCAN to DONE, the dispatch tick included. -/
def scanTicks (s : State) : Nat := 1 + (5 + (scanEdges s).length * pulseTicks s)

/-- R203: the same for STATE. -/
def stateTicks (s : State) : Nat := 1 + (distance s.curState s.endState * pulseTicks s + 1)

/-- R203: the same for RESET. -/
def resetTicks (s : State) : Nat := 1 + (Config.resetPulses * pulseTicks s + 1)

/-- The level TMS holds after pulses with these values (R28). -/
def tmsAfter (before : Bool) (pulses : List Bool) : Bool := pulses.getLastD before

end Sys2Proof.Machine
end

