-- ==== Sys2Proof/Certificates/Slice0/Obligations.lean ====
section
/-! DEFINITION. The statements about the machine. Each docstring names the rules of spec/ it formalises. A statement that
holds of every value of a free value says so by not naming one, or by naming the opaque constant itself. -/

open Sys2Proof Sys2Proof.Machine

/-! ## TapGraph -/

/-- R81, R62: the transition table by codes, as the two lists NEXT0 and NEXT1. The table and the codes are the spec's own
choice (D1, D2). -/
def Obligations.TransitionTable : Prop :=
  ∀ s : TapState,
    some (tapCode (tapNext s false)).toNat =
      [1, 1, 3, 4, 4, 6, 6, 4, 1, 10, 11, 11, 13, 13, 11, 1][(tapCode s).toNat]? ∧
    some (tapCode (tapNext s true)).toNat =
      [0, 2, 9, 5, 5, 8, 7, 8, 2, 0, 12, 12, 15, 14, 15, 2][(tapCode s).toNat]? ∧
    tapOfCode (tapCode s) = s

/-- R82: the six states with a self-loop, and five steps with TMS = 1 from anywhere. -/
def Obligations.FiveOnesReachReset : Prop :=
  (∀ s, tapRun s [true, true, true, true, true] = .testLogicReset) ∧
  (∀ s, isStable s = true ↔ ∃ v, tapNext s v = s) ∧
  (∀ s v, selfLoop s = some v ↔ tapNext s v = s)

/-- R83, R86, R88: the router's path from s to t leads to t, no sequence of TMS values that leads to t is shorter, and
none is longer than 8 steps (so none than the document's 9). -/
def Obligations.RouterTakesShortestPath : Prop :=
  ∀ s t : TapState,
    tapRun s (path s t) = t ∧
    (∀ l : List Bool, tapRun s l = t → distance s t ≤ l.length) ∧
    distance s t ≤ Config.routeDiameter

/-- R83, R87: off the diagonal the route is the TMS value after which t is nearer; on it, for a state with a self-loop, the
self-loop's. (The ten other diagonal entries are free values, and nothing is said of them.) -/
def Obligations.RouteIsNearerStep : Prop :=
  (∀ s t : TapState, s ≠ t → ∀ v, route s t = v ↔ distance (tapNext s v) t < distance (tapNext s !v) t) ∧
  (∀ s : TapState, isStable s = true → tapNext s (route s s) = s)

/-! ## ScanBuffer -/

/-- R92, R93: `read_bit(i)` is bit `i % 8` of byte `i / 8`; `write_bit(i, b)` replaces that bit of that byte by the 8-bit
formula, changes no other bit and no other byte, and nothing else in the machine. -/
def Obligations.BitAccess : Prop :=
  ∀ (s : State) (i : Nat) (b : Bool), i < Config.bufBits →
    (readBit s i = true ↔ (readByte s (i / 8) >>> (i % 8)) &&& 1#8 = 1#8) ∧
    readByte (writeBit s i b) (i / 8) =
      (readByte s (i / 8) &&& ~~~(1#8 <<< (i % 8))) ||| ((if b then 1#8 else 0#8) <<< (i % 8)) ∧
    readBit (writeBit s i b) i = b ∧
    (∀ j, j ≠ i → readBit (writeBit s i b) j = readBit s j) ∧
    (∀ k, k ≠ i / 8 → readByte (writeBit s i b) k = readByte s k) ∧
    (readBit s i = b → ∀ k, readByte (writeBit s i b) k = readByte s k) ∧
    writeBit s i b = { s with buf := (writeBit s i b).buf }

/-- R94: `write_byte(k, v)` writes BUF[k] only; a byte nothing has written since reset reads as the free value (R98, U11). -/
def Obligations.ByteAccess : Prop :=
  ∀ (s : State) (k : Nat) (v : Byte),
    readByte (writeByte s k v) k = v ∧
    (∀ j, j ≠ k → readByte (writeByte s k v) j = readByte s j) ∧
    writeByte s k v = { s with buf := (writeByte s k v).buf } ∧
    (Memory.lookup s.buf k = none → readByte s k = Config.unwrittenByte s.bufEpoch k)

/-! ## RegisterBridge -/

/-- R134, R132, R49, R57, U10: RD_BUF. The tick is the engine's own tick of that state with the acknowledge and the data
added; the byte is the stored one, or any value where it lies in the vector of a command in flight. -/
def Obligations.BufferReadEffect : Prop :=
  ∀ (s : State) (k : BitVec 10), s.busAck = false → tickLegal s = true →
    ∃ u, idleTick s = .next u ∧
      (readsIntermediate k.toNat s = false →
        exec (.rdBuf k) s =
          .next { u with busAck := true, busRdata := (readByte s k.toNat).toNat }) ∧
      (readsIntermediate k.toNat s = true →
        exec (.rdBuf k) s =
          .next { u with
            busAck := true
            busRdata := (Config.busyReadByte s.draws).toNat
            draws := u.draws + 1 })

/-- R132, R136 to R142 (the reads), R49, R65, R146: every other read returns the zero-extended field as it is in the tick
of the request, whatever the engine is doing, and changes nothing. -/
def Obligations.RegisterReadEffect : Prop :=
  ∀ s : State, s.busAck = false → tickLegal s = true →
    ∃ u, idleTick s = .next u ∧
      exec .rdScanState s =
        .next { u with busAck := true, busRdata := (tapCode s.scanState).toNat } ∧
      exec .rdEndState s =
        .next { u with busAck := true, busRdata := (tapCode s.endState).toNat } ∧
      exec .rdChainLength s =
        .next { u with busAck := true, busRdata := s.chainLength.toNat } ∧
      exec .rdControl s =
        .next { u with busAck := true, busRdata := if s.go then 1 else 0 } ∧
      exec .rdStatus s =
        .next { u with
          busAck := true
          busRdata := if s.eng ≠ .idle ∧ s.eng ≠ .done then 1 else 0 } ∧
      exec .rdCommand s = .next { u with busAck := true, busRdata := s.command.toNat } ∧
      (s.params.addrCurState ≠ none →
        exec .rdCurState s =
          .next { u with busAck := true, busRdata := (tapCode s.curState).toNat })

/-- R102, R121, R128: with no command in flight a tick without a request changes nothing but that DONE is left once GO is
0 and the acknowledge falls. -/
def Obligations.QuietTickEffect : Prop :=
  ∀ s : State, isBusy s = false → dispatching s = false →
    idleTick s = .next { s with
      eng := if s.eng = .done ∧ s.go = false then .idle else s.eng
      busAck := false }

/-- R135, R131: WR_BUF with no command in flight: the low eight bits go to that byte, every other byte reads as before,
and nothing else changes beside the engine's tick and the acknowledge. -/
def Obligations.BufferWriteEffect : Prop :=
  ∀ (s : State) (k : BitVec 10) (d : Data), s.busAck = false → commandInFlight s = false →
    ∃ t, exec (.wrBuf k d) s = .next t ∧
      (readByte t k.toNat).toNat = d % 2 ^ 8 ∧
      (∀ j, j ≠ k.toNat → readByte t j = readByte s j) ∧
      t = { s with
        buf := t.buf
        eng := if s.eng = .done ∧ s.go = false then .idle else s.eng
        busAck := true }

/-- R136, R137, R138, R141 (the writes), R131, R65: with no command in flight each parameter register takes the low bits
of the data and nothing else changes beside the engine's tick and the acknowledge. -/
def Obligations.ParameterWriteEffect : Prop :=
  ∀ (s : State) (d : Data), s.busAck = false → commandInFlight s = false →
    let q : State := { s with
      eng := if s.eng = .done ∧ s.go = false then .idle else s.eng
      busAck := true }
    exec (.wrScanState d) s = .next { q with scanState := tapOfCode (BitVec.ofNat 4 d) } ∧
    exec (.wrEndState d) s = .next { q with endState := tapOfCode (BitVec.ofNat 4 d) } ∧
    exec (.wrChainLength d) s = .next { q with chainLength := BitVec.ofNat 16 d } ∧
    exec (.wrCommand d) s = .next { q with command := BitVec.ofNat 3 d }

/-- R136 to R138, R141, R65: what a parameter write stored is what the next read of that register returns, with every bit
above the field 0. -/
def Obligations.ParameterReadBack : Prop :=
  ∀ (s t : State) (d : Data),
    (exec (.wrScanState d) s = .next t → regRead .scanState t = d % 2 ^ 4) ∧
    (exec (.wrEndState d) s = .next t → regRead .endState t = d % 2 ^ 4) ∧
    (exec (.wrChainLength d) s = .next t → regRead .chainLength t = d % 2 ^ 16) ∧
    (exec (.wrCommand d) s = .next t → regRead .command t = d % 2 ^ 3) ∧
    (exec (.wrControl d) s = .next t → regRead .control t = d % 2)

/-- R196, R144, U9: from the trigger until busy falls, a write of the buffer or of a parameter register is refused. The
refusal is the spec's decision (D23). -/
def Obligations.WriteDuringCommandRefused : Prop :=
  ∀ (s : State) (k : BitVec 10) (d : Data), commandInFlight s = true →
    exec (.wrBuf k d) s = .refused .writeDuringCommand ∧
    exec (.wrScanState d) s = .refused .writeDuringCommand ∧
    exec (.wrEndState d) s = .refused .writeDuringCommand ∧
    exec (.wrChainLength d) s = .refused .writeDuringCommand ∧
    exec (.wrCommand d) s = .refused .writeDuringCommand

/-- R101, R139, R146: WR_CONTROL stores bit 0 in GO in every phase; it sets `pending` exactly at a rising edge in IDLE, and
a dispatch in the same tick wins. A rising edge in any other phase is not remembered (R122, U15). -/
def Obligations.ControlWriteEffect : Prop :=
  ∀ (s : State) (d : Data), s.busAck = false → tickLegal s = true →
    ∃ u, idleTick s = .next u ∧
      exec (.wrControl d) s = .next { u with
        busAck := true
        go := d.testBit 0
        pending :=
          if d.testBit 0 = true ∧ s.go = false ∧ s.eng = .idle ∧ dispatching s = false then true
          else u.pending }

/-- R140, R142, R66, U14: a write of a read-only register is acknowledged and changes nothing, also during a command. The
effect is the spec's decision (D24). -/
def Obligations.ReadOnlyWriteEffect : Prop :=
  ∀ (s : State) (d : Data), s.busAck = false → tickLegal s = true →
    ∃ u, idleTick s = .next u ∧
      exec (.wrStatus d) s = .next { u with busAck := true } ∧
      (s.params.addrCurState ≠ none → exec (.wrCurState d) s = .next { u with busAck := true })

/-- R143, R68, R142, U1: an offset above 0x405 other than ADDR_CUR_STATE selects no register, and every access to it, on
the bus or from the session, is refused. -/
def Obligations.OutOfRangeRefused : Prop :=
  ∀ (s : State) (we : Bool) (addr : Addr) (d : Data),
    exec (.outOfRange we addr d) s = .refused .outOfRange ∧
    (0x405 < (addr - s.params.engineBase).toNat →
      s.params.addrCurState.map (·.toNat) ≠ some (addr - s.params.engineBase).toNat →
      decodeBus s.params { we := we, addr := addr, wdata := d } =
        .outOfRange we addr (d % 2 ^ s.params.dataWidth) ∧
      exec (.mw addr d) s = .refused .outOfRange ∧
      exec (.mr addr) s = .refused .outOfRange) ∧
    (s.params.addrCurState = none →
      exec .rdCurState s = .refused .outOfRange ∧
      exec (.wrCurState d) s = .refused .outOfRange)

/-- R130, U23: a request in the tick in which the access before is acknowledged is refused: every read, every write of a
register that R196 does not protect, and every other write with no command in flight. (A write that R196 refuses anyway is
refused by that name: log entry 21.) The spacing is the spec's decision (D18). -/
def Obligations.RequestSpacing : Prop :=
  ∀ (s : State) (r : BusRequest) (g : Reg), s.busAck = true →
    decodeOffset s.params (r.addr - s.params.engineBase) = some g →
    r.we = false ∨ isParameter g = false ∨ commandInFlight s = false →
    exec (decodeBus s.params r) s = .refused .requestTooSoon

/-! ## The engine's steps -/

/-- R102, R128: the step of IDLE. -/
def Obligations.IdleStep : Prop :=
  ∀ s : State, s.eng = .idle → betweenPulses s = true →
    (s.pending = true ∧ s.command = 1#3 →
      idleTick s = .next { s with pending := false, eng := .preShift, busAck := false }) ∧
    (s.pending = true ∧ s.command = 2#3 →
      idleTick s = .next { s with
        pending := false, resetCount := 0, eng := .tapReset, busAck := false, tms := true }) ∧
    (s.pending = true ∧ s.command = 3#3 →
      idleTick s = .next { s with
        pending := false, target := s.endState, eng := .gotoState, busAck := false
        tms := if s.curState = s.endState then s.tms else route s.curState s.endState }) ∧
    (s.pending = false ∨ (s.command ≠ 1#3 ∧ s.command ≠ 2#3 ∧ s.command ≠ 3#3) →
      idleTick s = .next { s with busAck := false })

/-- R102 ("COMMAND is read at this step and never again during the command"), R55: outside IDLE the content of COMMAND has
no influence on a tick. -/
def Obligations.CommandReadOnlyInIdle : Prop :=
  ∀ (s t : State) (c : BitVec 3), s.eng ≠ .idle → idleTick s = .next t →
    idleTick { s with command := c } = .next { t with command := c }

/-- R108, R109: PRE_SHIFT only advances; CLEAR_BUFFER sets the target and the index and does not touch the buffer. -/
def Obligations.PreparatorySteps : Prop :=
  ∀ s : State, betweenPulses s = true →
    (s.eng = .preShift → idleTick s = .next { s with eng := .clearBuffer, busAck := false }) ∧
    (s.eng = .clearBuffer →
      idleTick s = .next { s with
        target := s.scanState, bitIndex := 0, eng := .gotoStart, busAck := false
        tms := if s.curState = s.scanState then s.tms else route s.curState s.scanState })

/-- R110, R116: shift entry, and the two inputs it refuses. -/
def Obligations.ShiftEntry : Prop :=
  ∀ s : State, s.eng = .gotoStart → s.curState = s.target →
    (isStable s.scanState = false → idleTick s = .refused .scanStateNotStable) ∧
    (isStable s.scanState = true → 8192 < s.chainLength.toNat →
      idleTick s = .refused .chainLengthExceedsBuffer) ∧
    (isStable s.scanState = true → s.chainLength.toNat ≤ 8192 →
      ∃ t, idleTick s = .next t ∧
        t = { s with
          scanTms := route s.scanState s.scanState
          endTms := route s.scanState s.endState
          eng := .shift, busAck := false, tms := t.tms, tdi := t.tdi } ∧
        tapNext s.scanState t.scanTms = s.scanState ∧
        (s.endState ≠ s.scanState → t.endTms = !t.scanTms) ∧
        (s.endState = s.scanState → t.endTms = t.scanTms))

/-- R104, R202: a pulse lasts `2 * (1 + clock_divider)` ticks, TCK low in the first half and high in the second, TMS and
TDI constant throughout, and `cur_state` follows at its end. The schedule is the spec's decision (D17). -/
def Obligations.PulseSchedule : Prop :=
  ∀ (s : State) (p : PulseOp), pulseOp s = some p → betweenPulses s = true → pinsDriven s →
    s.tck = false →
    (∀ n, n < pulseTicks s →
      ∃ u, idleTicks n s = .next u ∧
        u.tck = decide (s.clockDivider < n) ∧ u.tms = p.tms ∧ u.tdi = s.tdi ∧
        u.curState = s.curState ∧ u.eng = s.eng ∧ u.bitIndex = s.bitIndex ∧ u.buf = s.buf) ∧
    (∃ t, idleTicks (pulseTicks s) s = .next t ∧
      t.tck = false ∧ betweenPulses t = true ∧ t.curState = tapNext s.curState p.tms ∧
      t.eng = s.eng) ∧
    risingEdges (pulseTicks s) s = [{ tms := p.tms, tdi := s.tdi }]

/-- R107, R127: the navigation step: one pulse with the router's TMS value, TDI held, `tdo` not sampled, and nothing else
changed. -/
def Obligations.NavigationStep : Prop :=
  ∀ s : State, s.eng = .gotoStart ∨ s.eng = .gotoState → s.curState ≠ s.target →
    betweenPulses s = true → pinsDriven s → s.tck = false →
    ∃ t, idleTicks (pulseTicks s) s = .next t ∧
      t.curState = tapNext s.curState (route s.curState s.target) ∧
      distance t.curState s.target + 1 = distance s.curState s.target ∧
      (t.tms = if t.curState = s.target then route s.curState s.target
        else route t.curState s.target) ∧
      t = { s with
        curState := t.curState, tms := t.tms, busAck := false
        dut := t.dut, dutTap := tapNext s.dutTap (route s.curState s.target) }

/-- R112, R111, R43: the step of SHIFT while bits remain: TDI carries the old bit, the sample of the same pulse replaces
it, no other bit changes, and the index advances by one. That the sample is the level before the rising edge is the spec's
decision (D17), that `cur_state` follows every pulse D7; the latch that holds the sample is log entry 7. -/
def Obligations.ShiftStep : Prop :=
  ∀ s : State, s.eng = .shift → s.bitIndex.toNat < s.chainLength.toNat →
    s.chainLength.toNat ≤ 8192 → betweenPulses s = true → pinsDriven s → s.tck = false →
    let i := s.bitIndex.toNat
    let v := if i = s.chainLength.toNat - 1 then s.endTms else s.scanTms
    risingEdges (pulseTicks s) s = [{ tms := v, tdi := readBit s i }] ∧
    ∃ t, idleTicks (pulseTicks s) s = .next t ∧
      readBit t i = tdoLevel s ∧
      (∀ j, j ≠ i → readBit t j = readBit s j) ∧
      t.bitIndex = s.bitIndex + 1 ∧
      t.curState = tapNext s.curState v ∧
      t = { s with
        bitIndex := t.bitIndex, curState := t.curState, buf := t.buf
        tdoSample := tdoLevel s, tms := t.tms, tdi := t.tdi, busAck := false
        dut := t.dut, dutTap := tapNext s.dutTap v, draws := t.draws }

/-- R112, the second half: the step that leaves SHIFT. -/
def Obligations.ShiftExit : Prop :=
  ∀ s : State, s.eng = .shift → s.bitIndex = s.chainLength → betweenPulses s = true →
    idleTick s = .next { s with
      target := s.endState, eng := .gotoState, busAck := false
      tms := if s.curState = s.endState then s.tms else route s.curState s.endState }

/-- R118, R119: a pulse of TAP_RESET, and the step that leaves it. -/
def Obligations.TapResetSteps : Prop :=
  ∀ s : State, s.eng = .tapReset → betweenPulses s = true →
    (s.resetCount < 5 → pinsDriven s → s.tck = false →
      risingEdges (pulseTicks s) s = [{ tms := true, tdi := s.tdi }] ∧
      ∃ t, idleTicks (pulseTicks s) s = .next t ∧
        t = { s with
          resetCount := s.resetCount + 1, curState := tapNext s.curState true, busAck := false
          dut := t.dut, dutTap := tapNext s.dutTap true }) ∧
    (s.resetCount = 5 →
      idleTick s = .next { s with curState := .testLogicReset, eng := .done, busAck := false })

/-- R114: GOTO_STATE is left, without a pulse, when `cur_state = target`; busy falls. -/
def Obligations.GotoStateExit : Prop :=
  ∀ s : State, s.eng = .gotoState → s.curState = s.target →
    idleTick s = .next { s with eng := .done, busAck := false } ∧
    isBusy s = true ∧ isBusy { s with eng := .done, busAck := false } = false

/-- R121: the step of DONE; and that no trigger is accepted there, whatever GO is (R101, the spec's decision D9). -/
def Obligations.DoneStep : Prop :=
  ∀ s : State, s.eng = .done →
    (s.go = false → idleTick s = .next { s with eng := .idle, busAck := false }) ∧
    (s.go = true → idleTick s = .next { s with busAck := false }) ∧
    (∀ (d : Data) (t : State), exec (.wrControl d) s = .next t → t.pending = s.pending)

/-! ## The commands -/

/-- R105, R64, R71: a trigger with NONE or a reserved code starts nothing: no pulse, busy stays 0 and `pending` stays as it
is. The treatment is the spec's decision (D10, U3). -/
def Obligations.NoCommandEffect : Prop :=
  ∀ s : State, s.eng = .idle →
    (s.command = 0#3 → exec .cmdNone s = .next { s with busAck := false }) ∧
    (s.command = 4#3 → exec .cmdReserved4 s = .next { s with busAck := false }) ∧
    (s.command = 5#3 → exec .cmdReserved5 s = .next { s with busAck := false }) ∧
    (s.command = 6#3 → exec .cmdReserved6 s = .next { s with busAck := false }) ∧
    (s.command = 7#3 → exec .cmdReserved7 s = .next { s with busAck := false })

/-- R105, R141: a trigger left pending by such a code starts the command of a later write of COMMAND, without another edge
of GO. (D10.) -/
def Obligations.PendingStartsLaterCommand : Prop :=
  ∀ (s : State) (d : Data), s.eng = .idle → s.pending = true → selectsCommand s.command = false →
    s.busAck = false →
    ∃ u t, exec (.wrCommand d) s = .next u ∧ idleTick u = .next t ∧
      (BitVec.ofNat 3 d = 1#3 → t.eng = .preShift ∧ t.pending = false) ∧
      (BitVec.ofNat 3 d = 2#3 → t.eng = .tapReset ∧ t.pending = false) ∧
      (BitVec.ofNat 3 d = 3#3 → t.eng = .gotoState ∧ t.pending = false) ∧
      (selectsCommand (BitVec.ofNat 3 d) = false → t.eng = .idle ∧ t.pending = true)

/-- Without a trigger pending in IDLE no command starts (R101, R102). That the meaning of a command row is then the engine's
own tick is the model's grouping (log entry 11). -/
def Obligations.CommandNeedsTrigger : Prop :=
  ∀ s : State, triggered s = false →
    exec .cmdScan s = idleTick s ∧ exec .cmdReset s = idleTick s ∧ exec .cmdState s = idleTick s

/-- R117: RESET, from whatever `cur_state` and whatever the TAP of the device under test is in: exactly five pulses with
TMS = 1, TDI held; then both are TEST_LOGIC_RESET (R193), TMS is 1, and nothing else has changed. -/
def Obligations.ResetCommandEffect : Prop :=
  ∀ s : State, triggered s = true → betweenPulses s = true → s.tck = false →
    (s.command = 2#3 →
      risingEdges (resetTicks s) s = List.replicate 5 { tms := true, tdi := s.tdi }) ∧
    ∃ t, exec .cmdReset s = .next t ∧
      t = { s with
        eng := .done, pending := false, resetCount := 5, curState := .testLogicReset
        tms := true, busAck := false, dut := t.dut, dutTap := .testLogicReset }

/-- R113, R124: STATE: the pulses of the shortest path from `cur_state` to END_STATE, TDI held, and nothing else changed;
none when the TAP is there already. -/
def Obligations.StateCommandEffect : Prop :=
  ∀ s : State, triggered s = true → betweenPulses s = true → s.tck = false →
    (s.command = 3#3 →
      risingEdges (stateTicks s) s =
        (path s.curState s.endState).map fun v => { tms := v, tdi := s.tdi }) ∧
    ∃ t, exec .cmdState s = .next t ∧
      t = { s with
        eng := .done, pending := false, target := s.endState, curState := s.endState
        tms := tmsAfter s.tms (path s.curState s.endState), busAck := false
        dut := t.dut, dutTap := tapRun s.dutTap (path s.curState s.endState) }

/-- R106, R123, R115: SCAN: what it leaves in every register, and its frame. -/
def Obligations.ScanCommandEffect : Prop :=
  ∀ s : State, triggered s = true → betweenPulses s = true → s.tck = false →
    isStable s.scanState = true → s.chainLength.toNat ≤ 8192 →
    ∃ t, exec .cmdScan s = .next t ∧
      (∀ i, s.chainLength.toNat ≤ i → readBit t i = readBit s i) ∧
      t = { s with
        eng := .done, pending := false, target := s.endState, curState := s.endState
        bitIndex := s.chainLength
        scanTms := route s.scanState s.scanState, endTms := route s.scanState s.endState
        tms := tmsAfter s.tms ((scanEdges s).map (·.tms)), tdi := tdiAfterScan s
        tdoSample := t.tdoSample, busAck := false, buf := t.buf
        dut := t.dut, dutTap := tapRun s.dutTap ((scanEdges s).map (·.tms)), draws := t.draws }

/-- R123, R104, R111, R126: the pulses of a SCAN, one by one. -/
def Obligations.ScanCommandPulses : Prop :=
  ∀ s : State, triggered s = true → s.command = 1#3 → betweenPulses s = true → s.tck = false →
    isStable s.scanState = true → s.chainLength.toNat ≤ 8192 →
    risingEdges (scanTicks s) s = scanEdges s

/-- R123, R33, R43: the captured vector: buffer bit i becomes sample i, whatever the samples are (scripted ones and then free
values: log entry 9); the identity-loopback device returns the vector unchanged (§8 of the document). -/
def Obligations.ScanCommandCaptures : Prop :=
  ∀ s t : State, triggered s = true → betweenPulses s = true → s.tck = false →
    exec .cmdScan s = .next t →
    (∀ l, s.dut = .samples l → ∀ i, i < s.chainLength.toNat →
      readBit t i = (l[i]?).getD (Config.tdoLevel (s.draws + (i - l.length)))) ∧
    (s.dut = .loopback → ∀ i, readBit t i = readBit s i)

/-- V9 of 95_test_vectors.md, R156: against a device that echoes TDI with a latency of n pulses, sample i is TDI bit i - n,
and the first n samples are what its register held. -/
def Obligations.LatencyEcho : Prop :=
  ∀ (s t : State) (bits : List Bool), triggered s = true → betweenPulses s = true → s.tck = false →
    s.dut = .register bits → s.curState = .runTestIdle → s.dutTap = .runTestIdle →
    s.scanState = .shiftDr ∨ s.scanState = .shiftIr →
    exec .cmdScan s = .next t →
    ∀ i, i < s.chainLength.toNat →
      readBit t i = (bits[i]?).getD (readBit s (i - bits.length))

/-- R116, U5, U6: the two inputs of SCAN that are refused. (D21, D22.) -/
def Obligations.ScanCommandRefusals : Prop :=
  ∀ s : State, triggered s = true → betweenPulses s = true → s.tck = false →
    (isStable s.scanState = false → exec .cmdScan s = .refused .scanStateNotStable) ∧
    (isStable s.scanState = true → 8192 < s.chainLength.toNat →
      exec .cmdScan s = .refused .chainLengthExceedsBuffer)

/-- R203, R18, R103: how long each command takes, counted in ticks without a bus access: the command's meaning is exactly
those ticks, and busy is 1 from the tick after the dispatch to the last before DONE. The counts follow from the spec's
schedule (D17). -/
def Obligations.CommandDurations : Prop :=
  ∀ s : State, triggered s = true → betweenPulses s = true → s.tck = false →
    (s.command = 2#3 →
      exec .cmdReset s = idleTicks (resetTicks s) s ∧
      ∀ n u, 0 < n → n < resetTicks s → idleTicks n s = .next u → isBusy u = true) ∧
    (s.command = 3#3 →
      exec .cmdState s = idleTicks (stateTicks s) s ∧
      ∀ n u, 0 < n → n < stateTicks s → idleTicks n s = .next u → isBusy u = true) ∧
    (s.command = 1#3 → isStable s.scanState = true → s.chainLength.toNat ≤ 8192 →
      exec .cmdScan s = idleTicks (scanTicks s) s ∧
      ∀ n u, 0 < n → n < scanTicks s → idleTicks n s = .next u → isBusy u = true)

/-! ## The handshake -/

/-- R197, R103, U8: after a trigger, the first status read the bus allows returns 1. -/
def Obligations.FirstPollSeesBusy : Prop :=
  ∀ (s : State) (d : Data), s.eng = .idle → s.pending = false → s.go = false → s.busAck = false →
    selectsCommand s.command = true → d.testBit 0 = true →
    ∃ u v w, exec (.wrControl d) s = .next u ∧ idleTick u = .next v ∧ exec .rdStatus v = .next w ∧
      isBusy u = false ∧ w.busAck = true ∧ w.busRdata = 1

/-- R198, R199, R205: after the write that lowers GO in DONE the engine is in IDLE before the next access can take effect,
and a trigger is accepted again. -/
def Obligations.LoweredGoFreesEngine : Prop :=
  ∀ (s : State) (d e : Data), s.eng = .done → s.pending = false → s.busAck = false →
    d.testBit 0 = false → e.testBit 0 = true →
    ∃ u v w, exec (.wrControl d) s = .next u ∧ idleTick u = .next v ∧ exec (.wrControl e) v = .next w ∧
      v.eng = .idle ∧ w.pending = true ∧ w.go = true

/-! ## The host session -/

/-- R161: `MW` is the bus write its address selects, then its acknowledge tick, in every state; a host that finds the
access before still being acknowledged waits for it (log entry 19). It completes whenever no command is in flight. -/
def Obligations.MwIsOneBusWrite : Prop :=
  ∀ (s : State) (addr : Addr) (d : Data) (r : Reg),
    decodeOffset s.params (addr - s.params.engineBase) = some r →
    (s.busAck = true → exec (.mw addr d) s = andThen (idleTick s) (exec (.mw addr d))) ∧
    (s.busAck = false →
      exec (.mw addr d) s =
        andThen (exec (decodeBus s.params { we := true, addr := addr, wdata := d }) s) fun u =>
        andThen (idleTick u) fun t => .next { t with reply := .ok }) ∧
    (commandInFlight s = false →
      ∃ t, exec (.mw addr d) s = .next t ∧ t.reply = .ok ∧ t.busAck = false)

/-- R161, R160: `MR` is the bus read its address selects, then its acknowledge tick, and replies with the value read, in
every state; a host that finds the access before still being acknowledged waits for it (log entry 19). With no command in
flight it completes and replies with the register's value. The reply's text is the value in hexadecimal, at least one
digit, all of one case, then a separator, then the literal `OK` and the end of the line; the case, the width and the
separator are free values (N13, log entry 16). -/
def Obligations.MrIsOneBusRead : Prop :=
  (∀ v : Data, ∃ ds : List Nibble, ds ≠ [] ∧ hexValue 0 ds = v ∧
    (replyText (.value v) = ds.map hexChar ++ Config.mrSeparator v ++ [0x4F#8, 0x4B#8, 0x0D#8, 0x0A#8] ∨
      replyText (.value v) =
        ds.map lowerHexChar ++ Config.mrSeparator v ++ [0x4F#8, 0x4B#8, 0x0D#8, 0x0A#8])) ∧
  ∀ (s : State) (addr : Addr) (r : Reg),
    decodeOffset s.params (addr - s.params.engineBase) = some r →
    (s.busAck = true → exec (.mr addr) s = andThen (idleTick s) (exec (.mr addr))) ∧
    (s.busAck = false →
      exec (.mr addr) s =
        andThen (exec (decodeBus s.params { we := false, addr := addr, wdata := 0 }) s) fun u =>
        andThen (idleTick u) fun t => .next { t with reply := .value u.busRdata }) ∧
    (s.busAck = false → commandInFlight s = false →
      ∃ t, exec (.mr addr) s = .next t ∧ t.reply = .value (regRead r s) ∧ t.busAck = false)

/-- R160: `STARTSIM`, `STOPSIM` and `EXIT` do not touch the block; the literal parts of the replies. -/
def Obligations.SessionLinesLeaveBlock : Prop :=
  ∀ (s : State) (board : List Byte),
    exec (.startsim board) s = .next { s with reply := .ok } ∧
    exec .stopsim s = .next { s with reply := .statusLine s.draws, draws := s.draws + 1 } ∧
    exec .exit s = .next { s with reply := .goodbye } ∧
    replyText .ok = [0x4F#8, 0x4B#8, 0x0D#8, 0x0A#8] ∧
    replyText .goodbye =
      [0x47#8, 0x6F#8, 0x6F#8, 0x64#8, 0x62#8, 0x79#8, 0x65#8, 0x0D#8, 0x0A#8]

/-! ## The driver -/

/-- R150 to R155, R126: scan_ir and scan_dr, whatever the device: they complete, answer the vector's bytes as they are
afterwards, the last first, two uppercase hexadecimal characters each, cut to the last `ceil(count / 4)` (R155), leave the
TAP in RUN_TEST_IDLE and the engine in IDLE, and change nothing but what their SCAN and their accesses change. -/
def Obligations.ScanDriverEffect : Prop :=
  ∀ (s : State) (count : Nat) (tdi : List Nibble), s.eng = .idle → s.pending = false →
    s.go = false → betweenPulses s = true → s.tck = false →
    1 ≤ count → count ≤ 8192 → (tdi.length + 1) / 2 = nbytes count →
    (∃ t, exec (.scanIr count tdi) s = .next t ∧
      t.reply = .vector (((List.range (nbytes count)).reverse.flatMap fun k =>
        [hexChar ((readByte t k).extractLsb' 4 4), hexChar ((readByte t k).extractLsb' 0 4)]).drop
          (2 * nbytes count - (count + 3) / 4)) ∧
      (∀ k, nbytes count ≤ k → readByte t k = readByte s k) ∧
      t = { s with
        buf := t.buf, scanState := .shiftIr, endState := .runTestIdle
        chainLength := BitVec.ofNat 16 count, command := 1#3, curState := .runTestIdle
        target := .runTestIdle, bitIndex := BitVec.ofNat 16 count, scanTms := false, endTms := true
        tms := t.tms, tdi := t.tdi, tdoSample := t.tdoSample, busAck := false, busRdata := t.busRdata
        dut := t.dut, dutTap := t.dutTap, reply := t.reply, draws := t.draws }) ∧
    (∃ t, exec (.scanDr count tdi) s = .next t ∧
      t.reply = .vector (((List.range (nbytes count)).reverse.flatMap fun k =>
        [hexChar ((readByte t k).extractLsb' 4 4), hexChar ((readByte t k).extractLsb' 0 4)]).drop
          (2 * nbytes count - (count + 3) / 4)) ∧
      (∀ k, nbytes count ≤ k → readByte t k = readByte s k) ∧
      t = { s with
        buf := t.buf, scanState := .shiftDr, endState := .runTestIdle
        chainLength := BitVec.ofNat 16 count, command := 1#3, curState := .runTestIdle
        target := .runTestIdle, bitIndex := BitVec.ofNat 16 count, scanTms := false, endTms := true
        tms := t.tms, tdi := t.tdi, tdoSample := t.tdoSample, busAck := false, busRdata := t.busRdata
        dut := t.dut, dutTap := t.dutTap, reply := t.reply, draws := t.draws })

/-- R150 to R156: scan_ir and scan_dr on an identity-loopback device return the digits they were given, as uppercase
characters, as many as `ceil(count / 4)` (R155), from any `cur_state`. -/
def Obligations.ScanDriverLoopback : Prop :=
  ∀ (s t : State) (count : Nat) (tdi : List Nibble), s.eng = .idle → s.pending = false →
    s.go = false → betweenPulses s = true → s.tck = false → s.dut = .loopback →
    exec (.scanIr count tdi) s = .next t ∨ exec (.scanDr count tdi) s = .next t →
    t.reply = .vector (((padDigits tdi).drop ((padDigits tdi).length - (count + 3) / 4)).map hexChar)

/-- R150, R152, U19: outside their preconditions scan_ir and scan_dr are refused before any access. (D28.) -/
def Obligations.ScanDriverPreconditions : Prop :=
  ∀ (s : State) (count : Nat) (tdi : List Nibble),
    ¬(1 ≤ count ∧ count ≤ 8192 ∧ (tdi.length + 1) / 2 = nbytes count) →
    exec (.scanIr count tdi) s = .refused .driverPrecondition ∧
    exec (.scanDr count tdi) s = .refused .driverPrecondition

/-- R157, R126: runtest, whatever the device: it shifts exactly `ticks` bits (it consumes that many samples of `tdo`),
leaves the TAP in RUN_TEST_IDLE, touches no buffer byte beyond the first 1024 bits and no other state but what its SCANs
change; runtest(0) does nothing. -/
def Obligations.RuntestEffect : Prop :=
  ∀ (s : State) (ticks : Nat), s.eng = .idle → s.pending = false →
    s.go = false → betweenPulses s = true → s.tck = false →
    ∃ t, exec (.runtest ticks) s = .next t ∧
      (∀ l, s.dut = .samples l →
        t.dut = .samples (l.drop ticks) ∧ t.draws = s.draws + (ticks - l.length)) ∧
      (∀ k, 128 ≤ k → readByte t k = readByte s k) ∧
      (ticks = 0 → t = { s with reply := .returned }) ∧
      (0 < ticks → t = { s with
        buf := t.buf, scanState := .runTestIdle, endState := .runTestIdle
        chainLength := BitVec.ofNat 16 (if ticks % 1024 = 0 then 1024 else ticks % 1024)
        bitIndex := BitVec.ofNat 16 (if ticks % 1024 = 0 then 1024 else ticks % 1024)
        command := 1#3, curState := .runTestIdle, target := .runTestIdle, scanTms := false
        endTms := false, tms := t.tms, tdi := t.tdi, tdoSample := t.tdoSample, busAck := false
        busRdata := t.busRdata, dut := t.dut, dutTap := t.dutTap, reply := .returned, draws := t.draws })

/-! ## Reset -/

/-- R32, R191, R21: the machine right after reset. Everything but `eng = IDLE` is the spec's decision (D16, D17, D19). -/
def Obligations.ResetValues : Prop :=
  let s := State.reset
  s.eng = .idle ∧ isBusy s = false ∧ s.pending = false ∧ s.go = false ∧ s.command = 0#3 ∧
  s.scanState = .testLogicReset ∧ s.endState = .testLogicReset ∧ s.chainLength = 0#16 ∧
  s.curState = .testLogicReset ∧ s.target = .testLogicReset ∧ s.bitIndex = 0#16 ∧
  s.scanTms = false ∧ s.endTms = false ∧ s.resetCount = 0 ∧
  s.tck = false ∧ s.tms = false ∧ s.tdi = false ∧ s.halfCount = 0 ∧ s.tckHalf = .low

/-- R190, R191, R192: one tick with `rst` = 1, with or without a request: the state elements of R32 have their values, no
command is in flight, and nothing moves the TAP of the device under test. The rest is the model's choice: the buffer holds
new free values (log entry 6); the sample latch is 0 (log entry 7); `bus_rdata` keeps its value (log entry 3), and so do the
inputs, the parameters, the rest of the device and the host's side (log entries 8, 9, 10 and 12); the dropped request may stand in the
tick of an acknowledge, and leaves the bus free in the next tick (log entry 24). -/
def Obligations.ResetTick : Prop :=
  ∀ (s : State) (r : Option BusRequest) (rest : List Stimulus), s.script = .reset r :: rest →
    ∃ t, step s = .next t ∧
      t = { State.reset with
        busRdata := s.busRdata, clockDivider := s.clockDivider, params := s.params, script := rest
        dut := s.dut, dutTap := s.dutTap, reply := s.reply, draws := s.draws
        bufEpoch := s.bufEpoch + 1 } ∧
      ∀ k, readByte t k = Config.unwrittenByte (s.bufEpoch + 1) k

/-! ## Invariants -/

/-- The invariant holds after reset. -/
def Obligations.ResetHasInv : Prop := Inv State.reset

/-- The invariant of Safety.lean (R6, R13, R23, R24, R26, R27, R28, R29, R109, R110, R125, R146, R202) is kept by every step,
whatever the host does. -/
def Obligations.StepKeepsInv : Prop :=
  ∀ s t : State, Inv s → step s = .next t → Inv t

/-- R193: `cur_state` equals the TAP state of the device under test, once it does, through every step but a reset of the
block. -/
def Obligations.StepKeepsDutInSync : Prop :=
  ∀ s t : State, Inv s → DutInSync s → (∀ r rest, s.script ≠ .reset r :: rest) →
    step s = .next t → DutInSync t

/-- R6, R27: no step changes the open parameters, and only a change of the input itself changes `clock_divider`. -/
def Obligations.StepKeepsParameters : Prop :=
  ∀ s t : State, step s = .next t →
    t.params = s.params ∧
    ((∀ d rest, s.script ≠ .divider d :: rest) → t.clockDivider = s.clockDivider)

/-- R122: every command terminates, and so does every poll: from a state that meets the invariant no step runs into the
model's bounds. -/
def Obligations.StepNeverFaults : Prop :=
  ∀ (s : State) (f : Fault), Inv s → step s ≠ .fault f

/-- R20, R10, R145: `cur_state` and busy are read-only to the host: in IDLE or DONE, with no command dispatched, no bus
access changes `cur_state`, a pin, or the sequencer but for the step out of DONE. -/
def Obligations.HostCannotMoveTap : Prop :=
  ∀ (s t : State) (r : BusRequest), isBusy s = false → dispatching s = false →
    exec (decodeBus s.params r) s = .next t →
    t.curState = s.curState ∧ t.tck = s.tck ∧ t.tms = s.tms ∧ t.tdi = s.tdi ∧
    t.dutTap = s.dutTap ∧ t.dut = s.dut ∧ t.bitIndex = s.bitIndex ∧ t.target = s.target ∧
    (t.eng = s.eng ∨ (s.eng = .done ∧ s.go = false ∧ t.eng = .idle))

/-! ## Encoding and the step -/

/-- R63, R64, R67, R160, R161, R150, R157: decoding the encoding of a well-formed instruction gives it back. -/
def Obligations.DecodeEncode : Prop :=
  ∀ (p : Params) (i : Instr), i.wellFormed p = true → decode p (encode p i) = .ok i

/-- R67, R60: a bus request has one meaning: encoding what a write decodes to gives the request back, with the DW bits its
data port carries. -/
def Obligations.EncodeDecodeBusWrite : Prop :=
  ∀ (p : Params) (r : BusRequest), r.we = true →
    encode p (decodeBus p r) = .bus { r with wdata := r.wdata % 2 ^ p.dataWidth } ∧
    (r.wdata < 2 ^ p.dataWidth → encode p (decodeBus p r) = .bus r)

/-- R63, R64, R67: words written out from the encodings of the spec, in the numbering of opcode_table.json. -/
def Obligations.TableWords : Prop :=
  decodeTableWord 8 0b001 = some .cmdScan ∧ decodeTableWord 8 0b010 = some .cmdReset ∧
  decodeTableWord 8 0b011 = some .cmdState ∧ decodeTableWord 8 0b111 = some .cmdReserved7 ∧
  decodeTableWord 16 0b001111111111 = some (.rdBuf 0x3FF#10) ∧
  decodeTableWord 16 0b100000000101 = some (.wrBuf 5#10 0) ∧
  decodeTableWord 16 0b010000000100 = some .rdStatus ∧
  decodeTableWord 16 0b110000000011 = some (.wrControl 0) ∧
  decodeTableWord 16 0b010000000110 = some .rdCurState ∧
  decodeTableWord 16 0b010000000111 = some (.outOfRange false 0x407#32 0)

/-- R11, R102, R160: a step runs the instruction the host's next act decodes to, after taking it from the script (log entry
9); with the host silent, the command a pending trigger starts (log entry 11), and otherwise one tick. A rejected line or
call is refused by name (log entry 23). A change of `clock_divider` stores DIVW bits of the new value with busy = 0 and is
refused with busy = 1 (R27, U17, log entry 8). -/
def Obligations.StepRunsDecoded : Prop :=
  ∀ (s : State) (rest : List Stimulus) (i : Instr),
    (∀ r, s.script = .request r :: rest → decode s.params (.bus r) = .ok i →
      step s = exec i { s with script := rest }) ∧
    (∀ text, s.script = .line text :: rest → decode s.params (.line text) = .ok i →
      step s = exec i { s with script := rest }) ∧
    (∀ text e, s.script = .line text :: rest → decode s.params (.line text) = .error e →
      step s = .refused (.undecodable e)) ∧
    (∀ op count arg, s.script = .call op count arg :: rest →
      decode s.params (.call op count arg) = .ok i → step s = exec i { s with script := rest }) ∧
    (∀ op count arg e, s.script = .call op count arg :: rest →
      decode s.params (.call op count arg) = .error e → step s = .refused (.undecodable e)) ∧
    (s.script = [] → triggered s = true → decode s.params (.command s.command) = .ok i →
      step s = exec i s) ∧
    (s.script = [] → triggered s = false → step s = idleTick s) ∧
    (s.script = .idle :: rest → step s = idleTick { s with script := rest }) ∧
    (∀ d, s.script = .divider d :: rest →
      (isBusy s = true → step s = .refused .dividerDuringCommand) ∧
      (isBusy s = false → s.params.dividerWidth = none →
        step s = .next { s with script := rest, clockDivider := d }) ∧
      (∀ w, isBusy s = false → s.params.dividerWidth = some w →
        step s = .next { s with script := rest, clockDivider := d % 2 ^ w }))
end

