-- ==== Sys2Proof/Laws/State.lean ====
section
/-! SUPPORT. One lemma per field per update of State: what each named update leaves in each field. No later proof unfolds
a record update. -/

namespace Sys2Proof.Machine

/-! ### `writeByte` -/

@[simp] theorem writeByte_buf (s : State) (k : Nat) (v : Byte) : (writeByte s k v).buf = Memory.store s.buf k v := rfl
@[simp] theorem writeByte_scanState (s : State) (k : Nat) (v : Byte) : (writeByte s k v).scanState = s.scanState := rfl
@[simp] theorem writeByte_endState (s : State) (k : Nat) (v : Byte) : (writeByte s k v).endState = s.endState := rfl
@[simp] theorem writeByte_chainLength (s : State) (k : Nat) (v : Byte) : (writeByte s k v).chainLength = s.chainLength := rfl
@[simp] theorem writeByte_go (s : State) (k : Nat) (v : Byte) : (writeByte s k v).go = s.go := rfl
@[simp] theorem writeByte_command (s : State) (k : Nat) (v : Byte) : (writeByte s k v).command = s.command := rfl
@[simp] theorem writeByte_curState (s : State) (k : Nat) (v : Byte) : (writeByte s k v).curState = s.curState := rfl
@[simp] theorem writeByte_eng (s : State) (k : Nat) (v : Byte) : (writeByte s k v).eng = s.eng := rfl
@[simp] theorem writeByte_bitIndex (s : State) (k : Nat) (v : Byte) : (writeByte s k v).bitIndex = s.bitIndex := rfl
@[simp] theorem writeByte_pending (s : State) (k : Nat) (v : Byte) : (writeByte s k v).pending = s.pending := rfl
@[simp] theorem writeByte_target (s : State) (k : Nat) (v : Byte) : (writeByte s k v).target = s.target := rfl
@[simp] theorem writeByte_scanTms (s : State) (k : Nat) (v : Byte) : (writeByte s k v).scanTms = s.scanTms := rfl
@[simp] theorem writeByte_endTms (s : State) (k : Nat) (v : Byte) : (writeByte s k v).endTms = s.endTms := rfl
@[simp] theorem writeByte_resetCount (s : State) (k : Nat) (v : Byte) : (writeByte s k v).resetCount = s.resetCount := rfl
@[simp] theorem writeByte_tck (s : State) (k : Nat) (v : Byte) : (writeByte s k v).tck = s.tck := rfl
@[simp] theorem writeByte_tms (s : State) (k : Nat) (v : Byte) : (writeByte s k v).tms = s.tms := rfl
@[simp] theorem writeByte_tdi (s : State) (k : Nat) (v : Byte) : (writeByte s k v).tdi = s.tdi := rfl
@[simp] theorem writeByte_tckHalf (s : State) (k : Nat) (v : Byte) : (writeByte s k v).tckHalf = s.tckHalf := rfl
@[simp] theorem writeByte_halfCount (s : State) (k : Nat) (v : Byte) : (writeByte s k v).halfCount = s.halfCount := rfl
@[simp] theorem writeByte_tdoSample (s : State) (k : Nat) (v : Byte) : (writeByte s k v).tdoSample = s.tdoSample := rfl
@[simp] theorem writeByte_busAck (s : State) (k : Nat) (v : Byte) : (writeByte s k v).busAck = s.busAck := rfl
@[simp] theorem writeByte_busRdata (s : State) (k : Nat) (v : Byte) : (writeByte s k v).busRdata = s.busRdata := rfl
@[simp] theorem writeByte_clockDivider (s : State) (k : Nat) (v : Byte) : (writeByte s k v).clockDivider = s.clockDivider := rfl
@[simp] theorem writeByte_params (s : State) (k : Nat) (v : Byte) : (writeByte s k v).params = s.params := rfl
@[simp] theorem writeByte_script (s : State) (k : Nat) (v : Byte) : (writeByte s k v).script = s.script := rfl
@[simp] theorem writeByte_dut (s : State) (k : Nat) (v : Byte) : (writeByte s k v).dut = s.dut := rfl
@[simp] theorem writeByte_dutTap (s : State) (k : Nat) (v : Byte) : (writeByte s k v).dutTap = s.dutTap := rfl
@[simp] theorem writeByte_reply (s : State) (k : Nat) (v : Byte) : (writeByte s k v).reply = s.reply := rfl
@[simp] theorem writeByte_draws (s : State) (k : Nat) (v : Byte) : (writeByte s k v).draws = s.draws := rfl
@[simp] theorem writeByte_bufEpoch (s : State) (k : Nat) (v : Byte) : (writeByte s k v).bufEpoch = s.bufEpoch := rfl

/-! ### `writeBit` -/

@[simp] theorem writeBit_buf (s : State) (i : Nat) (b : Bool) : (writeBit s i b).buf = Memory.store s.buf (i / 8) (setBit (readByte s (i / 8)) (i % 8) b) := rfl
@[simp] theorem writeBit_scanState (s : State) (i : Nat) (b : Bool) : (writeBit s i b).scanState = s.scanState := rfl
@[simp] theorem writeBit_endState (s : State) (i : Nat) (b : Bool) : (writeBit s i b).endState = s.endState := rfl
@[simp] theorem writeBit_chainLength (s : State) (i : Nat) (b : Bool) : (writeBit s i b).chainLength = s.chainLength := rfl
@[simp] theorem writeBit_go (s : State) (i : Nat) (b : Bool) : (writeBit s i b).go = s.go := rfl
@[simp] theorem writeBit_command (s : State) (i : Nat) (b : Bool) : (writeBit s i b).command = s.command := rfl
@[simp] theorem writeBit_curState (s : State) (i : Nat) (b : Bool) : (writeBit s i b).curState = s.curState := rfl
@[simp] theorem writeBit_eng (s : State) (i : Nat) (b : Bool) : (writeBit s i b).eng = s.eng := rfl
@[simp] theorem writeBit_bitIndex (s : State) (i : Nat) (b : Bool) : (writeBit s i b).bitIndex = s.bitIndex := rfl
@[simp] theorem writeBit_pending (s : State) (i : Nat) (b : Bool) : (writeBit s i b).pending = s.pending := rfl
@[simp] theorem writeBit_target (s : State) (i : Nat) (b : Bool) : (writeBit s i b).target = s.target := rfl
@[simp] theorem writeBit_scanTms (s : State) (i : Nat) (b : Bool) : (writeBit s i b).scanTms = s.scanTms := rfl
@[simp] theorem writeBit_endTms (s : State) (i : Nat) (b : Bool) : (writeBit s i b).endTms = s.endTms := rfl
@[simp] theorem writeBit_resetCount (s : State) (i : Nat) (b : Bool) : (writeBit s i b).resetCount = s.resetCount := rfl
@[simp] theorem writeBit_tck (s : State) (i : Nat) (b : Bool) : (writeBit s i b).tck = s.tck := rfl
@[simp] theorem writeBit_tms (s : State) (i : Nat) (b : Bool) : (writeBit s i b).tms = s.tms := rfl
@[simp] theorem writeBit_tdi (s : State) (i : Nat) (b : Bool) : (writeBit s i b).tdi = s.tdi := rfl
@[simp] theorem writeBit_tckHalf (s : State) (i : Nat) (b : Bool) : (writeBit s i b).tckHalf = s.tckHalf := rfl
@[simp] theorem writeBit_halfCount (s : State) (i : Nat) (b : Bool) : (writeBit s i b).halfCount = s.halfCount := rfl
@[simp] theorem writeBit_tdoSample (s : State) (i : Nat) (b : Bool) : (writeBit s i b).tdoSample = s.tdoSample := rfl
@[simp] theorem writeBit_busAck (s : State) (i : Nat) (b : Bool) : (writeBit s i b).busAck = s.busAck := rfl
@[simp] theorem writeBit_busRdata (s : State) (i : Nat) (b : Bool) : (writeBit s i b).busRdata = s.busRdata := rfl
@[simp] theorem writeBit_clockDivider (s : State) (i : Nat) (b : Bool) : (writeBit s i b).clockDivider = s.clockDivider := rfl
@[simp] theorem writeBit_params (s : State) (i : Nat) (b : Bool) : (writeBit s i b).params = s.params := rfl
@[simp] theorem writeBit_script (s : State) (i : Nat) (b : Bool) : (writeBit s i b).script = s.script := rfl
@[simp] theorem writeBit_dut (s : State) (i : Nat) (b : Bool) : (writeBit s i b).dut = s.dut := rfl
@[simp] theorem writeBit_dutTap (s : State) (i : Nat) (b : Bool) : (writeBit s i b).dutTap = s.dutTap := rfl
@[simp] theorem writeBit_reply (s : State) (i : Nat) (b : Bool) : (writeBit s i b).reply = s.reply := rfl
@[simp] theorem writeBit_draws (s : State) (i : Nat) (b : Bool) : (writeBit s i b).draws = s.draws := rfl
@[simp] theorem writeBit_bufEpoch (s : State) (i : Nat) (b : Bool) : (writeBit s i b).bufEpoch = s.bufEpoch := rfl

/-! ### `withAck` -/

@[simp] theorem withAck_buf (b : Bool) (s : State) : (withAck b s).buf = s.buf := rfl
@[simp] theorem withAck_scanState (b : Bool) (s : State) : (withAck b s).scanState = s.scanState := rfl
@[simp] theorem withAck_endState (b : Bool) (s : State) : (withAck b s).endState = s.endState := rfl
@[simp] theorem withAck_chainLength (b : Bool) (s : State) : (withAck b s).chainLength = s.chainLength := rfl
@[simp] theorem withAck_go (b : Bool) (s : State) : (withAck b s).go = s.go := rfl
@[simp] theorem withAck_command (b : Bool) (s : State) : (withAck b s).command = s.command := rfl
@[simp] theorem withAck_curState (b : Bool) (s : State) : (withAck b s).curState = s.curState := rfl
@[simp] theorem withAck_eng (b : Bool) (s : State) : (withAck b s).eng = s.eng := rfl
@[simp] theorem withAck_bitIndex (b : Bool) (s : State) : (withAck b s).bitIndex = s.bitIndex := rfl
@[simp] theorem withAck_pending (b : Bool) (s : State) : (withAck b s).pending = s.pending := rfl
@[simp] theorem withAck_target (b : Bool) (s : State) : (withAck b s).target = s.target := rfl
@[simp] theorem withAck_scanTms (b : Bool) (s : State) : (withAck b s).scanTms = s.scanTms := rfl
@[simp] theorem withAck_endTms (b : Bool) (s : State) : (withAck b s).endTms = s.endTms := rfl
@[simp] theorem withAck_resetCount (b : Bool) (s : State) : (withAck b s).resetCount = s.resetCount := rfl
@[simp] theorem withAck_tck (b : Bool) (s : State) : (withAck b s).tck = s.tck := rfl
@[simp] theorem withAck_tms (b : Bool) (s : State) : (withAck b s).tms = s.tms := rfl
@[simp] theorem withAck_tdi (b : Bool) (s : State) : (withAck b s).tdi = s.tdi := rfl
@[simp] theorem withAck_tckHalf (b : Bool) (s : State) : (withAck b s).tckHalf = s.tckHalf := rfl
@[simp] theorem withAck_halfCount (b : Bool) (s : State) : (withAck b s).halfCount = s.halfCount := rfl
@[simp] theorem withAck_tdoSample (b : Bool) (s : State) : (withAck b s).tdoSample = s.tdoSample := rfl
@[simp] theorem withAck_busAck (b : Bool) (s : State) : (withAck b s).busAck = b := rfl
@[simp] theorem withAck_busRdata (b : Bool) (s : State) : (withAck b s).busRdata = s.busRdata := rfl
@[simp] theorem withAck_clockDivider (b : Bool) (s : State) : (withAck b s).clockDivider = s.clockDivider := rfl
@[simp] theorem withAck_params (b : Bool) (s : State) : (withAck b s).params = s.params := rfl
@[simp] theorem withAck_script (b : Bool) (s : State) : (withAck b s).script = s.script := rfl
@[simp] theorem withAck_dut (b : Bool) (s : State) : (withAck b s).dut = s.dut := rfl
@[simp] theorem withAck_dutTap (b : Bool) (s : State) : (withAck b s).dutTap = s.dutTap := rfl
@[simp] theorem withAck_reply (b : Bool) (s : State) : (withAck b s).reply = s.reply := rfl
@[simp] theorem withAck_draws (b : Bool) (s : State) : (withAck b s).draws = s.draws := rfl
@[simp] theorem withAck_bufEpoch (b : Bool) (s : State) : (withAck b s).bufEpoch = s.bufEpoch := rfl

/-! ### `withHalfCount` -/

@[simp] theorem withHalfCount_buf (n : Nat) (s : State) : (withHalfCount n s).buf = s.buf := rfl
@[simp] theorem withHalfCount_scanState (n : Nat) (s : State) : (withHalfCount n s).scanState = s.scanState := rfl
@[simp] theorem withHalfCount_endState (n : Nat) (s : State) : (withHalfCount n s).endState = s.endState := rfl
@[simp] theorem withHalfCount_chainLength (n : Nat) (s : State) : (withHalfCount n s).chainLength = s.chainLength := rfl
@[simp] theorem withHalfCount_go (n : Nat) (s : State) : (withHalfCount n s).go = s.go := rfl
@[simp] theorem withHalfCount_command (n : Nat) (s : State) : (withHalfCount n s).command = s.command := rfl
@[simp] theorem withHalfCount_curState (n : Nat) (s : State) : (withHalfCount n s).curState = s.curState := rfl
@[simp] theorem withHalfCount_eng (n : Nat) (s : State) : (withHalfCount n s).eng = s.eng := rfl
@[simp] theorem withHalfCount_bitIndex (n : Nat) (s : State) : (withHalfCount n s).bitIndex = s.bitIndex := rfl
@[simp] theorem withHalfCount_pending (n : Nat) (s : State) : (withHalfCount n s).pending = s.pending := rfl
@[simp] theorem withHalfCount_target (n : Nat) (s : State) : (withHalfCount n s).target = s.target := rfl
@[simp] theorem withHalfCount_scanTms (n : Nat) (s : State) : (withHalfCount n s).scanTms = s.scanTms := rfl
@[simp] theorem withHalfCount_endTms (n : Nat) (s : State) : (withHalfCount n s).endTms = s.endTms := rfl
@[simp] theorem withHalfCount_resetCount (n : Nat) (s : State) : (withHalfCount n s).resetCount = s.resetCount := rfl
@[simp] theorem withHalfCount_tck (n : Nat) (s : State) : (withHalfCount n s).tck = s.tck := rfl
@[simp] theorem withHalfCount_tms (n : Nat) (s : State) : (withHalfCount n s).tms = s.tms := rfl
@[simp] theorem withHalfCount_tdi (n : Nat) (s : State) : (withHalfCount n s).tdi = s.tdi := rfl
@[simp] theorem withHalfCount_tckHalf (n : Nat) (s : State) : (withHalfCount n s).tckHalf = s.tckHalf := rfl
@[simp] theorem withHalfCount_halfCount (n : Nat) (s : State) : (withHalfCount n s).halfCount = n := rfl
@[simp] theorem withHalfCount_tdoSample (n : Nat) (s : State) : (withHalfCount n s).tdoSample = s.tdoSample := rfl
@[simp] theorem withHalfCount_busAck (n : Nat) (s : State) : (withHalfCount n s).busAck = s.busAck := rfl
@[simp] theorem withHalfCount_busRdata (n : Nat) (s : State) : (withHalfCount n s).busRdata = s.busRdata := rfl
@[simp] theorem withHalfCount_clockDivider (n : Nat) (s : State) : (withHalfCount n s).clockDivider = s.clockDivider := rfl
@[simp] theorem withHalfCount_params (n : Nat) (s : State) : (withHalfCount n s).params = s.params := rfl
@[simp] theorem withHalfCount_script (n : Nat) (s : State) : (withHalfCount n s).script = s.script := rfl
@[simp] theorem withHalfCount_dut (n : Nat) (s : State) : (withHalfCount n s).dut = s.dut := rfl
@[simp] theorem withHalfCount_dutTap (n : Nat) (s : State) : (withHalfCount n s).dutTap = s.dutTap := rfl
@[simp] theorem withHalfCount_reply (n : Nat) (s : State) : (withHalfCount n s).reply = s.reply := rfl
@[simp] theorem withHalfCount_draws (n : Nat) (s : State) : (withHalfCount n s).draws = s.draws := rfl
@[simp] theorem withHalfCount_bufEpoch (n : Nat) (s : State) : (withHalfCount n s).bufEpoch = s.bufEpoch := rfl

/-! ### `dispatchScan` -/

@[simp] theorem dispatchScan_buf (s : State) : (dispatchScan s).buf = s.buf := rfl
@[simp] theorem dispatchScan_scanState (s : State) : (dispatchScan s).scanState = s.scanState := rfl
@[simp] theorem dispatchScan_endState (s : State) : (dispatchScan s).endState = s.endState := rfl
@[simp] theorem dispatchScan_chainLength (s : State) : (dispatchScan s).chainLength = s.chainLength := rfl
@[simp] theorem dispatchScan_go (s : State) : (dispatchScan s).go = s.go := rfl
@[simp] theorem dispatchScan_command (s : State) : (dispatchScan s).command = s.command := rfl
@[simp] theorem dispatchScan_curState (s : State) : (dispatchScan s).curState = s.curState := rfl
@[simp] theorem dispatchScan_eng (s : State) : (dispatchScan s).eng = .preShift := rfl
@[simp] theorem dispatchScan_bitIndex (s : State) : (dispatchScan s).bitIndex = s.bitIndex := rfl
@[simp] theorem dispatchScan_pending (s : State) : (dispatchScan s).pending = false := rfl
@[simp] theorem dispatchScan_target (s : State) : (dispatchScan s).target = s.target := rfl
@[simp] theorem dispatchScan_scanTms (s : State) : (dispatchScan s).scanTms = s.scanTms := rfl
@[simp] theorem dispatchScan_endTms (s : State) : (dispatchScan s).endTms = s.endTms := rfl
@[simp] theorem dispatchScan_resetCount (s : State) : (dispatchScan s).resetCount = s.resetCount := rfl
@[simp] theorem dispatchScan_tck (s : State) : (dispatchScan s).tck = s.tck := rfl
@[simp] theorem dispatchScan_tms (s : State) : (dispatchScan s).tms = s.tms := rfl
@[simp] theorem dispatchScan_tdi (s : State) : (dispatchScan s).tdi = s.tdi := rfl
@[simp] theorem dispatchScan_tckHalf (s : State) : (dispatchScan s).tckHalf = s.tckHalf := rfl
@[simp] theorem dispatchScan_halfCount (s : State) : (dispatchScan s).halfCount = s.halfCount := rfl
@[simp] theorem dispatchScan_tdoSample (s : State) : (dispatchScan s).tdoSample = s.tdoSample := rfl
@[simp] theorem dispatchScan_busAck (s : State) : (dispatchScan s).busAck = s.busAck := rfl
@[simp] theorem dispatchScan_busRdata (s : State) : (dispatchScan s).busRdata = s.busRdata := rfl
@[simp] theorem dispatchScan_clockDivider (s : State) : (dispatchScan s).clockDivider = s.clockDivider := rfl
@[simp] theorem dispatchScan_params (s : State) : (dispatchScan s).params = s.params := rfl
@[simp] theorem dispatchScan_script (s : State) : (dispatchScan s).script = s.script := rfl
@[simp] theorem dispatchScan_dut (s : State) : (dispatchScan s).dut = s.dut := rfl
@[simp] theorem dispatchScan_dutTap (s : State) : (dispatchScan s).dutTap = s.dutTap := rfl
@[simp] theorem dispatchScan_reply (s : State) : (dispatchScan s).reply = s.reply := rfl
@[simp] theorem dispatchScan_draws (s : State) : (dispatchScan s).draws = s.draws := rfl
@[simp] theorem dispatchScan_bufEpoch (s : State) : (dispatchScan s).bufEpoch = s.bufEpoch := rfl

/-! ### `dispatchReset` -/

@[simp] theorem dispatchReset_buf (s : State) : (dispatchReset s).buf = s.buf := rfl
@[simp] theorem dispatchReset_scanState (s : State) : (dispatchReset s).scanState = s.scanState := rfl
@[simp] theorem dispatchReset_endState (s : State) : (dispatchReset s).endState = s.endState := rfl
@[simp] theorem dispatchReset_chainLength (s : State) : (dispatchReset s).chainLength = s.chainLength := rfl
@[simp] theorem dispatchReset_go (s : State) : (dispatchReset s).go = s.go := rfl
@[simp] theorem dispatchReset_command (s : State) : (dispatchReset s).command = s.command := rfl
@[simp] theorem dispatchReset_curState (s : State) : (dispatchReset s).curState = s.curState := rfl
@[simp] theorem dispatchReset_eng (s : State) : (dispatchReset s).eng = .tapReset := rfl
@[simp] theorem dispatchReset_bitIndex (s : State) : (dispatchReset s).bitIndex = s.bitIndex := rfl
@[simp] theorem dispatchReset_pending (s : State) : (dispatchReset s).pending = false := rfl
@[simp] theorem dispatchReset_target (s : State) : (dispatchReset s).target = s.target := rfl
@[simp] theorem dispatchReset_scanTms (s : State) : (dispatchReset s).scanTms = s.scanTms := rfl
@[simp] theorem dispatchReset_endTms (s : State) : (dispatchReset s).endTms = s.endTms := rfl
@[simp] theorem dispatchReset_resetCount (s : State) : (dispatchReset s).resetCount = 0 := rfl
@[simp] theorem dispatchReset_tck (s : State) : (dispatchReset s).tck = s.tck := rfl
@[simp] theorem dispatchReset_tms (s : State) : (dispatchReset s).tms = s.tms := rfl
@[simp] theorem dispatchReset_tdi (s : State) : (dispatchReset s).tdi = s.tdi := rfl
@[simp] theorem dispatchReset_tckHalf (s : State) : (dispatchReset s).tckHalf = s.tckHalf := rfl
@[simp] theorem dispatchReset_halfCount (s : State) : (dispatchReset s).halfCount = s.halfCount := rfl
@[simp] theorem dispatchReset_tdoSample (s : State) : (dispatchReset s).tdoSample = s.tdoSample := rfl
@[simp] theorem dispatchReset_busAck (s : State) : (dispatchReset s).busAck = s.busAck := rfl
@[simp] theorem dispatchReset_busRdata (s : State) : (dispatchReset s).busRdata = s.busRdata := rfl
@[simp] theorem dispatchReset_clockDivider (s : State) : (dispatchReset s).clockDivider = s.clockDivider := rfl
@[simp] theorem dispatchReset_params (s : State) : (dispatchReset s).params = s.params := rfl
@[simp] theorem dispatchReset_script (s : State) : (dispatchReset s).script = s.script := rfl
@[simp] theorem dispatchReset_dut (s : State) : (dispatchReset s).dut = s.dut := rfl
@[simp] theorem dispatchReset_dutTap (s : State) : (dispatchReset s).dutTap = s.dutTap := rfl
@[simp] theorem dispatchReset_reply (s : State) : (dispatchReset s).reply = s.reply := rfl
@[simp] theorem dispatchReset_draws (s : State) : (dispatchReset s).draws = s.draws := rfl
@[simp] theorem dispatchReset_bufEpoch (s : State) : (dispatchReset s).bufEpoch = s.bufEpoch := rfl

/-! ### `dispatchState` -/

@[simp] theorem dispatchState_buf (s : State) : (dispatchState s).buf = s.buf := rfl
@[simp] theorem dispatchState_scanState (s : State) : (dispatchState s).scanState = s.scanState := rfl
@[simp] theorem dispatchState_endState (s : State) : (dispatchState s).endState = s.endState := rfl
@[simp] theorem dispatchState_chainLength (s : State) : (dispatchState s).chainLength = s.chainLength := rfl
@[simp] theorem dispatchState_go (s : State) : (dispatchState s).go = s.go := rfl
@[simp] theorem dispatchState_command (s : State) : (dispatchState s).command = s.command := rfl
@[simp] theorem dispatchState_curState (s : State) : (dispatchState s).curState = s.curState := rfl
@[simp] theorem dispatchState_eng (s : State) : (dispatchState s).eng = .gotoState := rfl
@[simp] theorem dispatchState_bitIndex (s : State) : (dispatchState s).bitIndex = s.bitIndex := rfl
@[simp] theorem dispatchState_pending (s : State) : (dispatchState s).pending = false := rfl
@[simp] theorem dispatchState_target (s : State) : (dispatchState s).target = s.endState := rfl
@[simp] theorem dispatchState_scanTms (s : State) : (dispatchState s).scanTms = s.scanTms := rfl
@[simp] theorem dispatchState_endTms (s : State) : (dispatchState s).endTms = s.endTms := rfl
@[simp] theorem dispatchState_resetCount (s : State) : (dispatchState s).resetCount = s.resetCount := rfl
@[simp] theorem dispatchState_tck (s : State) : (dispatchState s).tck = s.tck := rfl
@[simp] theorem dispatchState_tms (s : State) : (dispatchState s).tms = s.tms := rfl
@[simp] theorem dispatchState_tdi (s : State) : (dispatchState s).tdi = s.tdi := rfl
@[simp] theorem dispatchState_tckHalf (s : State) : (dispatchState s).tckHalf = s.tckHalf := rfl
@[simp] theorem dispatchState_halfCount (s : State) : (dispatchState s).halfCount = s.halfCount := rfl
@[simp] theorem dispatchState_tdoSample (s : State) : (dispatchState s).tdoSample = s.tdoSample := rfl
@[simp] theorem dispatchState_busAck (s : State) : (dispatchState s).busAck = s.busAck := rfl
@[simp] theorem dispatchState_busRdata (s : State) : (dispatchState s).busRdata = s.busRdata := rfl
@[simp] theorem dispatchState_clockDivider (s : State) : (dispatchState s).clockDivider = s.clockDivider := rfl
@[simp] theorem dispatchState_params (s : State) : (dispatchState s).params = s.params := rfl
@[simp] theorem dispatchState_script (s : State) : (dispatchState s).script = s.script := rfl
@[simp] theorem dispatchState_dut (s : State) : (dispatchState s).dut = s.dut := rfl
@[simp] theorem dispatchState_dutTap (s : State) : (dispatchState s).dutTap = s.dutTap := rfl
@[simp] theorem dispatchState_reply (s : State) : (dispatchState s).reply = s.reply := rfl
@[simp] theorem dispatchState_draws (s : State) : (dispatchState s).draws = s.draws := rfl
@[simp] theorem dispatchState_bufEpoch (s : State) : (dispatchState s).bufEpoch = s.bufEpoch := rfl

/-! ### `withPins` -/

@[simp] theorem withPins_buf (v d : Bool) (s : State) : (withPins v d s).buf = s.buf := rfl
@[simp] theorem withPins_scanState (v d : Bool) (s : State) : (withPins v d s).scanState = s.scanState := rfl
@[simp] theorem withPins_endState (v d : Bool) (s : State) : (withPins v d s).endState = s.endState := rfl
@[simp] theorem withPins_chainLength (v d : Bool) (s : State) : (withPins v d s).chainLength = s.chainLength := rfl
@[simp] theorem withPins_go (v d : Bool) (s : State) : (withPins v d s).go = s.go := rfl
@[simp] theorem withPins_command (v d : Bool) (s : State) : (withPins v d s).command = s.command := rfl
@[simp] theorem withPins_curState (v d : Bool) (s : State) : (withPins v d s).curState = s.curState := rfl
@[simp] theorem withPins_eng (v d : Bool) (s : State) : (withPins v d s).eng = s.eng := rfl
@[simp] theorem withPins_bitIndex (v d : Bool) (s : State) : (withPins v d s).bitIndex = s.bitIndex := rfl
@[simp] theorem withPins_pending (v d : Bool) (s : State) : (withPins v d s).pending = s.pending := rfl
@[simp] theorem withPins_target (v d : Bool) (s : State) : (withPins v d s).target = s.target := rfl
@[simp] theorem withPins_scanTms (v d : Bool) (s : State) : (withPins v d s).scanTms = s.scanTms := rfl
@[simp] theorem withPins_endTms (v d : Bool) (s : State) : (withPins v d s).endTms = s.endTms := rfl
@[simp] theorem withPins_resetCount (v d : Bool) (s : State) : (withPins v d s).resetCount = s.resetCount := rfl
@[simp] theorem withPins_tck (v d : Bool) (s : State) : (withPins v d s).tck = s.tck := rfl
@[simp] theorem withPins_tms (v d : Bool) (s : State) : (withPins v d s).tms = v := rfl
@[simp] theorem withPins_tdi (v d : Bool) (s : State) : (withPins v d s).tdi = d := rfl
@[simp] theorem withPins_tckHalf (v d : Bool) (s : State) : (withPins v d s).tckHalf = s.tckHalf := rfl
@[simp] theorem withPins_halfCount (v d : Bool) (s : State) : (withPins v d s).halfCount = s.halfCount := rfl
@[simp] theorem withPins_tdoSample (v d : Bool) (s : State) : (withPins v d s).tdoSample = s.tdoSample := rfl
@[simp] theorem withPins_busAck (v d : Bool) (s : State) : (withPins v d s).busAck = s.busAck := rfl
@[simp] theorem withPins_busRdata (v d : Bool) (s : State) : (withPins v d s).busRdata = s.busRdata := rfl
@[simp] theorem withPins_clockDivider (v d : Bool) (s : State) : (withPins v d s).clockDivider = s.clockDivider := rfl
@[simp] theorem withPins_params (v d : Bool) (s : State) : (withPins v d s).params = s.params := rfl
@[simp] theorem withPins_script (v d : Bool) (s : State) : (withPins v d s).script = s.script := rfl
@[simp] theorem withPins_dut (v d : Bool) (s : State) : (withPins v d s).dut = s.dut := rfl
@[simp] theorem withPins_dutTap (v d : Bool) (s : State) : (withPins v d s).dutTap = s.dutTap := rfl
@[simp] theorem withPins_reply (v d : Bool) (s : State) : (withPins v d s).reply = s.reply := rfl
@[simp] theorem withPins_draws (v d : Bool) (s : State) : (withPins v d s).draws = s.draws := rfl
@[simp] theorem withPins_bufEpoch (v d : Bool) (s : State) : (withPins v d s).bufEpoch = s.bufEpoch := rfl

/-! ### `captureBit` -/

@[simp] theorem captureBit_buf (s : State) : (captureBit s).buf = (writeBit s s.bitIndex.toNat s.tdoSample).buf := rfl
@[simp] theorem captureBit_scanState (s : State) : (captureBit s).scanState = s.scanState := rfl
@[simp] theorem captureBit_endState (s : State) : (captureBit s).endState = s.endState := rfl
@[simp] theorem captureBit_chainLength (s : State) : (captureBit s).chainLength = s.chainLength := rfl
@[simp] theorem captureBit_go (s : State) : (captureBit s).go = s.go := rfl
@[simp] theorem captureBit_command (s : State) : (captureBit s).command = s.command := rfl
@[simp] theorem captureBit_curState (s : State) : (captureBit s).curState = s.curState := rfl
@[simp] theorem captureBit_eng (s : State) : (captureBit s).eng = s.eng := rfl
@[simp] theorem captureBit_bitIndex (s : State) : (captureBit s).bitIndex = s.bitIndex + 1 := rfl
@[simp] theorem captureBit_pending (s : State) : (captureBit s).pending = s.pending := rfl
@[simp] theorem captureBit_target (s : State) : (captureBit s).target = s.target := rfl
@[simp] theorem captureBit_scanTms (s : State) : (captureBit s).scanTms = s.scanTms := rfl
@[simp] theorem captureBit_endTms (s : State) : (captureBit s).endTms = s.endTms := rfl
@[simp] theorem captureBit_resetCount (s : State) : (captureBit s).resetCount = s.resetCount := rfl
@[simp] theorem captureBit_tck (s : State) : (captureBit s).tck = s.tck := rfl
@[simp] theorem captureBit_tms (s : State) : (captureBit s).tms = s.tms := rfl
@[simp] theorem captureBit_tdi (s : State) : (captureBit s).tdi = s.tdi := rfl
@[simp] theorem captureBit_tckHalf (s : State) : (captureBit s).tckHalf = s.tckHalf := rfl
@[simp] theorem captureBit_halfCount (s : State) : (captureBit s).halfCount = s.halfCount := rfl
@[simp] theorem captureBit_tdoSample (s : State) : (captureBit s).tdoSample = s.tdoSample := rfl
@[simp] theorem captureBit_busAck (s : State) : (captureBit s).busAck = s.busAck := rfl
@[simp] theorem captureBit_busRdata (s : State) : (captureBit s).busRdata = s.busRdata := rfl
@[simp] theorem captureBit_clockDivider (s : State) : (captureBit s).clockDivider = s.clockDivider := rfl
@[simp] theorem captureBit_params (s : State) : (captureBit s).params = s.params := rfl
@[simp] theorem captureBit_script (s : State) : (captureBit s).script = s.script := rfl
@[simp] theorem captureBit_dut (s : State) : (captureBit s).dut = s.dut := rfl
@[simp] theorem captureBit_dutTap (s : State) : (captureBit s).dutTap = s.dutTap := rfl
@[simp] theorem captureBit_reply (s : State) : (captureBit s).reply = s.reply := rfl
@[simp] theorem captureBit_draws (s : State) : (captureBit s).draws = s.draws := rfl
@[simp] theorem captureBit_bufEpoch (s : State) : (captureBit s).bufEpoch = s.bufEpoch := rfl

/-! ### `countPulse` -/

@[simp] theorem countPulse_buf (s : State) : (countPulse s).buf = s.buf := rfl
@[simp] theorem countPulse_scanState (s : State) : (countPulse s).scanState = s.scanState := rfl
@[simp] theorem countPulse_endState (s : State) : (countPulse s).endState = s.endState := rfl
@[simp] theorem countPulse_chainLength (s : State) : (countPulse s).chainLength = s.chainLength := rfl
@[simp] theorem countPulse_go (s : State) : (countPulse s).go = s.go := rfl
@[simp] theorem countPulse_command (s : State) : (countPulse s).command = s.command := rfl
@[simp] theorem countPulse_curState (s : State) : (countPulse s).curState = s.curState := rfl
@[simp] theorem countPulse_eng (s : State) : (countPulse s).eng = s.eng := rfl
@[simp] theorem countPulse_bitIndex (s : State) : (countPulse s).bitIndex = s.bitIndex := rfl
@[simp] theorem countPulse_pending (s : State) : (countPulse s).pending = s.pending := rfl
@[simp] theorem countPulse_target (s : State) : (countPulse s).target = s.target := rfl
@[simp] theorem countPulse_scanTms (s : State) : (countPulse s).scanTms = s.scanTms := rfl
@[simp] theorem countPulse_endTms (s : State) : (countPulse s).endTms = s.endTms := rfl
@[simp] theorem countPulse_resetCount (s : State) : (countPulse s).resetCount = s.resetCount + 1 := rfl
@[simp] theorem countPulse_tck (s : State) : (countPulse s).tck = s.tck := rfl
@[simp] theorem countPulse_tms (s : State) : (countPulse s).tms = s.tms := rfl
@[simp] theorem countPulse_tdi (s : State) : (countPulse s).tdi = s.tdi := rfl
@[simp] theorem countPulse_tckHalf (s : State) : (countPulse s).tckHalf = s.tckHalf := rfl
@[simp] theorem countPulse_halfCount (s : State) : (countPulse s).halfCount = s.halfCount := rfl
@[simp] theorem countPulse_tdoSample (s : State) : (countPulse s).tdoSample = s.tdoSample := rfl
@[simp] theorem countPulse_busAck (s : State) : (countPulse s).busAck = s.busAck := rfl
@[simp] theorem countPulse_busRdata (s : State) : (countPulse s).busRdata = s.busRdata := rfl
@[simp] theorem countPulse_clockDivider (s : State) : (countPulse s).clockDivider = s.clockDivider := rfl
@[simp] theorem countPulse_params (s : State) : (countPulse s).params = s.params := rfl
@[simp] theorem countPulse_script (s : State) : (countPulse s).script = s.script := rfl
@[simp] theorem countPulse_dut (s : State) : (countPulse s).dut = s.dut := rfl
@[simp] theorem countPulse_dutTap (s : State) : (countPulse s).dutTap = s.dutTap := rfl
@[simp] theorem countPulse_reply (s : State) : (countPulse s).reply = s.reply := rfl
@[simp] theorem countPulse_draws (s : State) : (countPulse s).draws = s.draws := rfl
@[simp] theorem countPulse_bufEpoch (s : State) : (countPulse s).bufEpoch = s.bufEpoch := rfl

/-! ### `leavePreShift` -/

@[simp] theorem leavePreShift_buf (s : State) : (leavePreShift s).buf = s.buf := rfl
@[simp] theorem leavePreShift_scanState (s : State) : (leavePreShift s).scanState = s.scanState := rfl
@[simp] theorem leavePreShift_endState (s : State) : (leavePreShift s).endState = s.endState := rfl
@[simp] theorem leavePreShift_chainLength (s : State) : (leavePreShift s).chainLength = s.chainLength := rfl
@[simp] theorem leavePreShift_go (s : State) : (leavePreShift s).go = s.go := rfl
@[simp] theorem leavePreShift_command (s : State) : (leavePreShift s).command = s.command := rfl
@[simp] theorem leavePreShift_curState (s : State) : (leavePreShift s).curState = s.curState := rfl
@[simp] theorem leavePreShift_eng (s : State) : (leavePreShift s).eng = .clearBuffer := rfl
@[simp] theorem leavePreShift_bitIndex (s : State) : (leavePreShift s).bitIndex = s.bitIndex := rfl
@[simp] theorem leavePreShift_pending (s : State) : (leavePreShift s).pending = s.pending := rfl
@[simp] theorem leavePreShift_target (s : State) : (leavePreShift s).target = s.target := rfl
@[simp] theorem leavePreShift_scanTms (s : State) : (leavePreShift s).scanTms = s.scanTms := rfl
@[simp] theorem leavePreShift_endTms (s : State) : (leavePreShift s).endTms = s.endTms := rfl
@[simp] theorem leavePreShift_resetCount (s : State) : (leavePreShift s).resetCount = s.resetCount := rfl
@[simp] theorem leavePreShift_tck (s : State) : (leavePreShift s).tck = s.tck := rfl
@[simp] theorem leavePreShift_tms (s : State) : (leavePreShift s).tms = s.tms := rfl
@[simp] theorem leavePreShift_tdi (s : State) : (leavePreShift s).tdi = s.tdi := rfl
@[simp] theorem leavePreShift_tckHalf (s : State) : (leavePreShift s).tckHalf = s.tckHalf := rfl
@[simp] theorem leavePreShift_halfCount (s : State) : (leavePreShift s).halfCount = s.halfCount := rfl
@[simp] theorem leavePreShift_tdoSample (s : State) : (leavePreShift s).tdoSample = s.tdoSample := rfl
@[simp] theorem leavePreShift_busAck (s : State) : (leavePreShift s).busAck = s.busAck := rfl
@[simp] theorem leavePreShift_busRdata (s : State) : (leavePreShift s).busRdata = s.busRdata := rfl
@[simp] theorem leavePreShift_clockDivider (s : State) : (leavePreShift s).clockDivider = s.clockDivider := rfl
@[simp] theorem leavePreShift_params (s : State) : (leavePreShift s).params = s.params := rfl
@[simp] theorem leavePreShift_script (s : State) : (leavePreShift s).script = s.script := rfl
@[simp] theorem leavePreShift_dut (s : State) : (leavePreShift s).dut = s.dut := rfl
@[simp] theorem leavePreShift_dutTap (s : State) : (leavePreShift s).dutTap = s.dutTap := rfl
@[simp] theorem leavePreShift_reply (s : State) : (leavePreShift s).reply = s.reply := rfl
@[simp] theorem leavePreShift_draws (s : State) : (leavePreShift s).draws = s.draws := rfl
@[simp] theorem leavePreShift_bufEpoch (s : State) : (leavePreShift s).bufEpoch = s.bufEpoch := rfl

/-! ### `leaveClearBuffer` -/

@[simp] theorem leaveClearBuffer_buf (s : State) : (leaveClearBuffer s).buf = s.buf := rfl
@[simp] theorem leaveClearBuffer_scanState (s : State) : (leaveClearBuffer s).scanState = s.scanState := rfl
@[simp] theorem leaveClearBuffer_endState (s : State) : (leaveClearBuffer s).endState = s.endState := rfl
@[simp] theorem leaveClearBuffer_chainLength (s : State) : (leaveClearBuffer s).chainLength = s.chainLength := rfl
@[simp] theorem leaveClearBuffer_go (s : State) : (leaveClearBuffer s).go = s.go := rfl
@[simp] theorem leaveClearBuffer_command (s : State) : (leaveClearBuffer s).command = s.command := rfl
@[simp] theorem leaveClearBuffer_curState (s : State) : (leaveClearBuffer s).curState = s.curState := rfl
@[simp] theorem leaveClearBuffer_eng (s : State) : (leaveClearBuffer s).eng = .gotoStart := rfl
@[simp] theorem leaveClearBuffer_bitIndex (s : State) : (leaveClearBuffer s).bitIndex = 0 := rfl
@[simp] theorem leaveClearBuffer_pending (s : State) : (leaveClearBuffer s).pending = s.pending := rfl
@[simp] theorem leaveClearBuffer_target (s : State) : (leaveClearBuffer s).target = s.scanState := rfl
@[simp] theorem leaveClearBuffer_scanTms (s : State) : (leaveClearBuffer s).scanTms = s.scanTms := rfl
@[simp] theorem leaveClearBuffer_endTms (s : State) : (leaveClearBuffer s).endTms = s.endTms := rfl
@[simp] theorem leaveClearBuffer_resetCount (s : State) : (leaveClearBuffer s).resetCount = s.resetCount := rfl
@[simp] theorem leaveClearBuffer_tck (s : State) : (leaveClearBuffer s).tck = s.tck := rfl
@[simp] theorem leaveClearBuffer_tms (s : State) : (leaveClearBuffer s).tms = s.tms := rfl
@[simp] theorem leaveClearBuffer_tdi (s : State) : (leaveClearBuffer s).tdi = s.tdi := rfl
@[simp] theorem leaveClearBuffer_tckHalf (s : State) : (leaveClearBuffer s).tckHalf = s.tckHalf := rfl
@[simp] theorem leaveClearBuffer_halfCount (s : State) : (leaveClearBuffer s).halfCount = s.halfCount := rfl
@[simp] theorem leaveClearBuffer_tdoSample (s : State) : (leaveClearBuffer s).tdoSample = s.tdoSample := rfl
@[simp] theorem leaveClearBuffer_busAck (s : State) : (leaveClearBuffer s).busAck = s.busAck := rfl
@[simp] theorem leaveClearBuffer_busRdata (s : State) : (leaveClearBuffer s).busRdata = s.busRdata := rfl
@[simp] theorem leaveClearBuffer_clockDivider (s : State) : (leaveClearBuffer s).clockDivider = s.clockDivider := rfl
@[simp] theorem leaveClearBuffer_params (s : State) : (leaveClearBuffer s).params = s.params := rfl
@[simp] theorem leaveClearBuffer_script (s : State) : (leaveClearBuffer s).script = s.script := rfl
@[simp] theorem leaveClearBuffer_dut (s : State) : (leaveClearBuffer s).dut = s.dut := rfl
@[simp] theorem leaveClearBuffer_dutTap (s : State) : (leaveClearBuffer s).dutTap = s.dutTap := rfl
@[simp] theorem leaveClearBuffer_reply (s : State) : (leaveClearBuffer s).reply = s.reply := rfl
@[simp] theorem leaveClearBuffer_draws (s : State) : (leaveClearBuffer s).draws = s.draws := rfl
@[simp] theorem leaveClearBuffer_bufEpoch (s : State) : (leaveClearBuffer s).bufEpoch = s.bufEpoch := rfl

/-! ### `enterShift` -/

@[simp] theorem enterShift_buf (s : State) : (enterShift s).buf = s.buf := rfl
@[simp] theorem enterShift_scanState (s : State) : (enterShift s).scanState = s.scanState := rfl
@[simp] theorem enterShift_endState (s : State) : (enterShift s).endState = s.endState := rfl
@[simp] theorem enterShift_chainLength (s : State) : (enterShift s).chainLength = s.chainLength := rfl
@[simp] theorem enterShift_go (s : State) : (enterShift s).go = s.go := rfl
@[simp] theorem enterShift_command (s : State) : (enterShift s).command = s.command := rfl
@[simp] theorem enterShift_curState (s : State) : (enterShift s).curState = s.curState := rfl
@[simp] theorem enterShift_eng (s : State) : (enterShift s).eng = .shift := rfl
@[simp] theorem enterShift_bitIndex (s : State) : (enterShift s).bitIndex = s.bitIndex := rfl
@[simp] theorem enterShift_pending (s : State) : (enterShift s).pending = s.pending := rfl
@[simp] theorem enterShift_target (s : State) : (enterShift s).target = s.target := rfl
@[simp] theorem enterShift_scanTms (s : State) : (enterShift s).scanTms = route s.scanState s.scanState := rfl
@[simp] theorem enterShift_endTms (s : State) : (enterShift s).endTms = route s.scanState s.endState := rfl
@[simp] theorem enterShift_resetCount (s : State) : (enterShift s).resetCount = s.resetCount := rfl
@[simp] theorem enterShift_tck (s : State) : (enterShift s).tck = s.tck := rfl
@[simp] theorem enterShift_tms (s : State) : (enterShift s).tms = s.tms := rfl
@[simp] theorem enterShift_tdi (s : State) : (enterShift s).tdi = s.tdi := rfl
@[simp] theorem enterShift_tckHalf (s : State) : (enterShift s).tckHalf = s.tckHalf := rfl
@[simp] theorem enterShift_halfCount (s : State) : (enterShift s).halfCount = s.halfCount := rfl
@[simp] theorem enterShift_tdoSample (s : State) : (enterShift s).tdoSample = s.tdoSample := rfl
@[simp] theorem enterShift_busAck (s : State) : (enterShift s).busAck = s.busAck := rfl
@[simp] theorem enterShift_busRdata (s : State) : (enterShift s).busRdata = s.busRdata := rfl
@[simp] theorem enterShift_clockDivider (s : State) : (enterShift s).clockDivider = s.clockDivider := rfl
@[simp] theorem enterShift_params (s : State) : (enterShift s).params = s.params := rfl
@[simp] theorem enterShift_script (s : State) : (enterShift s).script = s.script := rfl
@[simp] theorem enterShift_dut (s : State) : (enterShift s).dut = s.dut := rfl
@[simp] theorem enterShift_dutTap (s : State) : (enterShift s).dutTap = s.dutTap := rfl
@[simp] theorem enterShift_reply (s : State) : (enterShift s).reply = s.reply := rfl
@[simp] theorem enterShift_draws (s : State) : (enterShift s).draws = s.draws := rfl
@[simp] theorem enterShift_bufEpoch (s : State) : (enterShift s).bufEpoch = s.bufEpoch := rfl

/-! ### `leaveShift` -/

@[simp] theorem leaveShift_buf (s : State) : (leaveShift s).buf = s.buf := rfl
@[simp] theorem leaveShift_scanState (s : State) : (leaveShift s).scanState = s.scanState := rfl
@[simp] theorem leaveShift_endState (s : State) : (leaveShift s).endState = s.endState := rfl
@[simp] theorem leaveShift_chainLength (s : State) : (leaveShift s).chainLength = s.chainLength := rfl
@[simp] theorem leaveShift_go (s : State) : (leaveShift s).go = s.go := rfl
@[simp] theorem leaveShift_command (s : State) : (leaveShift s).command = s.command := rfl
@[simp] theorem leaveShift_curState (s : State) : (leaveShift s).curState = s.curState := rfl
@[simp] theorem leaveShift_eng (s : State) : (leaveShift s).eng = .gotoState := rfl
@[simp] theorem leaveShift_bitIndex (s : State) : (leaveShift s).bitIndex = s.bitIndex := rfl
@[simp] theorem leaveShift_pending (s : State) : (leaveShift s).pending = s.pending := rfl
@[simp] theorem leaveShift_target (s : State) : (leaveShift s).target = s.endState := rfl
@[simp] theorem leaveShift_scanTms (s : State) : (leaveShift s).scanTms = s.scanTms := rfl
@[simp] theorem leaveShift_endTms (s : State) : (leaveShift s).endTms = s.endTms := rfl
@[simp] theorem leaveShift_resetCount (s : State) : (leaveShift s).resetCount = s.resetCount := rfl
@[simp] theorem leaveShift_tck (s : State) : (leaveShift s).tck = s.tck := rfl
@[simp] theorem leaveShift_tms (s : State) : (leaveShift s).tms = s.tms := rfl
@[simp] theorem leaveShift_tdi (s : State) : (leaveShift s).tdi = s.tdi := rfl
@[simp] theorem leaveShift_tckHalf (s : State) : (leaveShift s).tckHalf = s.tckHalf := rfl
@[simp] theorem leaveShift_halfCount (s : State) : (leaveShift s).halfCount = s.halfCount := rfl
@[simp] theorem leaveShift_tdoSample (s : State) : (leaveShift s).tdoSample = s.tdoSample := rfl
@[simp] theorem leaveShift_busAck (s : State) : (leaveShift s).busAck = s.busAck := rfl
@[simp] theorem leaveShift_busRdata (s : State) : (leaveShift s).busRdata = s.busRdata := rfl
@[simp] theorem leaveShift_clockDivider (s : State) : (leaveShift s).clockDivider = s.clockDivider := rfl
@[simp] theorem leaveShift_params (s : State) : (leaveShift s).params = s.params := rfl
@[simp] theorem leaveShift_script (s : State) : (leaveShift s).script = s.script := rfl
@[simp] theorem leaveShift_dut (s : State) : (leaveShift s).dut = s.dut := rfl
@[simp] theorem leaveShift_dutTap (s : State) : (leaveShift s).dutTap = s.dutTap := rfl
@[simp] theorem leaveShift_reply (s : State) : (leaveShift s).reply = s.reply := rfl
@[simp] theorem leaveShift_draws (s : State) : (leaveShift s).draws = s.draws := rfl
@[simp] theorem leaveShift_bufEpoch (s : State) : (leaveShift s).bufEpoch = s.bufEpoch := rfl

/-! ### `enterDone` -/

@[simp] theorem enterDone_buf (s : State) : (enterDone s).buf = s.buf := rfl
@[simp] theorem enterDone_scanState (s : State) : (enterDone s).scanState = s.scanState := rfl
@[simp] theorem enterDone_endState (s : State) : (enterDone s).endState = s.endState := rfl
@[simp] theorem enterDone_chainLength (s : State) : (enterDone s).chainLength = s.chainLength := rfl
@[simp] theorem enterDone_go (s : State) : (enterDone s).go = s.go := rfl
@[simp] theorem enterDone_command (s : State) : (enterDone s).command = s.command := rfl
@[simp] theorem enterDone_curState (s : State) : (enterDone s).curState = s.curState := rfl
@[simp] theorem enterDone_eng (s : State) : (enterDone s).eng = .done := rfl
@[simp] theorem enterDone_bitIndex (s : State) : (enterDone s).bitIndex = s.bitIndex := rfl
@[simp] theorem enterDone_pending (s : State) : (enterDone s).pending = s.pending := rfl
@[simp] theorem enterDone_target (s : State) : (enterDone s).target = s.target := rfl
@[simp] theorem enterDone_scanTms (s : State) : (enterDone s).scanTms = s.scanTms := rfl
@[simp] theorem enterDone_endTms (s : State) : (enterDone s).endTms = s.endTms := rfl
@[simp] theorem enterDone_resetCount (s : State) : (enterDone s).resetCount = s.resetCount := rfl
@[simp] theorem enterDone_tck (s : State) : (enterDone s).tck = s.tck := rfl
@[simp] theorem enterDone_tms (s : State) : (enterDone s).tms = s.tms := rfl
@[simp] theorem enterDone_tdi (s : State) : (enterDone s).tdi = s.tdi := rfl
@[simp] theorem enterDone_tckHalf (s : State) : (enterDone s).tckHalf = s.tckHalf := rfl
@[simp] theorem enterDone_halfCount (s : State) : (enterDone s).halfCount = s.halfCount := rfl
@[simp] theorem enterDone_tdoSample (s : State) : (enterDone s).tdoSample = s.tdoSample := rfl
@[simp] theorem enterDone_busAck (s : State) : (enterDone s).busAck = s.busAck := rfl
@[simp] theorem enterDone_busRdata (s : State) : (enterDone s).busRdata = s.busRdata := rfl
@[simp] theorem enterDone_clockDivider (s : State) : (enterDone s).clockDivider = s.clockDivider := rfl
@[simp] theorem enterDone_params (s : State) : (enterDone s).params = s.params := rfl
@[simp] theorem enterDone_script (s : State) : (enterDone s).script = s.script := rfl
@[simp] theorem enterDone_dut (s : State) : (enterDone s).dut = s.dut := rfl
@[simp] theorem enterDone_dutTap (s : State) : (enterDone s).dutTap = s.dutTap := rfl
@[simp] theorem enterDone_reply (s : State) : (enterDone s).reply = s.reply := rfl
@[simp] theorem enterDone_draws (s : State) : (enterDone s).draws = s.draws := rfl
@[simp] theorem enterDone_bufEpoch (s : State) : (enterDone s).bufEpoch = s.bufEpoch := rfl

/-! ### `leaveTapReset` -/

@[simp] theorem leaveTapReset_buf (s : State) : (leaveTapReset s).buf = s.buf := rfl
@[simp] theorem leaveTapReset_scanState (s : State) : (leaveTapReset s).scanState = s.scanState := rfl
@[simp] theorem leaveTapReset_endState (s : State) : (leaveTapReset s).endState = s.endState := rfl
@[simp] theorem leaveTapReset_chainLength (s : State) : (leaveTapReset s).chainLength = s.chainLength := rfl
@[simp] theorem leaveTapReset_go (s : State) : (leaveTapReset s).go = s.go := rfl
@[simp] theorem leaveTapReset_command (s : State) : (leaveTapReset s).command = s.command := rfl
@[simp] theorem leaveTapReset_curState (s : State) : (leaveTapReset s).curState = .testLogicReset := rfl
@[simp] theorem leaveTapReset_eng (s : State) : (leaveTapReset s).eng = .done := rfl
@[simp] theorem leaveTapReset_bitIndex (s : State) : (leaveTapReset s).bitIndex = s.bitIndex := rfl
@[simp] theorem leaveTapReset_pending (s : State) : (leaveTapReset s).pending = s.pending := rfl
@[simp] theorem leaveTapReset_target (s : State) : (leaveTapReset s).target = s.target := rfl
@[simp] theorem leaveTapReset_scanTms (s : State) : (leaveTapReset s).scanTms = s.scanTms := rfl
@[simp] theorem leaveTapReset_endTms (s : State) : (leaveTapReset s).endTms = s.endTms := rfl
@[simp] theorem leaveTapReset_resetCount (s : State) : (leaveTapReset s).resetCount = s.resetCount := rfl
@[simp] theorem leaveTapReset_tck (s : State) : (leaveTapReset s).tck = s.tck := rfl
@[simp] theorem leaveTapReset_tms (s : State) : (leaveTapReset s).tms = s.tms := rfl
@[simp] theorem leaveTapReset_tdi (s : State) : (leaveTapReset s).tdi = s.tdi := rfl
@[simp] theorem leaveTapReset_tckHalf (s : State) : (leaveTapReset s).tckHalf = s.tckHalf := rfl
@[simp] theorem leaveTapReset_halfCount (s : State) : (leaveTapReset s).halfCount = s.halfCount := rfl
@[simp] theorem leaveTapReset_tdoSample (s : State) : (leaveTapReset s).tdoSample = s.tdoSample := rfl
@[simp] theorem leaveTapReset_busAck (s : State) : (leaveTapReset s).busAck = s.busAck := rfl
@[simp] theorem leaveTapReset_busRdata (s : State) : (leaveTapReset s).busRdata = s.busRdata := rfl
@[simp] theorem leaveTapReset_clockDivider (s : State) : (leaveTapReset s).clockDivider = s.clockDivider := rfl
@[simp] theorem leaveTapReset_params (s : State) : (leaveTapReset s).params = s.params := rfl
@[simp] theorem leaveTapReset_script (s : State) : (leaveTapReset s).script = s.script := rfl
@[simp] theorem leaveTapReset_dut (s : State) : (leaveTapReset s).dut = s.dut := rfl
@[simp] theorem leaveTapReset_dutTap (s : State) : (leaveTapReset s).dutTap = s.dutTap := rfl
@[simp] theorem leaveTapReset_reply (s : State) : (leaveTapReset s).reply = s.reply := rfl
@[simp] theorem leaveTapReset_draws (s : State) : (leaveTapReset s).draws = s.draws := rfl
@[simp] theorem leaveTapReset_bufEpoch (s : State) : (leaveTapReset s).bufEpoch = s.bufEpoch := rfl

/-! ### `stepDone` -/

@[simp] theorem stepDone_buf (s : State) : (stepDone s).buf = s.buf := by unfold stepDone; split <;> rfl
@[simp] theorem stepDone_scanState (s : State) : (stepDone s).scanState = s.scanState := by unfold stepDone; split <;> rfl
@[simp] theorem stepDone_endState (s : State) : (stepDone s).endState = s.endState := by unfold stepDone; split <;> rfl
@[simp] theorem stepDone_chainLength (s : State) : (stepDone s).chainLength = s.chainLength := by unfold stepDone; split <;> rfl
@[simp] theorem stepDone_go (s : State) : (stepDone s).go = s.go := by unfold stepDone; split <;> rfl
@[simp] theorem stepDone_command (s : State) : (stepDone s).command = s.command := by unfold stepDone; split <;> rfl
@[simp] theorem stepDone_curState (s : State) : (stepDone s).curState = s.curState := by unfold stepDone; split <;> rfl
@[simp] theorem stepDone_bitIndex (s : State) : (stepDone s).bitIndex = s.bitIndex := by unfold stepDone; split <;> rfl
@[simp] theorem stepDone_pending (s : State) : (stepDone s).pending = s.pending := by unfold stepDone; split <;> rfl
@[simp] theorem stepDone_target (s : State) : (stepDone s).target = s.target := by unfold stepDone; split <;> rfl
@[simp] theorem stepDone_scanTms (s : State) : (stepDone s).scanTms = s.scanTms := by unfold stepDone; split <;> rfl
@[simp] theorem stepDone_endTms (s : State) : (stepDone s).endTms = s.endTms := by unfold stepDone; split <;> rfl
@[simp] theorem stepDone_resetCount (s : State) : (stepDone s).resetCount = s.resetCount := by unfold stepDone; split <;> rfl
@[simp] theorem stepDone_tck (s : State) : (stepDone s).tck = s.tck := by unfold stepDone; split <;> rfl
@[simp] theorem stepDone_tms (s : State) : (stepDone s).tms = s.tms := by unfold stepDone; split <;> rfl
@[simp] theorem stepDone_tdi (s : State) : (stepDone s).tdi = s.tdi := by unfold stepDone; split <;> rfl
@[simp] theorem stepDone_tckHalf (s : State) : (stepDone s).tckHalf = s.tckHalf := by unfold stepDone; split <;> rfl
@[simp] theorem stepDone_halfCount (s : State) : (stepDone s).halfCount = s.halfCount := by unfold stepDone; split <;> rfl
@[simp] theorem stepDone_tdoSample (s : State) : (stepDone s).tdoSample = s.tdoSample := by unfold stepDone; split <;> rfl
@[simp] theorem stepDone_busAck (s : State) : (stepDone s).busAck = s.busAck := by unfold stepDone; split <;> rfl
@[simp] theorem stepDone_busRdata (s : State) : (stepDone s).busRdata = s.busRdata := by unfold stepDone; split <;> rfl
@[simp] theorem stepDone_clockDivider (s : State) : (stepDone s).clockDivider = s.clockDivider := by unfold stepDone; split <;> rfl
@[simp] theorem stepDone_params (s : State) : (stepDone s).params = s.params := by unfold stepDone; split <;> rfl
@[simp] theorem stepDone_script (s : State) : (stepDone s).script = s.script := by unfold stepDone; split <;> rfl
@[simp] theorem stepDone_dut (s : State) : (stepDone s).dut = s.dut := by unfold stepDone; split <;> rfl
@[simp] theorem stepDone_dutTap (s : State) : (stepDone s).dutTap = s.dutTap := by unfold stepDone; split <;> rfl
@[simp] theorem stepDone_reply (s : State) : (stepDone s).reply = s.reply := by unfold stepDone; split <;> rfl
@[simp] theorem stepDone_draws (s : State) : (stepDone s).draws = s.draws := by unfold stepDone; split <;> rfl
@[simp] theorem stepDone_bufEpoch (s : State) : (stepDone s).bufEpoch = s.bufEpoch := by unfold stepDone; split <;> rfl

/-! ### `applyReset` -/

@[simp] theorem applyReset_buf (s : State) : (applyReset s).buf = [] := rfl
@[simp] theorem applyReset_scanState (s : State) : (applyReset s).scanState = .testLogicReset := rfl
@[simp] theorem applyReset_endState (s : State) : (applyReset s).endState = .testLogicReset := rfl
@[simp] theorem applyReset_chainLength (s : State) : (applyReset s).chainLength = 0 := rfl
@[simp] theorem applyReset_go (s : State) : (applyReset s).go = false := rfl
@[simp] theorem applyReset_command (s : State) : (applyReset s).command = 0 := rfl
@[simp] theorem applyReset_curState (s : State) : (applyReset s).curState = .testLogicReset := rfl
@[simp] theorem applyReset_eng (s : State) : (applyReset s).eng = .idle := rfl
@[simp] theorem applyReset_bitIndex (s : State) : (applyReset s).bitIndex = 0 := rfl
@[simp] theorem applyReset_pending (s : State) : (applyReset s).pending = false := rfl
@[simp] theorem applyReset_target (s : State) : (applyReset s).target = .testLogicReset := rfl
@[simp] theorem applyReset_scanTms (s : State) : (applyReset s).scanTms = false := rfl
@[simp] theorem applyReset_endTms (s : State) : (applyReset s).endTms = false := rfl
@[simp] theorem applyReset_resetCount (s : State) : (applyReset s).resetCount = 0 := rfl
@[simp] theorem applyReset_tck (s : State) : (applyReset s).tck = false := rfl
@[simp] theorem applyReset_tms (s : State) : (applyReset s).tms = false := rfl
@[simp] theorem applyReset_tdi (s : State) : (applyReset s).tdi = false := rfl
@[simp] theorem applyReset_tckHalf (s : State) : (applyReset s).tckHalf = .low := rfl
@[simp] theorem applyReset_halfCount (s : State) : (applyReset s).halfCount = 0 := rfl
@[simp] theorem applyReset_tdoSample (s : State) : (applyReset s).tdoSample = false := rfl
@[simp] theorem applyReset_busAck (s : State) : (applyReset s).busAck = false := rfl
@[simp] theorem applyReset_busRdata (s : State) : (applyReset s).busRdata = s.busRdata := rfl
@[simp] theorem applyReset_clockDivider (s : State) : (applyReset s).clockDivider = s.clockDivider := rfl
@[simp] theorem applyReset_params (s : State) : (applyReset s).params = s.params := rfl
@[simp] theorem applyReset_script (s : State) : (applyReset s).script = s.script := rfl
@[simp] theorem applyReset_dut (s : State) : (applyReset s).dut = s.dut := rfl
@[simp] theorem applyReset_dutTap (s : State) : (applyReset s).dutTap = s.dutTap := rfl
@[simp] theorem applyReset_reply (s : State) : (applyReset s).reply = s.reply := rfl
@[simp] theorem applyReset_draws (s : State) : (applyReset s).draws = s.draws := rfl
@[simp] theorem applyReset_bufEpoch (s : State) : (applyReset s).bufEpoch = s.bufEpoch + 1 := rfl

/-! ### `drive` -/

@[simp] theorem drive_buf (s : State) : (drive s).buf = s.buf := by unfold drive; split <;> (try split) <;> rfl
@[simp] theorem drive_scanState (s : State) : (drive s).scanState = s.scanState := by unfold drive; split <;> (try split) <;> rfl
@[simp] theorem drive_endState (s : State) : (drive s).endState = s.endState := by unfold drive; split <;> (try split) <;> rfl
@[simp] theorem drive_chainLength (s : State) : (drive s).chainLength = s.chainLength := by unfold drive; split <;> (try split) <;> rfl
@[simp] theorem drive_go (s : State) : (drive s).go = s.go := by unfold drive; split <;> (try split) <;> rfl
@[simp] theorem drive_command (s : State) : (drive s).command = s.command := by unfold drive; split <;> (try split) <;> rfl
@[simp] theorem drive_curState (s : State) : (drive s).curState = s.curState := by unfold drive; split <;> (try split) <;> rfl
@[simp] theorem drive_eng (s : State) : (drive s).eng = s.eng := by unfold drive; split <;> (try split) <;> rfl
@[simp] theorem drive_bitIndex (s : State) : (drive s).bitIndex = s.bitIndex := by unfold drive; split <;> (try split) <;> rfl
@[simp] theorem drive_pending (s : State) : (drive s).pending = s.pending := by unfold drive; split <;> (try split) <;> rfl
@[simp] theorem drive_target (s : State) : (drive s).target = s.target := by unfold drive; split <;> (try split) <;> rfl
@[simp] theorem drive_scanTms (s : State) : (drive s).scanTms = s.scanTms := by unfold drive; split <;> (try split) <;> rfl
@[simp] theorem drive_endTms (s : State) : (drive s).endTms = s.endTms := by unfold drive; split <;> (try split) <;> rfl
@[simp] theorem drive_resetCount (s : State) : (drive s).resetCount = s.resetCount := by unfold drive; split <;> (try split) <;> rfl
@[simp] theorem drive_tck (s : State) : (drive s).tck = s.tck := by unfold drive; split <;> (try split) <;> rfl
@[simp] theorem drive_tckHalf (s : State) : (drive s).tckHalf = s.tckHalf := by unfold drive; split <;> (try split) <;> rfl
@[simp] theorem drive_halfCount (s : State) : (drive s).halfCount = s.halfCount := by unfold drive; split <;> (try split) <;> rfl
@[simp] theorem drive_tdoSample (s : State) : (drive s).tdoSample = s.tdoSample := by unfold drive; split <;> (try split) <;> rfl
@[simp] theorem drive_busAck (s : State) : (drive s).busAck = s.busAck := by unfold drive; split <;> (try split) <;> rfl
@[simp] theorem drive_busRdata (s : State) : (drive s).busRdata = s.busRdata := by unfold drive; split <;> (try split) <;> rfl
@[simp] theorem drive_clockDivider (s : State) : (drive s).clockDivider = s.clockDivider := by unfold drive; split <;> (try split) <;> rfl
@[simp] theorem drive_params (s : State) : (drive s).params = s.params := by unfold drive; split <;> (try split) <;> rfl
@[simp] theorem drive_script (s : State) : (drive s).script = s.script := by unfold drive; split <;> (try split) <;> rfl
@[simp] theorem drive_dut (s : State) : (drive s).dut = s.dut := by unfold drive; split <;> (try split) <;> rfl
@[simp] theorem drive_dutTap (s : State) : (drive s).dutTap = s.dutTap := by unfold drive; split <;> (try split) <;> rfl
@[simp] theorem drive_reply (s : State) : (drive s).reply = s.reply := by unfold drive; split <;> (try split) <;> rfl
@[simp] theorem drive_draws (s : State) : (drive s).draws = s.draws := by unfold drive; split <;> (try split) <;> rfl
@[simp] theorem drive_bufEpoch (s : State) : (drive s).bufEpoch = s.bufEpoch := by unfold drive; split <;> (try split) <;> rfl

/-! ### `sampleTdo` -/

@[simp] theorem sampleTdo_buf (s : State) : (sampleTdo s).buf = s.buf := by unfold sampleTdo; split <;> rfl
@[simp] theorem sampleTdo_scanState (s : State) : (sampleTdo s).scanState = s.scanState := by unfold sampleTdo; split <;> rfl
@[simp] theorem sampleTdo_endState (s : State) : (sampleTdo s).endState = s.endState := by unfold sampleTdo; split <;> rfl
@[simp] theorem sampleTdo_chainLength (s : State) : (sampleTdo s).chainLength = s.chainLength := by unfold sampleTdo; split <;> rfl
@[simp] theorem sampleTdo_go (s : State) : (sampleTdo s).go = s.go := by unfold sampleTdo; split <;> rfl
@[simp] theorem sampleTdo_command (s : State) : (sampleTdo s).command = s.command := by unfold sampleTdo; split <;> rfl
@[simp] theorem sampleTdo_curState (s : State) : (sampleTdo s).curState = s.curState := by unfold sampleTdo; split <;> rfl
@[simp] theorem sampleTdo_eng (s : State) : (sampleTdo s).eng = s.eng := by unfold sampleTdo; split <;> rfl
@[simp] theorem sampleTdo_bitIndex (s : State) : (sampleTdo s).bitIndex = s.bitIndex := by unfold sampleTdo; split <;> rfl
@[simp] theorem sampleTdo_pending (s : State) : (sampleTdo s).pending = s.pending := by unfold sampleTdo; split <;> rfl
@[simp] theorem sampleTdo_target (s : State) : (sampleTdo s).target = s.target := by unfold sampleTdo; split <;> rfl
@[simp] theorem sampleTdo_scanTms (s : State) : (sampleTdo s).scanTms = s.scanTms := by unfold sampleTdo; split <;> rfl
@[simp] theorem sampleTdo_endTms (s : State) : (sampleTdo s).endTms = s.endTms := by unfold sampleTdo; split <;> rfl
@[simp] theorem sampleTdo_resetCount (s : State) : (sampleTdo s).resetCount = s.resetCount := by unfold sampleTdo; split <;> rfl
@[simp] theorem sampleTdo_tck (s : State) : (sampleTdo s).tck = s.tck := by unfold sampleTdo; split <;> rfl
@[simp] theorem sampleTdo_tms (s : State) : (sampleTdo s).tms = s.tms := by unfold sampleTdo; split <;> rfl
@[simp] theorem sampleTdo_tdi (s : State) : (sampleTdo s).tdi = s.tdi := by unfold sampleTdo; split <;> rfl
@[simp] theorem sampleTdo_tckHalf (s : State) : (sampleTdo s).tckHalf = s.tckHalf := by unfold sampleTdo; split <;> rfl
@[simp] theorem sampleTdo_halfCount (s : State) : (sampleTdo s).halfCount = s.halfCount := by unfold sampleTdo; split <;> rfl
@[simp] theorem sampleTdo_tdoSample (s : State) : (sampleTdo s).tdoSample = tdoLevel s := by unfold sampleTdo; split <;> first | rfl | simp_all [tdoLevel]
@[simp] theorem sampleTdo_busAck (s : State) : (sampleTdo s).busAck = s.busAck := by unfold sampleTdo; split <;> rfl
@[simp] theorem sampleTdo_busRdata (s : State) : (sampleTdo s).busRdata = s.busRdata := by unfold sampleTdo; split <;> rfl
@[simp] theorem sampleTdo_clockDivider (s : State) : (sampleTdo s).clockDivider = s.clockDivider := by unfold sampleTdo; split <;> rfl
@[simp] theorem sampleTdo_params (s : State) : (sampleTdo s).params = s.params := by unfold sampleTdo; split <;> rfl
@[simp] theorem sampleTdo_script (s : State) : (sampleTdo s).script = s.script := by unfold sampleTdo; split <;> rfl
@[simp] theorem sampleTdo_dutTap (s : State) : (sampleTdo s).dutTap = s.dutTap := by unfold sampleTdo; split <;> rfl
@[simp] theorem sampleTdo_reply (s : State) : (sampleTdo s).reply = s.reply := by unfold sampleTdo; split <;> rfl
@[simp] theorem sampleTdo_bufEpoch (s : State) : (sampleTdo s).bufEpoch = s.bufEpoch := by unfold sampleTdo; split <;> rfl

/-! ### `dutEdge` -/

@[simp] theorem dutEdge_buf (s : State) : (dutEdge s).buf = s.buf := rfl
@[simp] theorem dutEdge_scanState (s : State) : (dutEdge s).scanState = s.scanState := rfl
@[simp] theorem dutEdge_endState (s : State) : (dutEdge s).endState = s.endState := rfl
@[simp] theorem dutEdge_chainLength (s : State) : (dutEdge s).chainLength = s.chainLength := rfl
@[simp] theorem dutEdge_go (s : State) : (dutEdge s).go = s.go := rfl
@[simp] theorem dutEdge_command (s : State) : (dutEdge s).command = s.command := rfl
@[simp] theorem dutEdge_curState (s : State) : (dutEdge s).curState = s.curState := rfl
@[simp] theorem dutEdge_eng (s : State) : (dutEdge s).eng = s.eng := rfl
@[simp] theorem dutEdge_bitIndex (s : State) : (dutEdge s).bitIndex = s.bitIndex := rfl
@[simp] theorem dutEdge_pending (s : State) : (dutEdge s).pending = s.pending := rfl
@[simp] theorem dutEdge_target (s : State) : (dutEdge s).target = s.target := rfl
@[simp] theorem dutEdge_scanTms (s : State) : (dutEdge s).scanTms = s.scanTms := rfl
@[simp] theorem dutEdge_endTms (s : State) : (dutEdge s).endTms = s.endTms := rfl
@[simp] theorem dutEdge_resetCount (s : State) : (dutEdge s).resetCount = s.resetCount := rfl
@[simp] theorem dutEdge_tck (s : State) : (dutEdge s).tck = s.tck := rfl
@[simp] theorem dutEdge_tms (s : State) : (dutEdge s).tms = s.tms := rfl
@[simp] theorem dutEdge_tdi (s : State) : (dutEdge s).tdi = s.tdi := rfl
@[simp] theorem dutEdge_tckHalf (s : State) : (dutEdge s).tckHalf = s.tckHalf := rfl
@[simp] theorem dutEdge_halfCount (s : State) : (dutEdge s).halfCount = s.halfCount := rfl
@[simp] theorem dutEdge_tdoSample (s : State) : (dutEdge s).tdoSample = s.tdoSample := rfl
@[simp] theorem dutEdge_busAck (s : State) : (dutEdge s).busAck = s.busAck := rfl
@[simp] theorem dutEdge_busRdata (s : State) : (dutEdge s).busRdata = s.busRdata := rfl
@[simp] theorem dutEdge_clockDivider (s : State) : (dutEdge s).clockDivider = s.clockDivider := rfl
@[simp] theorem dutEdge_params (s : State) : (dutEdge s).params = s.params := rfl
@[simp] theorem dutEdge_script (s : State) : (dutEdge s).script = s.script := rfl
@[simp] theorem dutEdge_dutTap (s : State) : (dutEdge s).dutTap = tapNext s.dutTap s.tms := rfl
@[simp] theorem dutEdge_reply (s : State) : (dutEdge s).reply = s.reply := rfl
@[simp] theorem dutEdge_draws (s : State) : (dutEdge s).draws = s.draws := rfl
@[simp] theorem dutEdge_bufEpoch (s : State) : (dutEdge s).bufEpoch = s.bufEpoch := rfl

/-! ### `risingEdge` -/

@[simp] theorem risingEdge_buf (p : PulseOp) (s : State) : (risingEdge p s).buf = s.buf := by unfold risingEdge; cases p.capture <;> simp
@[simp] theorem risingEdge_scanState (p : PulseOp) (s : State) : (risingEdge p s).scanState = s.scanState := by unfold risingEdge; cases p.capture <;> simp
@[simp] theorem risingEdge_endState (p : PulseOp) (s : State) : (risingEdge p s).endState = s.endState := by unfold risingEdge; cases p.capture <;> simp
@[simp] theorem risingEdge_chainLength (p : PulseOp) (s : State) : (risingEdge p s).chainLength = s.chainLength := by unfold risingEdge; cases p.capture <;> simp
@[simp] theorem risingEdge_go (p : PulseOp) (s : State) : (risingEdge p s).go = s.go := by unfold risingEdge; cases p.capture <;> simp
@[simp] theorem risingEdge_command (p : PulseOp) (s : State) : (risingEdge p s).command = s.command := by unfold risingEdge; cases p.capture <;> simp
@[simp] theorem risingEdge_curState (p : PulseOp) (s : State) : (risingEdge p s).curState = s.curState := by unfold risingEdge; cases p.capture <;> simp
@[simp] theorem risingEdge_eng (p : PulseOp) (s : State) : (risingEdge p s).eng = s.eng := by unfold risingEdge; cases p.capture <;> simp
@[simp] theorem risingEdge_bitIndex (p : PulseOp) (s : State) : (risingEdge p s).bitIndex = s.bitIndex := by unfold risingEdge; cases p.capture <;> simp
@[simp] theorem risingEdge_pending (p : PulseOp) (s : State) : (risingEdge p s).pending = s.pending := by unfold risingEdge; cases p.capture <;> simp
@[simp] theorem risingEdge_target (p : PulseOp) (s : State) : (risingEdge p s).target = s.target := by unfold risingEdge; cases p.capture <;> simp
@[simp] theorem risingEdge_scanTms (p : PulseOp) (s : State) : (risingEdge p s).scanTms = s.scanTms := by unfold risingEdge; cases p.capture <;> simp
@[simp] theorem risingEdge_endTms (p : PulseOp) (s : State) : (risingEdge p s).endTms = s.endTms := by unfold risingEdge; cases p.capture <;> simp
@[simp] theorem risingEdge_resetCount (p : PulseOp) (s : State) : (risingEdge p s).resetCount = s.resetCount := by unfold risingEdge; cases p.capture <;> simp
@[simp] theorem risingEdge_tck (p : PulseOp) (s : State) : (risingEdge p s).tck = true := by unfold risingEdge; cases p.capture <;> simp
@[simp] theorem risingEdge_tms (p : PulseOp) (s : State) : (risingEdge p s).tms = s.tms := by unfold risingEdge; cases p.capture <;> simp
@[simp] theorem risingEdge_tdi (p : PulseOp) (s : State) : (risingEdge p s).tdi = s.tdi := by unfold risingEdge; cases p.capture <;> simp
@[simp] theorem risingEdge_tckHalf (p : PulseOp) (s : State) : (risingEdge p s).tckHalf = .high := by unfold risingEdge; cases p.capture <;> simp
@[simp] theorem risingEdge_halfCount (p : PulseOp) (s : State) : (risingEdge p s).halfCount = 0 := by unfold risingEdge; cases p.capture <;> simp
@[simp] theorem risingEdge_tdoSample (p : PulseOp) (s : State) : (risingEdge p s).tdoSample = if p.capture then tdoLevel s else s.tdoSample := by unfold risingEdge; cases p.capture <;> simp
@[simp] theorem risingEdge_busAck (p : PulseOp) (s : State) : (risingEdge p s).busAck = s.busAck := by unfold risingEdge; cases p.capture <;> simp
@[simp] theorem risingEdge_busRdata (p : PulseOp) (s : State) : (risingEdge p s).busRdata = s.busRdata := by unfold risingEdge; cases p.capture <;> simp
@[simp] theorem risingEdge_clockDivider (p : PulseOp) (s : State) : (risingEdge p s).clockDivider = s.clockDivider := by unfold risingEdge; cases p.capture <;> simp
@[simp] theorem risingEdge_params (p : PulseOp) (s : State) : (risingEdge p s).params = s.params := by unfold risingEdge; cases p.capture <;> simp
@[simp] theorem risingEdge_script (p : PulseOp) (s : State) : (risingEdge p s).script = s.script := by unfold risingEdge; cases p.capture <;> simp
@[simp] theorem risingEdge_dutTap (p : PulseOp) (s : State) : (risingEdge p s).dutTap = tapNext s.dutTap s.tms := by unfold risingEdge; cases p.capture <;> simp
@[simp] theorem risingEdge_reply (p : PulseOp) (s : State) : (risingEdge p s).reply = s.reply := by unfold risingEdge; cases p.capture <;> simp
@[simp] theorem risingEdge_bufEpoch (p : PulseOp) (s : State) : (risingEdge p s).bufEpoch = s.bufEpoch := by unfold risingEdge; cases p.capture <;> simp

/-! ### `fallingEdge` -/

@[simp] theorem fallingEdge_buf (p : PulseOp) (s : State) : (fallingEdge p s).buf = s.buf := rfl
@[simp] theorem fallingEdge_scanState (p : PulseOp) (s : State) : (fallingEdge p s).scanState = s.scanState := rfl
@[simp] theorem fallingEdge_endState (p : PulseOp) (s : State) : (fallingEdge p s).endState = s.endState := rfl
@[simp] theorem fallingEdge_chainLength (p : PulseOp) (s : State) : (fallingEdge p s).chainLength = s.chainLength := rfl
@[simp] theorem fallingEdge_go (p : PulseOp) (s : State) : (fallingEdge p s).go = s.go := rfl
@[simp] theorem fallingEdge_command (p : PulseOp) (s : State) : (fallingEdge p s).command = s.command := rfl
@[simp] theorem fallingEdge_curState (p : PulseOp) (s : State) : (fallingEdge p s).curState = tapNext s.curState p.tms := rfl
@[simp] theorem fallingEdge_eng (p : PulseOp) (s : State) : (fallingEdge p s).eng = s.eng := rfl
@[simp] theorem fallingEdge_bitIndex (p : PulseOp) (s : State) : (fallingEdge p s).bitIndex = s.bitIndex := rfl
@[simp] theorem fallingEdge_pending (p : PulseOp) (s : State) : (fallingEdge p s).pending = s.pending := rfl
@[simp] theorem fallingEdge_target (p : PulseOp) (s : State) : (fallingEdge p s).target = s.target := rfl
@[simp] theorem fallingEdge_scanTms (p : PulseOp) (s : State) : (fallingEdge p s).scanTms = s.scanTms := rfl
@[simp] theorem fallingEdge_endTms (p : PulseOp) (s : State) : (fallingEdge p s).endTms = s.endTms := rfl
@[simp] theorem fallingEdge_resetCount (p : PulseOp) (s : State) : (fallingEdge p s).resetCount = s.resetCount := rfl
@[simp] theorem fallingEdge_tck (p : PulseOp) (s : State) : (fallingEdge p s).tck = false := rfl
@[simp] theorem fallingEdge_tms (p : PulseOp) (s : State) : (fallingEdge p s).tms = s.tms := rfl
@[simp] theorem fallingEdge_tdi (p : PulseOp) (s : State) : (fallingEdge p s).tdi = s.tdi := rfl
@[simp] theorem fallingEdge_tckHalf (p : PulseOp) (s : State) : (fallingEdge p s).tckHalf = .low := rfl
@[simp] theorem fallingEdge_halfCount (p : PulseOp) (s : State) : (fallingEdge p s).halfCount = 0 := rfl
@[simp] theorem fallingEdge_tdoSample (p : PulseOp) (s : State) : (fallingEdge p s).tdoSample = s.tdoSample := rfl
@[simp] theorem fallingEdge_busAck (p : PulseOp) (s : State) : (fallingEdge p s).busAck = s.busAck := rfl
@[simp] theorem fallingEdge_busRdata (p : PulseOp) (s : State) : (fallingEdge p s).busRdata = s.busRdata := rfl
@[simp] theorem fallingEdge_clockDivider (p : PulseOp) (s : State) : (fallingEdge p s).clockDivider = s.clockDivider := rfl
@[simp] theorem fallingEdge_params (p : PulseOp) (s : State) : (fallingEdge p s).params = s.params := rfl
@[simp] theorem fallingEdge_script (p : PulseOp) (s : State) : (fallingEdge p s).script = s.script := rfl
@[simp] theorem fallingEdge_dut (p : PulseOp) (s : State) : (fallingEdge p s).dut = s.dut := rfl
@[simp] theorem fallingEdge_dutTap (p : PulseOp) (s : State) : (fallingEdge p s).dutTap = s.dutTap := rfl
@[simp] theorem fallingEdge_reply (p : PulseOp) (s : State) : (fallingEdge p s).reply = s.reply := rfl
@[simp] theorem fallingEdge_draws (p : PulseOp) (s : State) : (fallingEdge p s).draws = s.draws := rfl
@[simp] theorem fallingEdge_bufEpoch (p : PulseOp) (s : State) : (fallingEdge p s).bufEpoch = s.bufEpoch := rfl

/-- What pulses change when the step they belong to changes nothing else: the TAP, TMS, the acknowledge, the device. -/
def navigated (c : TapState) (v a : Bool) (d : Dut) (t : TapState) (s : State) : State :=
  { s with curState := c, tms := v, busAck := a, dut := d, dutTap := t }

/-! ### `navigated` -/

@[simp] theorem navigated_buf (c : TapState) (v a : Bool) (d : Dut) (t : TapState) (s : State) : (navigated c v a d t s).buf = s.buf := rfl
@[simp] theorem navigated_scanState (c : TapState) (v a : Bool) (d : Dut) (t : TapState) (s : State) : (navigated c v a d t s).scanState = s.scanState := rfl
@[simp] theorem navigated_endState (c : TapState) (v a : Bool) (d : Dut) (t : TapState) (s : State) : (navigated c v a d t s).endState = s.endState := rfl
@[simp] theorem navigated_chainLength (c : TapState) (v a : Bool) (d : Dut) (t : TapState) (s : State) : (navigated c v a d t s).chainLength = s.chainLength := rfl
@[simp] theorem navigated_go (c : TapState) (v a : Bool) (d : Dut) (t : TapState) (s : State) : (navigated c v a d t s).go = s.go := rfl
@[simp] theorem navigated_command (c : TapState) (v a : Bool) (d : Dut) (t : TapState) (s : State) : (navigated c v a d t s).command = s.command := rfl
@[simp] theorem navigated_curState (c : TapState) (v a : Bool) (d : Dut) (t : TapState) (s : State) : (navigated c v a d t s).curState = c := rfl
@[simp] theorem navigated_eng (c : TapState) (v a : Bool) (d : Dut) (t : TapState) (s : State) : (navigated c v a d t s).eng = s.eng := rfl
@[simp] theorem navigated_bitIndex (c : TapState) (v a : Bool) (d : Dut) (t : TapState) (s : State) : (navigated c v a d t s).bitIndex = s.bitIndex := rfl
@[simp] theorem navigated_pending (c : TapState) (v a : Bool) (d : Dut) (t : TapState) (s : State) : (navigated c v a d t s).pending = s.pending := rfl
@[simp] theorem navigated_target (c : TapState) (v a : Bool) (d : Dut) (t : TapState) (s : State) : (navigated c v a d t s).target = s.target := rfl
@[simp] theorem navigated_scanTms (c : TapState) (v a : Bool) (d : Dut) (t : TapState) (s : State) : (navigated c v a d t s).scanTms = s.scanTms := rfl
@[simp] theorem navigated_endTms (c : TapState) (v a : Bool) (d : Dut) (t : TapState) (s : State) : (navigated c v a d t s).endTms = s.endTms := rfl
@[simp] theorem navigated_resetCount (c : TapState) (v a : Bool) (d : Dut) (t : TapState) (s : State) : (navigated c v a d t s).resetCount = s.resetCount := rfl
@[simp] theorem navigated_tck (c : TapState) (v a : Bool) (d : Dut) (t : TapState) (s : State) : (navigated c v a d t s).tck = s.tck := rfl
@[simp] theorem navigated_tms (c : TapState) (v a : Bool) (d : Dut) (t : TapState) (s : State) : (navigated c v a d t s).tms = v := rfl
@[simp] theorem navigated_tdi (c : TapState) (v a : Bool) (d : Dut) (t : TapState) (s : State) : (navigated c v a d t s).tdi = s.tdi := rfl
@[simp] theorem navigated_tckHalf (c : TapState) (v a : Bool) (d : Dut) (t : TapState) (s : State) : (navigated c v a d t s).tckHalf = s.tckHalf := rfl
@[simp] theorem navigated_halfCount (c : TapState) (v a : Bool) (d : Dut) (t : TapState) (s : State) : (navigated c v a d t s).halfCount = s.halfCount := rfl
@[simp] theorem navigated_tdoSample (c : TapState) (v a : Bool) (d : Dut) (t : TapState) (s : State) : (navigated c v a d t s).tdoSample = s.tdoSample := rfl
@[simp] theorem navigated_busAck (c : TapState) (v a : Bool) (d : Dut) (t : TapState) (s : State) : (navigated c v a d t s).busAck = a := rfl
@[simp] theorem navigated_busRdata (c : TapState) (v a : Bool) (d : Dut) (t : TapState) (s : State) : (navigated c v a d t s).busRdata = s.busRdata := rfl
@[simp] theorem navigated_clockDivider (c : TapState) (v a : Bool) (d : Dut) (t : TapState) (s : State) : (navigated c v a d t s).clockDivider = s.clockDivider := rfl
@[simp] theorem navigated_params (c : TapState) (v a : Bool) (d : Dut) (t : TapState) (s : State) : (navigated c v a d t s).params = s.params := rfl
@[simp] theorem navigated_script (c : TapState) (v a : Bool) (d : Dut) (t : TapState) (s : State) : (navigated c v a d t s).script = s.script := rfl
@[simp] theorem navigated_dut (c : TapState) (v a : Bool) (d : Dut) (t : TapState) (s : State) : (navigated c v a d t s).dut = d := rfl
@[simp] theorem navigated_dutTap (c : TapState) (v a : Bool) (d : Dut) (t : TapState) (s : State) : (navigated c v a d t s).dutTap = t := rfl
@[simp] theorem navigated_reply (c : TapState) (v a : Bool) (d : Dut) (t : TapState) (s : State) : (navigated c v a d t s).reply = s.reply := rfl
@[simp] theorem navigated_draws (c : TapState) (v a : Bool) (d : Dut) (t : TapState) (s : State) : (navigated c v a d t s).draws = s.draws := rfl
@[simp] theorem navigated_bufEpoch (c : TapState) (v a : Bool) (d : Dut) (t : TapState) (s : State) : (navigated c v a d t s).bufEpoch = s.bufEpoch := rfl

/-- What the pulses of SHIFT change. -/
def shifted (i : BitVec 16) (m : Memory) (c : TapState) (v x b a : Bool) (d : Dut) (t : TapState) (n : Nat)
    (s : State) : State :=
  { s with
    bitIndex := i, buf := m, curState := c, tms := v, tdi := x, tdoSample := b, busAck := a, dut := d
    dutTap := t, draws := n }

/-! ### `shifted` -/

@[simp] theorem shifted_buf (i : BitVec 16) (m : Memory) (c : TapState) (v x b a : Bool) (d : Dut) (t : TapState) (n : Nat) (s : State) : (shifted i m c v x b a d t n s).buf = m := rfl
@[simp] theorem shifted_scanState (i : BitVec 16) (m : Memory) (c : TapState) (v x b a : Bool) (d : Dut) (t : TapState) (n : Nat) (s : State) : (shifted i m c v x b a d t n s).scanState = s.scanState := rfl
@[simp] theorem shifted_endState (i : BitVec 16) (m : Memory) (c : TapState) (v x b a : Bool) (d : Dut) (t : TapState) (n : Nat) (s : State) : (shifted i m c v x b a d t n s).endState = s.endState := rfl
@[simp] theorem shifted_chainLength (i : BitVec 16) (m : Memory) (c : TapState) (v x b a : Bool) (d : Dut) (t : TapState) (n : Nat) (s : State) : (shifted i m c v x b a d t n s).chainLength = s.chainLength := rfl
@[simp] theorem shifted_go (i : BitVec 16) (m : Memory) (c : TapState) (v x b a : Bool) (d : Dut) (t : TapState) (n : Nat) (s : State) : (shifted i m c v x b a d t n s).go = s.go := rfl
@[simp] theorem shifted_command (i : BitVec 16) (m : Memory) (c : TapState) (v x b a : Bool) (d : Dut) (t : TapState) (n : Nat) (s : State) : (shifted i m c v x b a d t n s).command = s.command := rfl
@[simp] theorem shifted_curState (i : BitVec 16) (m : Memory) (c : TapState) (v x b a : Bool) (d : Dut) (t : TapState) (n : Nat) (s : State) : (shifted i m c v x b a d t n s).curState = c := rfl
@[simp] theorem shifted_eng (i : BitVec 16) (m : Memory) (c : TapState) (v x b a : Bool) (d : Dut) (t : TapState) (n : Nat) (s : State) : (shifted i m c v x b a d t n s).eng = s.eng := rfl
@[simp] theorem shifted_bitIndex (i : BitVec 16) (m : Memory) (c : TapState) (v x b a : Bool) (d : Dut) (t : TapState) (n : Nat) (s : State) : (shifted i m c v x b a d t n s).bitIndex = i := rfl
@[simp] theorem shifted_pending (i : BitVec 16) (m : Memory) (c : TapState) (v x b a : Bool) (d : Dut) (t : TapState) (n : Nat) (s : State) : (shifted i m c v x b a d t n s).pending = s.pending := rfl
@[simp] theorem shifted_target (i : BitVec 16) (m : Memory) (c : TapState) (v x b a : Bool) (d : Dut) (t : TapState) (n : Nat) (s : State) : (shifted i m c v x b a d t n s).target = s.target := rfl
@[simp] theorem shifted_scanTms (i : BitVec 16) (m : Memory) (c : TapState) (v x b a : Bool) (d : Dut) (t : TapState) (n : Nat) (s : State) : (shifted i m c v x b a d t n s).scanTms = s.scanTms := rfl
@[simp] theorem shifted_endTms (i : BitVec 16) (m : Memory) (c : TapState) (v x b a : Bool) (d : Dut) (t : TapState) (n : Nat) (s : State) : (shifted i m c v x b a d t n s).endTms = s.endTms := rfl
@[simp] theorem shifted_resetCount (i : BitVec 16) (m : Memory) (c : TapState) (v x b a : Bool) (d : Dut) (t : TapState) (n : Nat) (s : State) : (shifted i m c v x b a d t n s).resetCount = s.resetCount := rfl
@[simp] theorem shifted_tck (i : BitVec 16) (m : Memory) (c : TapState) (v x b a : Bool) (d : Dut) (t : TapState) (n : Nat) (s : State) : (shifted i m c v x b a d t n s).tck = s.tck := rfl
@[simp] theorem shifted_tms (i : BitVec 16) (m : Memory) (c : TapState) (v x b a : Bool) (d : Dut) (t : TapState) (n : Nat) (s : State) : (shifted i m c v x b a d t n s).tms = v := rfl
@[simp] theorem shifted_tdi (i : BitVec 16) (m : Memory) (c : TapState) (v x b a : Bool) (d : Dut) (t : TapState) (n : Nat) (s : State) : (shifted i m c v x b a d t n s).tdi = x := rfl
@[simp] theorem shifted_tckHalf (i : BitVec 16) (m : Memory) (c : TapState) (v x b a : Bool) (d : Dut) (t : TapState) (n : Nat) (s : State) : (shifted i m c v x b a d t n s).tckHalf = s.tckHalf := rfl
@[simp] theorem shifted_halfCount (i : BitVec 16) (m : Memory) (c : TapState) (v x b a : Bool) (d : Dut) (t : TapState) (n : Nat) (s : State) : (shifted i m c v x b a d t n s).halfCount = s.halfCount := rfl
@[simp] theorem shifted_tdoSample (i : BitVec 16) (m : Memory) (c : TapState) (v x b a : Bool) (d : Dut) (t : TapState) (n : Nat) (s : State) : (shifted i m c v x b a d t n s).tdoSample = b := rfl
@[simp] theorem shifted_busAck (i : BitVec 16) (m : Memory) (c : TapState) (v x b a : Bool) (d : Dut) (t : TapState) (n : Nat) (s : State) : (shifted i m c v x b a d t n s).busAck = a := rfl
@[simp] theorem shifted_busRdata (i : BitVec 16) (m : Memory) (c : TapState) (v x b a : Bool) (d : Dut) (t : TapState) (n : Nat) (s : State) : (shifted i m c v x b a d t n s).busRdata = s.busRdata := rfl
@[simp] theorem shifted_clockDivider (i : BitVec 16) (m : Memory) (c : TapState) (v x b a : Bool) (d : Dut) (t : TapState) (n : Nat) (s : State) : (shifted i m c v x b a d t n s).clockDivider = s.clockDivider := rfl
@[simp] theorem shifted_params (i : BitVec 16) (m : Memory) (c : TapState) (v x b a : Bool) (d : Dut) (t : TapState) (n : Nat) (s : State) : (shifted i m c v x b a d t n s).params = s.params := rfl
@[simp] theorem shifted_script (i : BitVec 16) (m : Memory) (c : TapState) (v x b a : Bool) (d : Dut) (t : TapState) (n : Nat) (s : State) : (shifted i m c v x b a d t n s).script = s.script := rfl
@[simp] theorem shifted_dut (i : BitVec 16) (m : Memory) (c : TapState) (v x b a : Bool) (d : Dut) (t : TapState) (n : Nat) (s : State) : (shifted i m c v x b a d t n s).dut = d := rfl
@[simp] theorem shifted_dutTap (i : BitVec 16) (m : Memory) (c : TapState) (v x b a : Bool) (d : Dut) (t : TapState) (n : Nat) (s : State) : (shifted i m c v x b a d t n s).dutTap = t := rfl
@[simp] theorem shifted_reply (i : BitVec 16) (m : Memory) (c : TapState) (v x b a : Bool) (d : Dut) (t : TapState) (n : Nat) (s : State) : (shifted i m c v x b a d t n s).reply = s.reply := rfl
@[simp] theorem shifted_draws (i : BitVec 16) (m : Memory) (c : TapState) (v x b a : Bool) (d : Dut) (t : TapState) (n : Nat) (s : State) : (shifted i m c v x b a d t n s).draws = n := rfl
@[simp] theorem shifted_bufEpoch (i : BitVec 16) (m : Memory) (c : TapState) (v x b a : Bool) (d : Dut) (t : TapState) (n : Nat) (s : State) : (shifted i m c v x b a d t n s).bufEpoch = s.bufEpoch := rfl

end Sys2Proof.Machine
end

