-- ==== Sys2Proof/Laws/Buffer.lean ====
section
/-! SUPPORT. The ScanBuffer: read after write by byte and by bit, and that every operation keeps the canonical form. -/

namespace Sys2Proof.Machine

/-! ## The list of bytes -/

@[simp] theorem Memory.lookup_store_same (m : Memory) (k : Nat) (v : Byte) :
    Memory.lookup (Memory.store m k v) k = some v := by
  induction m with
  | nil => simp [Memory.store, Memory.lookup]
  | cons c r ih =>
    obtain ⟨a, x⟩ := c
    unfold Memory.store
    split
    · simp [Memory.lookup]
    · split
      · simp [Memory.lookup]
      · next _ h => simp [Memory.lookup, Ne.symm h, ih]

theorem Memory.lookup_store_ne (m : Memory) {j k : Nat} (v : Byte) (h : j ≠ k) :
    Memory.lookup (Memory.store m k v) j = Memory.lookup m j := by
  induction m with
  | nil => simp [Memory.store, Memory.lookup, Ne.symm h]
  | cons c r ih =>
    obtain ⟨a, x⟩ := c
    unfold Memory.store
    split
    · simp [Memory.lookup, Ne.symm h]
    · split
      · next _ hk => subst hk; simp [Memory.lookup, Ne.symm h]
      · simp [Memory.lookup, ih]

theorem Memory.rising_store {m : Memory} {lo k : Nat} (v : Byte) (h : Memory.rising lo m = true)
    (hk : lo ≤ k) : Memory.rising lo (Memory.store m k v) = true := by
  induction m generalizing lo with
  | nil => simpa [Memory.store, Memory.rising] using hk
  | cons c r ih =>
    obtain ⟨a, x⟩ := c
    simp only [Memory.rising, Bool.and_eq_true, decide_eq_true_eq] at h
    unfold Memory.store
    split
    · next hlt => simp [Memory.rising, hk, Nat.succ_le_of_lt hlt, h.2]
    · split
      · next _ he => subst he; simp [Memory.rising, hk, h.2]
      · next hlt hne =>
        simp only [Memory.rising, Bool.and_eq_true, decide_eq_true_eq]
        exact ⟨h.1, ih h.2 (by omega)⟩

theorem Memory.all_store {m : Memory} {k : Nat} (v : Byte) {f : Host.Cell → Bool}
    (h : m.all f = true) (hk : f (k, v) = true) : (Memory.store m k v).all f = true := by
  induction m with
  | nil => simpa [Memory.store] using hk
  | cons c r ih =>
    simp only [List.all_cons, Bool.and_eq_true] at h
    unfold Memory.store
    split
    · simp [hk, h.1, h.2]
    · split
      · simp [hk, h.2]
      · simp [h.1, ih h.2]

/-- A store within the buffer keeps the canonical form. -/
theorem Memory.wf_store {m : Memory} {k : Nat} (v : Byte) (h : Memory.wf m = true)
    (hk : k < Config.bufBytes) : Memory.wf (Memory.store m k v) = true := by
  simp only [Memory.wf, Bool.and_eq_true] at *
  exact ⟨Memory.rising_store v h.1 (Nat.zero_le k), Memory.all_store v h.2 (by simpa using hk)⟩

@[simp] theorem Memory.wf_nil : Memory.wf [] = true := rfl

/-! ## Bytes -/

/-- What a read of a byte depends on. -/
theorem readByte_congr {s t : State} (h1 : t.buf = s.buf) (h2 : t.bufEpoch = s.bufEpoch) (k : Nat) :
    readByte t k = readByte s k := by
  simp [readByte, h1, h2]

theorem readBit_congr {s t : State} (h1 : t.buf = s.buf) (h2 : t.bufEpoch = s.bufEpoch) (i : Nat) :
    readBit t i = readBit s i := by
  simp [readBit, readByte_congr h1 h2]

@[simp] theorem readByte_writeByte_same (s : State) (k : Nat) (v : Byte) :
    readByte (writeByte s k v) k = v := by
  simp [readByte]

theorem readByte_writeByte_ne (s : State) {j k : Nat} (v : Byte) (h : j ≠ k) :
    readByte (writeByte s k v) j = readByte s j := by
  simp [readByte, Memory.lookup_store_ne _ _ h]

/-! ## Bits -/

/-- R93: the byte with one bit replaced has that bit, and every other as it was. -/
theorem getLsbD_setBit (old : Byte) {m j : Nat} (b : Bool) (hm : m < 8) (hj : j < 8) :
    (setBit old m b).getLsbD j = if j = m then b else old.getLsbD j := by
  interval_cases m <;> interval_cases j <;> cases b <;> simp [setBit]

theorem readByte_writeBit_same (s : State) (i : Nat) (b : Bool) :
    readByte (writeBit s i b) (i / 8) = setBit (readByte s (i / 8)) (i % 8) b :=
  readByte_writeByte_same _ _ _

theorem readByte_writeBit_ne (s : State) {i k : Nat} (b : Bool) (h : k ≠ i / 8) :
    readByte (writeBit s i b) k = readByte s k :=
  readByte_writeByte_ne _ _ h

@[simp] theorem readBit_writeBit_same (s : State) (i : Nat) (b : Bool) :
    readBit (writeBit s i b) i = b := by
  simp [readBit, readByte_writeBit_same,
    getLsbD_setBit _ _ (Nat.mod_lt i (by decide)) (Nat.mod_lt i (by decide))]

theorem readBit_writeBit_ne (s : State) {i j : Nat} (b : Bool) (h : j ≠ i) :
    readBit (writeBit s i b) j = readBit s j := by
  unfold readBit
  by_cases hk : j / 8 = i / 8
  · rw [hk, readByte_writeBit_same,
      getLsbD_setBit _ _ (Nat.mod_lt i (by decide)) (Nat.mod_lt j (by decide)), if_neg (by omega)]
  · rw [readByte_writeBit_ne _ _ hk]

/-- Two buffers that agree on every bit of a byte agree on the byte. -/
theorem readByte_ext {s t : State} {k : Nat} (h : ∀ j, j < 8 → readBit t (8 * k + j) = readBit s (8 * k + j)) :
    readByte t k = readByte s k := by
  apply BitVec.eq_of_getLsbD_eq
  intro j hj
  have := h j hj
  unfold readBit at this
  rwa [show (8 * k + j) / 8 = k by omega, show (8 * k + j) % 8 = j by omega] at this

/-! ## Sizes -/

theorem nbytes_eq (count : Nat) : nbytes count = (count + 7) / 8 := by
  unfold nbytes; split <;> omega

end Sys2Proof.Machine
end

