-- ==== Sys2Proof/Laws/Ops.lean ====
section
/-! SUPPORT. One lemma for each shared operation of Machine/Ops.lean, cited instead of unfolding it. -/

namespace Sys2Proof.Machine

/-! ## Results -/

@[simp] theorem andThen_next {α β : Type} (a : α) (f : α → Result β) : andThen (.next a) f = f a := rfl
@[simp] theorem andThen_fault {α β : Type} (r : Fault) (f : α → Result β) :
    andThen (.fault r) f = .fault r := rfl
@[simp] theorem andThen_refused {α β : Type} (r : Refusal) (f : α → Result β) :
    andThen (.refused r) f = .refused r := rfl

theorem andThen_eq_next {α β : Type} {o : Result α} {f : α → Result β} {b : β} :
    andThen o f = .next b ↔ ∃ a, o = .next a ∧ f a = .next b := by
  cases o <;> simp

theorem andThen_assoc {α β γ : Type} (o : Result α) (f : α → Result β) (g : β → Result γ) :
    andThen (andThen o f) g = andThen o fun a => andThen (f a) g := by
  cases o <;> rfl

theorem andThen_eq_fault {α β : Type} {o : Result α} {f : α → Result β} {e : Fault} :
    andThen o f = .fault e ↔ o = .fault e ∨ ∃ a, o = .next a ∧ f a = .fault e := by
  cases o <;> simp

/-! ## The pulse of a step and the pins -/

theorem betweenPulses_iff {s : State} :
    betweenPulses s = true ↔ s.tckHalf = .low ∧ s.halfCount = 0 := by
  simp [betweenPulses]

/-- What the current step's pulse depends on. -/
theorem pulseOp_congr {s t : State} (h1 : t.eng = s.eng) (h2 : t.curState = s.curState)
    (h3 : t.target = s.target) (h4 : t.bitIndex = s.bitIndex) (h5 : t.chainLength = s.chainLength)
    (h6 : t.endTms = s.endTms) (h7 : t.scanTms = s.scanTms) (h8 : t.buf = s.buf)
    (h9 : t.bufEpoch = s.bufEpoch) (h10 : t.resetCount = s.resetCount) : pulseOp t = pulseOp s := by
  simp [pulseOp, shiftTms, readBit, readByte, h1, h2, h3, h4, h5, h6, h7, h8, h9, h10]

theorem drive_none {s : State} (h : pulseOp s = none) : drive s = s := by
  simp [drive, h]

theorem drive_some {s : State} {p : PulseOp} (h : pulseOp s = some p) (hb : betweenPulses s = true) :
    drive s = withPins p.tms (p.tdi.getD s.tdi) s := by
  simp [drive, h, betweenPulses_iff.mp hb]

/-- Within a pulse the pins are left alone. -/
theorem drive_within {s : State} (hb : betweenPulses s = false) : drive s = s := by
  unfold drive
  split
  · rfl
  · split
    · next h => simp [betweenPulses_iff.mpr h] at hb
    · rfl

@[simp] theorem pulseOp_drive (s : State) : pulseOp (drive s) = pulseOp s := by
  apply pulseOp_congr <;> simp

/-- The pins aside, `drive` changes nothing. -/
theorem drive_eq (s : State) : drive s = withPins (drive s).tms (drive s).tdi s := by
  unfold drive
  split
  · rfl
  · split <;> rfl

/-- At the start of a pulse `drive` makes the pins right. -/
theorem pinsDriven_drive {s : State} (hb : betweenPulses s = true) : pinsDriven (drive s) := by
  intro p hp
  rw [pulseOp_drive] at hp
  rw [drive_some hp hb]
  exact ⟨rfl, fun b h => by simp [h]⟩

@[simp] theorem pulseOp_withAck (b : Bool) (s : State) : pulseOp (withAck b s) = pulseOp s := rfl
@[simp] theorem pulseOp_withHalfCount (n : Nat) (s : State) : pulseOp (withHalfCount n s) = pulseOp s := rfl
@[simp] theorem betweenPulses_withAck (b : Bool) (s : State) :
    betweenPulses (withAck b s) = betweenPulses s := rfl
@[simp] theorem withAck_withAck (b c : Bool) (s : State) : withAck b (withAck c s) = withAck b s := rfl
@[simp] theorem withHalfCount_withHalfCount (m n : Nat) (s : State) :
    withHalfCount m (withHalfCount n s) = withHalfCount m s := rfl
theorem withAck_withHalfCount (b : Bool) (n : Nat) (s : State) :
    withAck b (withHalfCount n s) = withHalfCount n (withAck b s) := rfl
@[simp] theorem withAck_self (s : State) : withAck s.busAck s = s := rfl
@[simp] theorem withHalfCount_self (s : State) : withHalfCount s.halfCount s = s := rfl

/-- The acknowledge has no part in the pins. -/
theorem drive_withAck (b : Bool) (s : State) : drive (withAck b s) = withAck b (drive s) := by
  unfold drive
  rw [pulseOp_withAck]
  cases pulseOp s with
  | none => rfl
  | some p =>
    by_cases h : s.tckHalf = .low ∧ s.halfCount = 0
    · exact (if_pos (c := (withAck b s).tckHalf = .low ∧ (withAck b s).halfCount = 0) h).trans
        (congrArg (withAck b) (if_pos (t := withPins p.tms (p.tdi.getD s.tdi) s) h).symm)
    · exact (if_neg (c := (withAck b s).tckHalf = .low ∧ (withAck b s).halfCount = 0) h).trans
        (congrArg (withAck b) (if_neg h).symm)

theorem pulseOp_quiet {s : State} (h : isBusy s = false) : pulseOp s = none := by
  unfold isBusy at h
  unfold pulseOp
  cases he : s.eng <;> simp_all

/-! ## Ticks -/

theorem engineTick_pulse {s : State} {p : PulseOp} (h : pulseOp s = some p) :
    engineTick s = .next (pulseTick p s) := by
  simp [engineTick, h]

theorem engineTick_none {s : State} (h : pulseOp s = none) : engineTick s = bookkeepingTick s := by
  simp [engineTick, h]

theorem idleTick_pulse {s : State} {p : PulseOp} (h : pulseOp s = some p) :
    idleTick s = .next (drive (withAck false (pulseTick p s))) := by
  simp [idleTick, tickWith, engineTick_pulse h]

theorem idleTick_none {s : State} (h : pulseOp s = none) :
    idleTick s = andThen (bookkeepingTick s) fun u => .next (drive (withAck false u)) := by
  simp [idleTick, tickWith, engineTick_none h]

/-- A tick with a bus access is the tick without one, and the access, wherever the access leaves alone what the step
depends on. -/
theorem tickWith_eq_idleTick {s u : State} {f g : State → State} (h : idleTick s = .next u)
    (hg : ∀ v, drive (f v) = g (drive (withAck false v))) :
    tickWith f s = .next (g u) := by
  unfold idleTick tickWith at *
  obtain ⟨v, hv, h⟩ := andThen_eq_next.mp h
  rw [hv, andThen_next, hg]
  simp at h
  rw [h]

/-- The engine's tick completes unless it is a shift entry that R116 refuses. -/
theorem engineTick_next_iff {s : State} : (∃ u, engineTick s = .next u) ↔ tickLegal s = true := by
  unfold engineTick tickLegal
  cases hp : pulseOp s with
  | some p =>
    by_cases he : s.eng = .gotoStart <;> by_cases hc : s.curState = s.target <;> simp_all [pulseOp]
  | none =>
    unfold bookkeepingTick
    cases he : s.eng <;> simp
    simp [pulseOp, he] at hp
    simp [hp, shiftEntry]
    cases isStable s.scanState <;> simp
    split <;> simp <;> omega

theorem idleTick_next {s : State} (h : tickLegal s = true) : ∃ u, idleTick s = .next u := by
  obtain ⟨u, hu⟩ := engineTick_next_iff.mpr h
  exact ⟨_, by simp [idleTick, tickWith, hu]; rfl⟩

theorem idleTicks_add (m n : Nat) (s : State) :
    idleTicks (m + n) s = andThen (idleTicks m s) (idleTicks n) := by
  induction m generalizing s with
  | zero => simp [idleTicks]
  | succ m ih =>
    rw [Nat.succ_add]
    simp only [idleTicks, andThen_assoc]
    congr 1
    funext u
    exact ih u

theorem idleTicks_one (s : State) : idleTicks 1 s = idleTick s := by
  simp only [idleTicks]
  cases idleTick s <;> rfl

end Sys2Proof.Machine
end

