-- ==== Sys2Proof/Laws/Pulse.lean ====
section
/-! SUPPORT. One TCK pulse, tick by tick and as a whole (R104, R202). -/

namespace Sys2Proof.Machine

/-- The state a pulse step leaves, pins of the next step aside. -/
def endOfPulse (p : PulseOp) (s : State) : State :=
  stepAfterPulse (fallingEdge p (risingEdge p s))

/-! ## What the edges depend on -/

@[simp] theorem pulseOp_risingEdge (p : PulseOp) (s : State) : pulseOp (risingEdge p s) = pulseOp s := by
  apply pulseOp_congr <;> simp

theorem risingEdge_withAck (p : PulseOp) (b : Bool) (s : State) :
    risingEdge p (withAck b s) = withAck b (risingEdge p s) := by
  unfold risingEdge
  cases p.capture
  · rfl
  · rcases hd : s.dut with (_ | ⟨b, l⟩) | _ | _ <;> simp [sampleTdo, tdoLevel, dutEdge, withAck, hd]

theorem risingEdge_withHalfCount (p : PulseOp) (n : Nat) (s : State) :
    risingEdge p (withHalfCount n s) = risingEdge p s := by
  unfold risingEdge
  cases p.capture
  · rfl
  · rcases hd : s.dut with (_ | ⟨b, l⟩) | _ | _ <;>
      simp [sampleTdo, tdoLevel, dutEdge, withHalfCount, hd]

theorem stepAfterPulse_withAck (b : Bool) (s : State) :
    stepAfterPulse (withAck b s) = withAck b (stepAfterPulse s) := by
  unfold stepAfterPulse
  cases he : s.eng <;> simp only [withAck_eng, he] <;> rfl

theorem fallingEdge_withAck (p : PulseOp) (b : Bool) (s : State) :
    fallingEdge p (withAck b s) = withAck b (fallingEdge p s) := rfl

theorem fallingEdge_withHalfCount (p : PulseOp) (n : Nat) (s : State) :
    fallingEdge p (withHalfCount n s) = fallingEdge p s := rfl

@[simp] theorem endOfPulse_tck (p : PulseOp) (s : State) : (endOfPulse p s).tck = false := by
  unfold endOfPulse stepAfterPulse; split <;> simp

@[simp] theorem endOfPulse_betweenPulses (p : PulseOp) (s : State) :
    betweenPulses (endOfPulse p s) = true := by
  rw [betweenPulses_iff]; unfold endOfPulse stepAfterPulse; split <;> simp

/-! ## The ticks of a pulse -/

/-- A tick that is not the last of its half-period. -/
theorem idleTick_stretch {s : State} {p : PulseOp} (hp : pulseOp s = some p)
    (h : s.halfCount < s.clockDivider) :
    idleTick s = .next (withAck false (withHalfCount (s.halfCount + 1) s)) := by
  rw [idleTick_pulse hp, drive_within] <;> simp [pulseTick, h, betweenPulses]

/-- The last tick of the low half-period. -/
theorem idleTick_rise {s : State} {p : PulseOp} (hp : pulseOp s = some p)
    (h : s.clockDivider ≤ s.halfCount) (hl : s.tckHalf = .low) :
    idleTick s = .next (withAck false (risingEdge p s)) := by
  rw [idleTick_pulse hp, drive_within] <;> simp [pulseTick, Nat.not_lt.mpr h, hl, betweenPulses]

/-- The last tick of the high half-period. -/
theorem idleTick_fall {s : State} {p : PulseOp} (hp : pulseOp s = some p)
    (h : s.clockDivider ≤ s.halfCount) (hl : s.tckHalf = .high) :
    idleTick s = .next (drive (withAck false (stepAfterPulse (fallingEdge p s)))) := by
  rw [idleTick_pulse hp]
  simp [pulseTick, Nat.not_lt.mpr h, hl]

/-- `n + 1` ticks within a half-period. -/
theorem idleTicks_stretch {s : State} {p : PulseOp} (hp : pulseOp s = some p) (n : Nat)
    (h : s.halfCount + n < s.clockDivider) :
    idleTicks (n + 1) s = .next (withAck false (withHalfCount (s.halfCount + (n + 1)) s)) := by
  induction n generalizing s with
  | zero => rw [idleTicks_one, idleTick_stretch hp h]
  | succ n ih =>
    rw [idleTicks, idleTick_stretch hp (by omega), andThen_next, ih (by simpa using hp) (by simp; omega)]
    simp [withAck_withHalfCount, Nat.add_comm, Nat.add_left_comm]

/-- The ticks within a half-period. -/
theorem idleTicks_part {s : State} {p : PulseOp} (hp : pulseOp s = some p) (h0 : s.halfCount = 0) {n : Nat}
    (hn : n ≤ s.clockDivider) : ∃ b, idleTicks n s = .next (withAck b (withHalfCount n s)) := by
  cases n with
  | zero => exact ⟨s.busAck, by rw [← h0, withHalfCount_self, withAck_self, h0]; rfl⟩
  | succ n =>
    have := idleTicks_stretch hp n (by omega)
    exact ⟨false, by rw [this, h0, Nat.zero_add]⟩

/-- A half-period up to its last tick. -/
theorem idleTicks_half {s : State} {p : PulseOp} (hp : pulseOp s = some p) (h0 : s.halfCount = 0) :
    ∃ b, idleTicks s.clockDivider s = .next (withAck b (withHalfCount s.clockDivider s)) :=
  idleTicks_part hp h0 (Nat.le_refl _)

/-- The low half-period as a whole. -/
theorem idleTicks_low {s : State} {p : PulseOp} (hp : pulseOp s = some p)
    (hl : s.tckHalf = .low) (h0 : s.halfCount = 0) :
    idleTicks (s.clockDivider + 1) s = .next (withAck false (risingEdge p s)) := by
  obtain ⟨b, hb⟩ := idleTicks_half hp h0
  rw [idleTicks_add, hb, andThen_next, idleTicks_one,
    idleTick_rise (p := p) (by simpa using hp) (by simp) (by simpa using hl)]
  simp [risingEdge_withAck, risingEdge_withHalfCount]

/-- The high half-period as a whole, from its first tick. -/
theorem idleTicks_high {s : State} {p : PulseOp} (hp : pulseOp s = some p)
    (hl : s.tckHalf = .high) (h0 : s.halfCount = 0) :
    idleTicks (s.clockDivider + 1) s =
      .next (drive (withAck false (stepAfterPulse (fallingEdge p s)))) := by
  obtain ⟨b, hb⟩ := idleTicks_half hp h0
  rw [idleTicks_add, hb, andThen_next, idleTicks_one,
    idleTick_fall (p := p) (by simpa using hp) (by simp) (by simpa using hl)]
  simp [fallingEdge_withAck, fallingEdge_withHalfCount, stepAfterPulse_withAck]

theorem pulseTicks_eq (s : State) : pulseTicks s = (s.clockDivider + 1) + (s.clockDivider + 1) := by
  unfold pulseTicks; omega

/-- R104, R202: a pulse step from its first tick to its end. -/
theorem idleTicks_pulse {s : State} {p : PulseOp} (hp : pulseOp s = some p)
    (hb : betweenPulses s = true) :
    idleTicks (pulseTicks s) s = .next (drive (withAck false (endOfPulse p s))) := by
  obtain ⟨hl, h0⟩ := betweenPulses_iff.mp hb
  have h := idleTicks_high (s := withAck false (risingEdge p s)) (p := p) (by simpa using hp) (by simp)
    (by simp)
  simp only [withAck_clockDivider, risingEdge_clockDivider] at h
  rw [pulseTicks_eq, idleTicks_add, idleTicks_low hp hl h0, andThen_next, h]
  simp [endOfPulse, fallingEdge_withAck, stepAfterPulse_withAck]

/-- R104, R202: every state within a pulse: the low half, then the high half. -/
theorem idleTicks_within {s : State} {p : PulseOp} (hp : pulseOp s = some p) (hb : betweenPulses s = true)
    {n : Nat} (hn : n < pulseTicks s) : ∃ b j,
      (n ≤ s.clockDivider ∧ idleTicks n s = .next (withAck b (withHalfCount j s))) ∨
      (s.clockDivider < n ∧ idleTicks n s = .next (withAck b (withHalfCount j (risingEdge p s)))) := by
  obtain ⟨hl, h0⟩ := betweenPulses_iff.mp hb
  by_cases h : n ≤ s.clockDivider
  · obtain ⟨b, hb⟩ := idleTicks_part hp h0 h
    exact ⟨b, n, .inl ⟨h, hb⟩⟩
  · obtain ⟨j, rfl⟩ := Nat.exists_eq_add_of_le (Nat.lt_of_not_le h)
    have hp' : pulseOp (withAck false (risingEdge p s)) = some p := by simpa using hp
    obtain ⟨b, hb⟩ := idleTicks_part hp' (by simp) (n := j) (by rw [pulseTicks_eq] at hn; simp; omega)
    exact ⟨b, j, .inr ⟨by omega, by rw [idleTicks_add, idleTicks_low hp hl h0, andThen_next, hb]; rfl⟩⟩

/-! ## Rising edges -/

theorem risingEdges_add {m n : Nat} {s u : State} (h : idleTicks m s = .next u) :
    risingEdges (m + n) s = risingEdges m s ++ risingEdges n u := by
  induction m generalizing s with
  | zero => cases h; simp [risingEdges]
  | succ m ih =>
    obtain ⟨v, hv, h⟩ := andThen_eq_next.mp h
    rw [Nat.succ_add]
    simp only [risingEdges, hv, ih h]
    split <;> simp

/-- A tick after which TCK is 0 shows no edge. -/
theorem risingEdges_one_low {s t : State} (h : idleTick s = .next t) (ht : t.tck = false) :
    risingEdges 1 s = [] := by
  simp [risingEdges, h, ht]

theorem risingEdges_stretch {s : State} {p : PulseOp} (hp : pulseOp s = some p) (n : Nat)
    (h : s.halfCount + n ≤ s.clockDivider) : risingEdges n s = [] := by
  induction n generalizing s with
  | zero => rfl
  | succ n ih =>
    simp only [risingEdges, idleTick_stretch hp (show s.halfCount < s.clockDivider by omega)]
    rw [if_neg (by simp), ih (by simpa using hp) (by simp; omega)]

/-- R104: a pulse is one rising edge, with the levels its pins have. -/
theorem risingEdges_pulse {s : State} {p : PulseOp} (hp : pulseOp s = some p)
    (hb : betweenPulses s = true) (ht : s.tck = false) :
    risingEdges (pulseTicks s) s = [{ tms := s.tms, tdi := s.tdi }] := by
  obtain ⟨hl, h0⟩ := betweenPulses_iff.mp hb
  obtain ⟨b, hb⟩ := idleTicks_half hp h0
  have h2 := idleTick_rise (p := p) (s := withAck b (withHalfCount s.clockDivider s)) (by simpa using hp)
    (by simp) (by simpa using hl)
  rw [risingEdge_withAck, risingEdge_withHalfCount, withAck_withAck] at h2
  have h3 : risingEdges 1 (withAck b (withHalfCount s.clockDivider s)) =
      [{ tms := s.tms, tdi := s.tdi }] := by
    simp [risingEdges, h2, ht]
  have hpw : pulseOp (withAck false (risingEdge p s)) = some p := by simpa using hp
  obtain ⟨c, hc⟩ := idleTicks_half hpw (by simp)
  have h5 := idleTick_fall (p := p)
    (s := withAck c (withHalfCount s.clockDivider (withAck false (risingEdge p s)))) (by simpa using hp)
    (by simp) (by simp)
  simp only [withAck_clockDivider, risingEdge_clockDivider] at hc
  rw [show pulseTicks s = s.clockDivider + (1 + (s.clockDivider + 1)) by rw [pulseTicks_eq]; omega,
    risingEdges_add hb, risingEdges_stretch hp _ (by omega),
    risingEdges_add ((idleTicks_one _).trans h2), h3, risingEdges_add hc,
    risingEdges_stretch hpw _ (by simp), risingEdges_one_low h5]
  · rfl
  · simp only [drive_tck, withAck_tck]
    unfold stepAfterPulse
    split <;> simp

end Sys2Proof.Machine
end

