-- ==== Sys2Proof/Laws/TapGraph.lean ====
section
/-! SUPPORT. The TAP graph: the small facts of the two tables the engine's laws cite. -/

namespace Sys2Proof.Machine

@[simp] theorem tapOfCode_tapCode (s : TapState) : tapOfCode (tapCode s) = s := by cases s <;> rfl

@[simp] theorem tapCode_tapOfCode (c : Nibble) : tapCode (tapOfCode c) = c := by
  revert c; decide

theorem tapRun_append (s : TapState) (l r : List Bool) :
    tapRun s (l ++ r) = tapRun (tapRun s l) r := by
  induction l generalizing s with
  | nil => rfl
  | cons v l ih => exact ih _

/-- R82 (a). -/
theorem tapNext_route_self {s : TapState} (h : isStable s = true) : tapNext s (route s s) = s := by
  cases s <;> first | rfl | simp [isStable, selfLoop] at h

/-- R83: the router's step brings the target one step nearer. -/
theorem distance_step {s t : TapState} (h : s ≠ t) :
    distance s t = distance (tapNext s (route s t)) t + 1 := by
  cases s <;> cases t <;> first | rfl | exact absurd rfl h

@[simp] theorem distance_self (s : TapState) : distance s s = 0 := by cases s <;> rfl

@[simp] theorem path_self (s : TapState) : path s s = [] := by cases s <;> rfl

/-- R88: the path begins with the router's value. -/
theorem path_step {s t : TapState} (h : s ≠ t) :
    path s t = route s t :: path (tapNext s (route s t)) t := by
  cases s <;> cases t <;> first | rfl | exact absurd rfl h

theorem distance_le (s t : TapState) : distance s t ≤ 8 := by
  cases s <;> cases t <;> decide

end Sys2Proof.Machine
end

