-- ==== Sys2Proof/Laws/Run.lean ====
section
/-! SUPPORT. Runs of ticks without a bus access, put together from pulses and bookkeeping steps: the navigation of R107 and
the shift of R112, from their first tick to their last. -/

namespace Sys2Proof.Machine

/-- `n` ticks without a bus access lead from `s` to `u`, show the edges `es`, and start in busy states. -/
structure Run (n : Nat) (s u : State) (es : List Edge) : Prop where
  ticks : idleTicks n s = .next u
  edges : risingEdges n s = es
  busy : ∀ k v, k < n → idleTicks k s = .next v → isBusy v = true

theorem Run.refl (s : State) : Run 0 s s [] :=
  ⟨rfl, rfl, fun _ _ h => absurd h (Nat.not_lt_zero _)⟩

theorem Run.trans {m n : Nat} {s u v : State} {es fs : List Edge} (h : Run m s u es) (g : Run n u v fs) :
    Run (m + n) s v (es ++ fs) where
  ticks := by rw [idleTicks_add, h.ticks, andThen_next, g.ticks]
  edges := by rw [risingEdges_add h.ticks, h.edges, g.edges]
  busy k w hk hw := by
    by_cases hm : k < m
    · exact h.busy k w hm hw
    · obtain ⟨j, rfl⟩ := Nat.exists_eq_add_of_le (Nat.not_lt.mp hm)
      rw [idleTicks_add, h.ticks, andThen_next] at hw
      exact g.busy j w (by omega) hw

/-- A bookkeeping step of a busy engine. -/
theorem Run.one {s u : State} (h : idleTick s = .next u) (hb : isBusy s = true) (ht : u.tck = false) :
    Run 1 s u [] where
  ticks := by rw [idleTicks_one, h]
  edges := risingEdges_one_low h ht
  busy k v hk hv := by
    obtain rfl : k = 0 := by omega
    cases hv; exact hb

theorem isBusy_of_pulseOp {s : State} {p : PulseOp} (h : pulseOp s = some p) : isBusy s = true := by
  by_contra hb
  rw [pulseOp_quiet (by simpa using hb)] at h
  cases h

theorem isBusy_congr {s t : State} (h : t.eng = s.eng) : isBusy t = isBusy s := by
  simp [isBusy, h]

/-- The state a pulse step leaves. -/
def pulsed (p : PulseOp) (s : State) : State := drive (withAck false (endOfPulse p s))

/-- R104: a pulse step as a run. -/
theorem Run.pulse {s : State} {p : PulseOp} (hp : pulseOp s = some p) (hb : betweenPulses s = true)
    (ht : s.tck = false) : Run (pulseTicks s) s (pulsed p s) [{ tms := s.tms, tdi := s.tdi }] where
  ticks := idleTicks_pulse hp hb
  edges := risingEdges_pulse hp hb ht
  busy k v hk hv := by
    rw [← isBusy_of_pulseOp hp]
    apply isBusy_congr
    rcases idleTicks_within hp hb hk with ⟨b, j, ⟨-, h⟩ | ⟨-, h⟩⟩ <;> rw [h] at hv <;> cases hv <;> simp

/-- The first tick of a run, and the rest. -/
theorem Run.uncons {n : Nat} {s u : State} {es : List Edge} (h : Run (n + 1) s u es) :
    isBusy s = true ∧ ∃ v, idleTick s = .next v ∧ Run n v u (risingEdges n v) := by
  obtain ⟨v, hv, hr⟩ := andThen_eq_next.mp h.ticks
  exact ⟨h.busy 0 s (Nat.succ_pos n) rfl, v, hv, hr, rfl, fun k w hk hw =>
    h.busy (k + 1) w (Nat.succ_lt_succ hk) (by simp only [idleTicks, hv, andThen_next, hw])⟩

theorem runToDone_run {n fuel : Nat} {s u : State} {es : List Edge} (h : Run n s u es) (hf : n ≤ fuel) :
    runToDone fuel s = runToDone (fuel - n) u := by
  induction n generalizing s fuel es with
  | zero => cases h.ticks; rfl
  | succ n ih =>
    obtain ⟨f, rfl⟩ : ∃ f, fuel = f + 1 := ⟨fuel - 1, by omega⟩
    obtain ⟨hb, v, hv, hrun⟩ := h.uncons
    have hs : s.eng ≠ .done := fun he => by simp [isBusy, he] at hb
    simp only [runToDone, if_neg hs, hv, andThen_next]
    rw [ih hrun (by omega), Nat.add_sub_add_right]

theorem runToDone_done {s : State} (h : s.eng = .done) (fuel : Nat) : runToDone fuel s = .next s := by
  cases fuel <;> simp [runToDone, h]

theorem runToDone_of_run {n fuel : Nat} {s u : State} {es : List Edge} (h : Run n s u es)
    (hu : u.eng = .done) (hf : n ≤ fuel) : runToDone fuel s = .next u := by
  rw [runToDone_run h hf, runToDone_done hu]

/-! ## The device under test, by itself -/

/-- The level of `tdo` (R33), from the device's own state. -/
def devLevel (tdi : Bool) : Dut → Nat → Bool
  | .samples (b :: _), _ => b
  | .samples [], n => Config.tdoLevel n
  | .loopback, _ => tdi
  | .register bits, _ => bits.headD tdi

/-- What taking a sample leaves: the device and the draw counter. -/
def devSample : Dut → Nat → Dut × Nat
  | .samples (_ :: l), n => (.samples l, n)
  | .samples [], n => (.samples [], n + 1)
  | .loopback, n => (.loopback, n)
  | .register bits, n => (.register bits, n)

/-- What a rising edge does to the device's register. -/
def devShift (tdi : Bool) (tap : TapState) : Dut → Dut
  | .samples l => .samples l
  | .loopback => .loopback
  | .register bits =>
    if tap = .shiftDr ∨ tap = .shiftIr then .register (shiftRegister tdi bits) else .register bits

/-- The device after edges at which it is not sampled. -/
def devNavigate : List Edge → TapState → Dut → Dut
  | [], _, d => d
  | e :: es, tap, d => devNavigate es (tapNext tap e.tms) (devShift e.tdi tap d)

/-- The samples of edges at which it is sampled, and the device and the draw counter after them. -/
def devCapture : List Edge → TapState → Dut → Nat → List Bool × Dut × Nat
  | [], _, d, n => ([], d, n)
  | e :: es, tap, d, n =>
    let r := devCapture es (tapNext tap e.tms) (devShift e.tdi tap (devSample d n).1) (devSample d n).2
    (devLevel e.tdi d n :: r.1, r.2)

theorem tdoLevel_eq (s : State) : tdoLevel s = devLevel s.tdi s.dut s.draws := by
  unfold tdoLevel devLevel; split <;> simp_all

theorem dutEdge_eq (s : State) :
    dutEdge s = { s with dut := devShift s.tdi s.dutTap s.dut, dutTap := tapNext s.dutTap s.tms } := by
  unfold dutEdge devShift; rfl

theorem sampleTdo_eq (s : State) : sampleTdo s = { s with
    tdoSample := tdoLevel s, dut := (devSample s.dut s.draws).1, draws := (devSample s.dut s.draws).2 } := by
  unfold sampleTdo
  split <;> simp_all [devSample, tdoLevel]

@[simp] theorem devNavigate_samples (es : List Edge) (tap : TapState) (l : List Bool) :
    devNavigate es tap (.samples l) = .samples l := by
  induction es generalizing tap with
  | nil => rfl
  | cons e es ih => exact ih _

@[simp] theorem devNavigate_loopback (es : List Edge) (tap : TapState) :
    devNavigate es tap .loopback = .loopback := by
  induction es generalizing tap with
  | nil => rfl
  | cons e es ih => exact ih _

theorem devCapture_length (es : List Edge) (tap : TapState) (d : Dut) (n : Nat) :
    (devCapture es tap d n).1.length = es.length := by
  induction es generalizing tap d n with
  | nil => rfl
  | cons e es ih => simp [devCapture, ih]

/-- R33: scripted samples are taken in order, then free values. -/
theorem devCapture_samples {es : List Edge} {tap : TapState} {l : List Bool} {n i : Nat} (hi : i < es.length) :
    (devCapture es tap (.samples l) n).1[i]? = some ((l[i]?).getD (Config.tdoLevel (n + (i - l.length)))) := by
  induction es generalizing tap l n i with
  | nil => cases hi
  | cons e es ih =>
    cases l with
    | nil =>
      cases i with
      | zero => simp [devCapture, devLevel]
      | succ i =>
        have := ih (tap := tapNext tap e.tms) (l := []) (n := n + 1) (i := i) (by simpa using hi)
        simp [devCapture, devSample, devShift, this]
        congr 1; omega
    | cons b l =>
      cases i with
      | zero => simp [devCapture, devLevel]
      | succ i =>
        have := ih (tap := tapNext tap e.tms) (l := l) (n := n) (i := i) (by simpa using hi)
        simp [devCapture, devSample, devShift, this]

theorem devCapture_samples_rest (es : List Edge) (tap : TapState) (l : List Bool) (n : Nat) :
    (devCapture es tap (.samples l) n).2 = (.samples (l.drop es.length), n + (es.length - l.length)) := by
  induction es generalizing tap l n with
  | nil => simp [devCapture]
  | cons e es ih =>
    cases l with
    | nil => simp [devCapture, devSample, devShift, ih, Nat.add_comm, Nat.add_left_comm]
    | cons b l => simp [devCapture, devSample, devShift, ih]

theorem devCapture_loopback (es : List Edge) (tap : TapState) (n : Nat) :
    devCapture es tap .loopback n = (es.map (·.tdi), .loopback, n) := by
  induction es generalizing tap n with
  | nil => rfl
  | cons e es ih => simp [devCapture, devSample, devShift, devLevel, ih]

/-- A register of `n` bits is a delay of `n` edges. -/
theorem devCapture_register {es : List Edge} {tap : TapState} {bits : List Bool} {n i : Nat}
    (htap : tap = .shiftDr ∨ tap = .shiftIr)
    (hstay : ∀ (j : Nat) (h : j < es.length), j + 1 < es.length → es[j].tms = false) (hi : i < es.length) :
    (devCapture es tap (.register bits) n).1[i]? =
      some ((bits ++ es.map (·.tdi))[i]'(by simp; omega)) := by
  induction es generalizing tap bits n i with
  | nil => cases hi
  | cons e es ih =>
    cases i with
    | zero => cases bits <;> simp [devCapture, devLevel]
    | succ i =>
      have h0 := hstay 0 (by simp) (by simp at hi ⊢; omega)
      have ht : tapNext tap e.tms = tap := by
        simp at h0; rw [h0]; rcases htap with h | h <;> rw [h] <;> rfl
      simp only [devCapture, List.getElem?_cons_succ, ht, devSample, devShift, if_pos htap]
      rw [ih htap (fun j h hj => by
        have := hstay (j+1) (by simpa using h) (by simpa using hj); simpa using this) (by simpa using hi)]
      congr 1
      cases bits with
      | nil => simp [shiftRegister]
      | cons b bits => simp [shiftRegister]
/-! ## Navigation -/

@[simp] theorem tmsAfter_nil (b : Bool) : tmsAfter b [] = b := rfl

@[simp] theorem tmsAfter_cons (b v : Bool) (l : List Bool) : tmsAfter b (v :: l) = tmsAfter v l := by
  simp [tmsAfter, List.getLast?_cons]

theorem tmsAfter_append (b : Bool) (l r : List Bool) : tmsAfter b (l ++ r) = tmsAfter (tmsAfter b l) r := by
  induction l generalizing b with
  | nil => rfl
  | cons v l ih => simp [ih]

theorem pulseOp_nav {s : State} (he : s.eng = .gotoStart ∨ s.eng = .gotoState) (hc : s.curState ≠ s.target) :
    pulseOp s = some { tms := route s.curState s.target, tdi := none, capture := false } := by
  rcases he with he | he <;> simp [pulseOp, he, hc]

theorem pulseOp_arrived {s : State} (he : s.eng = .gotoStart ∨ s.eng = .gotoState) (hc : s.curState = s.target) :
    pulseOp s = none := by
  rcases he with he | he <;> simp [pulseOp, he, hc]

/-- The pins of a navigation step that is about to begin. -/
theorem drive_nav {s : State} (he : s.eng = .gotoStart ∨ s.eng = .gotoState) (hb : betweenPulses s = true) :
    drive s =
      withPins (if s.curState = s.target then s.tms else route s.curState s.target) s.tdi s := by
  by_cases hc : s.curState = s.target
  · rw [drive_none (pulseOp_arrived he hc), if_pos hc]; rfl
  · rw [drive_some (pulseOp_nav he hc) hb, if_neg hc]; rfl

@[simp] theorem navigated_navigated (c c' : TapState) (v v' a a' : Bool) (d d' : Dut) (t t' : TapState) (s : State) :
    navigated c v a d t (navigated c' v' a' d' t' s) = navigated c v a d t s := rfl

@[simp] theorem navigated_self (s : State) :
    navigated s.curState s.tms s.busAck s.dut s.dutTap s = s := rfl

@[simp] theorem betweenPulses_navigated (c : TapState) (v a : Bool) (d : Dut) (t : TapState) (s : State) :
    betweenPulses (navigated c v a d t s) = betweenPulses s := rfl

/-- The end of a pulse whose step changes nothing else and takes no sample. -/
theorem endOfPulse_plain {s : State} (v : Bool) (hb : betweenPulses s = true) (ht : s.tck = false) :
    fallingEdge { tms := v, tdi := none, capture := false }
        (risingEdge { tms := v, tdi := none, capture := false } s) =
      navigated (tapNext s.curState v) s.tms s.busAck (devShift s.tdi s.dutTap s.dut)
        (tapNext s.dutTap s.tms) s := by
  obtain ⟨hl, h0⟩ := betweenPulses_iff.mp hb
  apply State.ext <;> simp [hl, h0, ht, risingEdge, fallingEdge, dutEdge_eq]

/-- One pulse of a navigation. -/
theorem pulsed_nav {s : State} (he : s.eng = .gotoStart ∨ s.eng = .gotoState)
    (hb : betweenPulses s = true) (ht : s.tck = false) {v : Bool} (hp : s.tms = v) :
    pulsed { tms := v, tdi := none, capture := false } s =
      navigated (tapNext s.curState v)
        (if tapNext s.curState v = s.target then v else route (tapNext s.curState v) s.target) false
        (devShift s.tdi s.dutTap s.dut) (tapNext s.dutTap v) s := by
  have h : stepAfterPulse (fallingEdge { tms := v, tdi := none, capture := false }
      (risingEdge { tms := v, tdi := none, capture := false } s)) =
      fallingEdge { tms := v, tdi := none, capture := false }
        (risingEdge { tms := v, tdi := none, capture := false } s) := by
    unfold stepAfterPulse
    rcases he with he | he <;> simp [he]
  rw [pulsed, endOfPulse, h, endOfPulse_plain v hb ht, drive_nav (by simpa using he) (by simpa using hb)]
  simp only [withAck_curState, navigated_curState, withAck_target, navigated_target, hp]
  rfl

/-- R107: the navigation, from its first tick to the arrival, as one run. -/
theorem Run.navigate {s : State} (he : s.eng = .gotoStart ∨ s.eng = .gotoState) (hb : betweenPulses s = true)
    (ht : s.tck = false) (hp : pinsDriven s) :
    ∃ a, Run (distance s.curState s.target * pulseTicks s) s
      (navigated s.target (tmsAfter s.tms (path s.curState s.target)) a
        (devNavigate ((path s.curState s.target).map fun v => { tms := v, tdi := s.tdi }) s.dutTap s.dut)
        (tapRun s.dutTap (path s.curState s.target)) s)
      ((path s.curState s.target).map fun v => { tms := v, tdi := s.tdi }) := by
  generalize hn : distance s.curState s.target = n
  induction n generalizing s with
  | zero =>
    have hc : s.curState = s.target := by
      by_contra h
      rw [distance_step h] at hn
      cases hn
    refine ⟨s.busAck, ?_⟩
    simpa [← hc, tapRun, devNavigate] using Run.refl s
  | succ n ih =>
    have hc : s.curState ≠ s.target := fun h => by simp [h] at hn
    have hv := (hp _ (pulseOp_nav he hc)).1
    have hr := Run.pulse (pulseOp_nav he hc) hb ht
    have hd := distance_step hc
    rw [path_step hc]
    have hpin := pinsDriven_drive (s := withAck false (endOfPulse
      { tms := route s.curState s.target, tdi := none, capture := false } s)) (by simp)
    change pinsDriven (pulsed _ s) at hpin
    rw [pulsed_nav he hb ht hv] at hr hpin
    generalize route s.curState s.target = v at *
    obtain ⟨a, hrun⟩ := ih (by simpa using he) (by simpa using hb) (by simpa using ht) hpin
      (by simp; omega)
    refine ⟨a, ?_⟩
    have := hr.trans hrun
    by_cases hc' : tapNext s.curState v = s.target
    · simpa [hc', tapRun, devNavigate, pulseTicks, hv, Nat.succ_mul, Nat.add_comm] using this
    · simpa [path_step hc', hc', tapRun, devNavigate, pulseTicks, hv, Nat.succ_mul, Nat.add_comm] using this

/-! ## The shift -/

/-- The edges of the next `n` bits of a shift (R111, R112). -/
def shiftEdges (n : Nat) (s : State) : List Edge :=
  (List.range n).map fun j =>
    { tms := if s.bitIndex.toNat + j + 1 = s.chainLength.toNat then s.endTms else s.scanTms
      tdi := readBit s (s.bitIndex.toNat + j) }

theorem shiftTms_eq {s : State} (hi : s.bitIndex.toNat < s.chainLength.toNat) :
    shiftTms s = if s.bitIndex.toNat + 1 = s.chainLength.toNat then s.endTms else s.scanTms := by
  unfold shiftTms
  have : s.bitIndex = s.chainLength - 1 ↔ s.bitIndex.toNat + 1 = s.chainLength.toNat := by bv_omega
  simp only [this]

theorem pulseOp_shift {s : State} (he : s.eng = .shift) (hi : s.bitIndex.toNat < s.chainLength.toNat) :
    pulseOp s = some
      { tms := shiftTms s, tdi := some (readBit s s.bitIndex.toNat), capture := true } := by
  have : s.bitIndex ≠ s.chainLength := by bv_omega
  simp [pulseOp, he, this]

theorem pulseOp_shifted_out {s : State} (he : s.eng = .shift) (hi : s.bitIndex = s.chainLength) :
    pulseOp s = none := by
  simp [pulseOp, he, hi]

@[simp] theorem readBit_shifted (i : BitVec 16) (m : Memory) (c : TapState) (v x b a : Bool) (d : Dut) (t : TapState)
    (n : Nat) (s : State) (j : Nat) :
    readBit (shifted i m c v x b a d t n s) j = readBit { s with buf := m } j := rfl

@[simp] theorem shifted_shifted (i i' : BitVec 16) (m m' : Memory) (c c' : TapState) (v v' x x' b b' a a' : Bool)
    (d d' : Dut) (t t' : TapState) (n n' : Nat) (s : State) :
    shifted i m c v x b a d t n (shifted i' m' c' v' x' b' a' d' t' n' s) =
      shifted i m c v x b a d t n s := rfl

@[simp] theorem shifted_self (s : State) :
    shifted s.bitIndex s.buf s.curState s.tms s.tdi s.tdoSample s.busAck s.dut s.dutTap s.draws s = s := rfl

/-- The pins of a shift step that is about to begin, or of the step that leaves SHIFT. -/
theorem drive_shift {s : State} (he : s.eng = .shift) (hb : betweenPulses s = true)
    (hi : s.bitIndex.toNat ≤ s.chainLength.toNat) :
    drive s = withPins (if s.bitIndex.toNat = s.chainLength.toNat then s.tms else shiftTms s)
      (if s.bitIndex.toNat = s.chainLength.toNat then s.tdi else readBit s s.bitIndex.toNat) s := by
  by_cases h : s.bitIndex.toNat = s.chainLength.toNat
  · rw [drive_none (pulseOp_shifted_out he (BitVec.eq_of_toNat_eq h)), if_pos h, if_pos h]; rfl
  · rw [drive_some (pulseOp_shift he (by omega)) hb, if_neg h, if_neg h]; rfl

/-- One pulse of the shift. -/
theorem pulsed_shift {s : State} (he : s.eng = .shift) (hb : betweenPulses s = true) (ht : s.tck = false)
    (hi : s.bitIndex.toNat < s.chainLength.toNat) (hv : s.tms = shiftTms s)
    (hx : s.tdi = readBit s s.bitIndex.toNat) :
    ∃ v x, pulsed { tms := shiftTms s, tdi := some (readBit s s.bitIndex.toNat), capture := true } s =
      shifted (s.bitIndex + 1) (writeBit s s.bitIndex.toNat (tdoLevel s)).buf
        (tapNext s.curState (shiftTms s)) v x (tdoLevel s) false
        (devShift s.tdi s.dutTap (devSample s.dut s.draws).1) (tapNext s.dutTap (shiftTms s))
        (devSample s.dut s.draws).2 s ∧
      (s.bitIndex.toNat + 1 = s.chainLength.toNat → v = shiftTms s ∧ x = readBit s s.bitIndex.toNat) := by
  obtain ⟨hl, h0⟩ := betweenPulses_iff.mp hb
  generalize hp : ({ tms := shiftTms s, tdi := some (readBit s s.bitIndex.toNat), capture := true } : PulseOp) = p
  have h : withAck false (endOfPulse p s) =
      shifted (s.bitIndex + 1) (writeBit s s.bitIndex.toNat (tdoLevel s)).buf
        (tapNext s.curState (shiftTms s)) s.tms s.tdi (tdoLevel s) false
        (devShift s.tdi s.dutTap (devSample s.dut s.draws).1) (tapNext s.dutTap (shiftTms s))
        (devSample s.dut s.draws).2 s := by
    have h1 : endOfPulse p s = captureBit (fallingEdge p (risingEdge p s)) := by
      simp [endOfPulse, stepAfterPulse, he]
    rw [h1]
    subst hp
    apply State.ext <;>
      simp [hl, h0, ht, hv, risingEdge, fallingEdge, dutEdge_eq, sampleTdo_eq, captureBit, readByte]
  have hn : (s.bitIndex + 1).toNat = s.bitIndex.toNat + 1 := by bv_omega
  rw [pulsed, h, drive_shift (by simpa using he) (by exact hb) (by simp; omega)]
  refine ⟨_, _, rfl, fun h => ?_⟩
  have hn' : (s.bitIndex + 1).toNat = s.chainLength.toNat := hn.trans h
  simp only [shifted_bitIndex, shifted_chainLength, shifted_tms, shifted_tdi, hn', if_true, hv, hx, and_self]

theorem shiftEdges_succ {n : Nat} {s t : State} (hi : t.bitIndex.toNat = s.bitIndex.toNat + 1)
    (hL : t.chainLength = s.chainLength) (he : t.endTms = s.endTms) (hs : t.scanTms = s.scanTms)
    (hb : ∀ j, j ≠ s.bitIndex.toNat → readBit t j = readBit s j)
    (hlt : s.bitIndex.toNat < s.chainLength.toNat) :
    shiftEdges (n + 1) s =
      { tms := shiftTms s, tdi := readBit s s.bitIndex.toNat } :: shiftEdges n t := by
  simp only [shiftEdges, List.range_succ_eq_map, List.map_cons, List.map_map, Nat.add_zero, shiftTms_eq hlt,
    hi, hL, he, hs]
  congr 1
  apply List.map_congr_left
  intro j _
  simp only [Function.comp, Edge.mk.injEq]
  rw [hb _ (by omega), show s.bitIndex.toNat + (j.succ) = s.bitIndex.toNat + 1 + j by omega]
  exact ⟨rfl, rfl⟩

/-- R112: the shift, from a state with `n` bits to go to the last, as one run. -/
theorem Run.shift {n : Nat} {s : State} (he : s.eng = .shift) (hb : betweenPulses s = true) (ht : s.tck = false)
    (hp : pinsDriven s) (hL : s.bitIndex.toNat + n = s.chainLength.toNat)
    (hc : n ≤ 1 ∨ tapNext s.curState s.scanTms = s.curState) :
    ∃ u m a b, Run (n * pulseTicks s) s u (shiftEdges n s) ∧
      u = shifted s.chainLength m (if n = 0 then s.curState else tapNext s.curState s.endTms)
        (if n = 0 then s.tms else s.endTms)
        (if n = 0 then s.tdi else readBit s (s.chainLength.toNat - 1)) b a
        (devCapture (shiftEdges n s) s.dutTap s.dut s.draws).2.1
        (tapRun s.dutTap ((shiftEdges n s).map (·.tms)))
        (devCapture (shiftEdges n s) s.dutTap s.dut s.draws).2.2 s ∧
      (∀ j, j < n → (devCapture (shiftEdges n s) s.dutTap s.dut s.draws).1[j]? =
        some (readBit u (s.bitIndex.toNat + j))) ∧
      (∀ j, j < s.bitIndex.toNat ∨ s.chainLength.toNat ≤ j → readBit u j = readBit s j) := by
  induction n generalizing s with
  | zero =>
    have : s.chainLength = s.bitIndex := by bv_omega
    refine ⟨s, s.buf, s.busAck, s.tdoSample, ?_, ?_, by simp, fun _ _ => rfl⟩
    · simpa [shiftEdges] using Run.refl s
    · simp [shiftEdges, devCapture, tapRun, this]
  | succ n ih =>
    have hi : s.bitIndex.toNat < s.chainLength.toNat := by omega
    have hop := pulseOp_shift he hi
    obtain ⟨hv, hx⟩ := hp _ hop
    replace hv : s.tms = shiftTms s := hv
    replace hx : s.tdi = readBit s s.bitIndex.toNat := hx _ rfl
    have hr := Run.pulse hop hb ht
    obtain ⟨v, x, hu, hlast⟩ := pulsed_shift he hb ht hi hv hx
    have hpin := pinsDriven_drive (s := withAck false (endOfPulse
      { tms := shiftTms s, tdi := some (readBit s s.bitIndex.toNat), capture := true } s)) (by simp)
    change pinsDriven (pulsed _ s) at hpin
    rw [hu] at hr hpin
    generalize hw : shifted _ _ _ v x _ _ _ _ _ s = w at hr hpin
    have hwi : w.bitIndex.toNat = s.bitIndex.toNat + 1 := by
      rw [← hw, shifted_bitIndex]; bv_omega
    have hwb : ∀ j, j ≠ s.bitIndex.toNat → readBit w j = readBit s j := by
      intro j hj; rw [← hw]; exact readBit_writeBit_ne s _ hj
    have hwi' : readBit w s.bitIndex.toNat = tdoLevel s := by
      rw [← hw]; exact readBit_writeBit_same s _ _
    have hwc : w.curState = tapNext s.curState (shiftTms s) := by rw [← hw]; rfl
    have hwv : w.tms = v := by rw [← hw]; rfl
    have hwx : w.tdi = x := by rw [← hw]; rfl
    have hwL : w.chainLength = s.chainLength := by rw [← hw]; rfl
    have hwe : w.endTms = s.endTms := by rw [← hw]; rfl
    have hws : w.scanTms = s.scanTms := by rw [← hw]; rfl
    have hwt : w.dutTap = tapNext s.dutTap (shiftTms s) := by rw [← hw]; rfl
    have hwp : pulseTicks w = pulseTicks s := by rw [← hw]; rfl
    have hse := shiftEdges_succ (n := n) hwi hwL hwe hws hwb hi
    have hd : devCapture (shiftEdges (n + 1) s) s.dutTap s.dut s.draws =
        (tdoLevel s :: (devCapture (shiftEdges n w) w.dutTap w.dut w.draws).1,
          (devCapture (shiftEdges n w) w.dutTap w.dut w.draws).2) := by
      rw [hse, devCapture, ← hw, tdoLevel_eq, hx]
      rfl
    have htap : tapRun s.dutTap ((shiftEdges (n + 1) s).map (·.tms)) =
        tapRun w.dutTap ((shiftEdges n w).map (·.tms)) := by
      rw [hse, hwt]; rfl
    have hcont : n ≤ 1 ∨ tapNext w.curState w.scanTms = w.curState := by
      rcases Nat.lt_or_ge 1 n with h | h
      · have := hc.resolve_left (by omega)
        rw [hwc, hws, shiftTms_eq hi, if_neg (by omega), this, this]; exact .inr rfl
      · exact .inl h
    obtain ⟨u, m, a, b, hrun, hufin, hcap, hkeep⟩ := ih (s := w) (by rw [← hw]; exact he)
      (by rw [← hw]; exact hb) (by rw [← hw]; exact ht) hpin (by rw [hwi, hwL]; omega) hcont
    refine ⟨u, m, a, b, ?_, ?_, ?_, ?_⟩
    · have h := hr.trans hrun
      rw [hwp, show pulseTicks s + n * pulseTicks s = (n + 1) * pulseTicks s by rw [Nat.succ_mul, Nat.add_comm]] at h
      rw [hse]
      simpa [hv, hx] using h
    · rw [hufin, hd, htap, if_neg (Nat.succ_ne_zero n), if_neg (Nat.succ_ne_zero n),
        if_neg (Nat.succ_ne_zero n), hwL, hwe, hwv, hwx, hwc]
      by_cases h0 : n = 0
      · subst h0
        obtain ⟨rfl, rfl⟩ := hlast (by omega)
        rw [if_pos rfl, if_pos rfl, if_pos rfl, shiftTms_eq hi, if_pos (by omega), ← hw, shifted_shifted,
          show s.chainLength.toNat - 1 = s.bitIndex.toNat by omega]
      · have := hc.resolve_left (by omega)
        rw [if_neg h0, if_neg h0, if_neg h0, shiftTms_eq hi, if_neg (by omega), this,
          hwb _ (by omega), ← hw, shifted_shifted]
    · intro j hj
      rw [hd]
      cases j with
      | zero =>
        rw [List.getElem?_cons_zero, Nat.add_zero, hkeep _ (.inl (by omega)), hwi']
      | succ j =>
        rw [List.getElem?_cons_succ, hcap j (by omega), hwi]
        congr 2; omega
    · intro j hj
      rw [hkeep j (by rw [hwi, hwL]; omega), hwb j (by omega)]

end Sys2Proof.Machine
end

