-- ==== Sys2Proof/Laws/Command.lean ====
section
/-! SUPPORT. The three commands as runs of ticks, from the dispatch to DONE (R106, R113, R117). -/

namespace Sys2Proof.Machine

theorem dispatch_tick {s : State} (hp : pulseOp s = none) (he : s.eng = .idle) :
    idleTick s = .next (drive (withAck false (stepIdle s))) := by
  simp [idleTick_none hp, bookkeepingTick, he]

theorem pulseOp_idle {s : State} (he : s.eng = .idle) : pulseOp s = none := by simp [pulseOp, he]

theorem triggered_iff {s : State} : triggered s = true ↔ s.eng = .idle ∧ s.pending = true := by
  simp [triggered]

/-- The tick of a dispatch. -/
theorem idleTick_dispatch {s : State} (h : triggered s = true) :
    (s.command = 1#3 → idleTick s = .next (drive (withAck false (dispatchScan s)))) ∧
    (s.command = 2#3 → idleTick s = .next (drive (withAck false (dispatchReset s)))) ∧
    (s.command = 3#3 → idleTick s = .next (drive (withAck false (dispatchState s)))) := by
  obtain ⟨he, hp⟩ := triggered_iff.mp h
  rw [dispatch_tick (pulseOp_idle he) he]
  refine ⟨fun hc => ?_, fun hc => ?_, fun hc => ?_⟩ <;> simp [stepIdle, hp, hc]

/-- A bookkeeping step of a busy engine, by its phase. -/
theorem idleTick_step {s u : State} (hp : pulseOp s = none) (h : bookkeepingTick s = .next u) :
    idleTick s = .next (drive (withAck false u)) := by
  simp [idleTick_none hp, h]

theorem drive_preShift {s : State} (he : s.eng = .preShift) : drive s = s := drive_none (by simp [pulseOp, he])
theorem drive_clearBuffer {s : State} (he : s.eng = .clearBuffer) : drive s = s :=
  drive_none (by simp [pulseOp, he])
theorem drive_done {s : State} (he : s.eng = .done) : drive s = s := drive_none (by simp [pulseOp, he])
theorem drive_idle {s : State} (he : s.eng = .idle) : drive s = s := drive_none (by simp [pulseOp, he])

/-- The pin the router has already set makes no difference to what TMS is after the path. -/
theorem tmsAfter_path (v : Bool) (c t : TapState) :
    tmsAfter (if c = t then v else route c t) (path c t) = tmsAfter v (path c t) := by
  by_cases hc : c = t
  · simp [hc]
  · simp [path_step hc]

/-- R114: from the entry into GOTO_STATE to DONE. -/
theorem Run.gotoState {s : State} (he : s.eng = .gotoState) (hb : betweenPulses s = true) (ht : s.tck = false)
    (hp : pinsDriven s) :
    Run (distance s.curState s.target * pulseTicks s + 1) s
      (enterDone (navigated s.target (tmsAfter s.tms (path s.curState s.target)) false
        (devNavigate ((path s.curState s.target).map fun v => { tms := v, tdi := s.tdi }) s.dutTap s.dut)
        (tapRun s.dutTap (path s.curState s.target)) s))
      ((path s.curState s.target).map fun v => { tms := v, tdi := s.tdi }) := by
  obtain ⟨a, h⟩ := Run.navigate (.inr he) hb ht hp
  have h1 := idleTick_step (pulseOp_arrived (s := navigated s.target
    (tmsAfter s.tms (path s.curState s.target)) a
    (devNavigate ((path s.curState s.target).map fun v => { tms := v, tdi := s.tdi }) s.dutTap s.dut)
    (tapRun s.dutTap (path s.curState s.target)) s) (.inr he) rfl)
    (by rw [bookkeepingTick, navigated_eng, he])
  rw [drive_done rfl] at h1
  have := h.trans (Run.one h1 (by simp [isBusy, he]) (by simpa using ht))
  rw [List.append_nil] at this
  exact this

/-- R113: STATE from its dispatch. -/
theorem Run.state {s : State} (hb : betweenPulses s = true) (ht : s.tck = false) :
    Run (distance s.curState s.endState * pulseTicks s + 1) (drive (withAck false (dispatchState s)))
      (enterDone (navigated s.endState (tmsAfter s.tms (path s.curState s.endState)) false
        (devNavigate ((path s.curState s.endState).map fun v => { tms := v, tdi := s.tdi }) s.dutTap s.dut)
        (tapRun s.dutTap (path s.curState s.endState)) (dispatchState s)))
      ((path s.curState s.endState).map fun v => { tms := v, tdi := s.tdi }) := by
  have hpin := pinsDriven_drive (s := withAck false (dispatchState s)) (by exact hb)
  have hd : drive (withAck false (dispatchState s)) =
      withPins (if s.curState = s.endState then s.tms else route s.curState s.endState) s.tdi
        (withAck false (dispatchState s)) := drive_nav (.inr rfl) hb
  rw [hd] at hpin ⊢
  have h := Run.gotoState (by rfl) (by exact hb) (by exact ht) hpin
  rw [← tmsAfter_path]
  exact h

/-! ## SCAN -/

/-- The pins at shift entry. -/
theorem drive_enterShift {s : State} (hb : betweenPulses s = true) (h0 : s.bitIndex = 0) :
    drive (enterShift s) = withPins
      (if s.chainLength.toNat = 0 then s.tms
        else if s.chainLength.toNat = 1 then route s.scanState s.endState else route s.scanState s.scanState)
      (if s.chainLength.toNat = 0 then s.tdi else readBit s 0) (enterShift s) := by
  by_cases h : s.chainLength.toNat = 0
  · rw [drive_none (pulseOp_shifted_out (s := enterShift s) rfl (h0.trans (BitVec.eq_of_toNat_eq (by simpa using h.symm)))),
      if_pos h, if_pos h]
    rfl
  · have hlt : (enterShift s).bitIndex.toNat < (enterShift s).chainLength.toNat := by
      rw [enterShift_bitIndex, h0, enterShift_chainLength]; simpa using Nat.pos_of_ne_zero h
    rw [drive_some (pulseOp_shift (s := enterShift s) rfl hlt) hb, if_neg h, if_neg h, shiftTms_eq hlt, enterShift_bitIndex, h0]
    have : (0 : BitVec 16).toNat + 1 = s.chainLength.toNat ↔ s.chainLength.toNat = 1 := by
      simp [eq_comm]
    simp only [enterShift_chainLength, this]
    rfl

/-- The pulses of the shift of a SCAN. -/
def scanShiftEdges (s : State) : List Edge :=
  (List.range s.chainLength.toNat).map fun i => { tms := shiftTmsAt s i, tdi := readBit s i }

/-- The pulses to SCAN_STATE. -/
def scanStartEdges (s : State) : List Edge :=
  (path s.curState s.scanState).map fun v => { tms := v, tdi := s.tdi }

/-- The pulses to END_STATE. -/
def scanEndEdges (s : State) : List Edge :=
  (path (afterShift s) s.endState).map fun v => { tms := v, tdi := tdiAfterScan s }

theorem scanEdges_eq (s : State) : scanEdges s = scanStartEdges s ++ scanShiftEdges s ++ scanEndEdges s := rfl

/-- The samples of a SCAN, and the device and the draw counter after them. -/
def scanSamples (s : State) : List Bool × Dut × Nat :=
  devCapture (scanShiftEdges s) (tapRun s.dutTap (path s.curState s.scanState))
    (devNavigate (scanStartEdges s) s.dutTap s.dut) s.draws

theorem shiftEdges_scan {s t : State} (h0 : t.bitIndex = 0) (hL : t.chainLength = s.chainLength)
    (he : t.endTms = route s.scanState s.endState) (hs : t.scanTms = route s.scanState s.scanState)
    (hb : ∀ j, readBit t j = readBit s j) : shiftEdges s.chainLength.toNat t = scanShiftEdges s := by
  simp [shiftEdges, scanShiftEdges, shiftTmsAt, h0, hL, he, hs, hb]

/-- The last pulse of the shift leaves SCAN_STATE on the value R123 gives. -/
theorem shiftEdges_tms (s : State) : (scanEdges s).map (·.tms) =
    path s.curState s.scanState ++ (scanShiftEdges s).map (·.tms) ++ path (afterShift s) s.endState := by
  simp [scanEdges_eq, scanStartEdges, scanEndEdges, Function.comp_def]

theorem scanShiftEdges_last {s : State} (h : s.chainLength.toNat ≠ 0) (v : Bool) :
    tmsAfter v ((scanShiftEdges s).map (·.tms)) = route s.scanState s.endState := by
  obtain ⟨n, hn⟩ := Nat.exists_eq_succ_of_ne_zero h
  simp [scanShiftEdges, hn, List.range_succ, tmsAfter_append, shiftTmsAt]

theorem scanShiftEdges_nil {s : State} (h : s.chainLength.toNat = 0) : scanShiftEdges s = [] := by
  simp [scanShiftEdges, h]

/-- R110: entering SHIFT, from the arrival in SCAN_STATE. -/
theorem Run.enterShift {s : State} (he : s.eng = .gotoStart) (hc : s.curState = s.target) (ht : s.tck = false)
    (hs : isStable s.scanState = true) (hL : s.chainLength.toNat ≤ Config.bufBits) :
    Run 1 s (drive (withAck false (enterShift s))) [] := by
  refine Run.one (idleTick_step (pulseOp_arrived (.inl he) hc) ?_) (by simp [isBusy, he]) (by simpa using ht)
  rw [bookkeepingTick, he]
  simp [shiftEntry, hs, Nat.not_lt.mpr hL]

/-- R106: SCAN from its dispatch to the arrival in SCAN_STATE. -/
theorem Run.scanArrive {s : State} (hb : betweenPulses s = true) (ht : s.tck = false) :
    ∃ a, Run (2 + distance s.curState s.scanState * pulseTicks s) (drive (withAck false (dispatchScan s)))
      (navigated s.scanState (tmsAfter s.tms (path s.curState s.scanState)) a
        (devNavigate (scanStartEdges s) s.dutTap s.dut) (tapRun s.dutTap (path s.curState s.scanState))
        (leaveClearBuffer (dispatchScan s)))
      (scanStartEdges s) := by
  rw [drive_preShift (by rfl)]
  have h1 : Run 1 (withAck false (dispatchScan s)) (withAck false (leavePreShift (dispatchScan s))) [] :=
    Run.one (by
      rw [idleTick_step (u := leavePreShift (withAck false (dispatchScan s))) rfl rfl, drive_clearBuffer rfl]
      rfl) rfl ht
  have h2 : Run 1 (withAck false (leavePreShift (dispatchScan s)))
      (drive (withAck false (leaveClearBuffer (dispatchScan s)))) [] :=
    Run.one (by
      rw [idleTick_step (u := leaveClearBuffer (withAck false (leavePreShift (dispatchScan s)))) rfl rfl]
      rfl) rfl (by simpa using ht)
  have hd : drive (withAck false (leaveClearBuffer (dispatchScan s))) =
      withPins (if s.curState = s.scanState then s.tms else route s.curState s.scanState) s.tdi
        (withAck false (leaveClearBuffer (dispatchScan s))) := drive_nav (.inl rfl) hb
  have hpin := pinsDriven_drive (s := withAck false (leaveClearBuffer (dispatchScan s))) (by exact hb)
  have h12 := h1.trans h2
  rw [hd] at h12 hpin
  obtain ⟨a, h3⟩ := Run.navigate (.inl rfl) (by exact hb) (by exact ht) hpin
  have hn : (navigated s.scanState
      (tmsAfter (if s.curState = s.scanState then s.tms else route s.curState s.scanState)
        (path s.curState s.scanState)) a
      (devNavigate (scanStartEdges s) s.dutTap s.dut) (tapRun s.dutTap (path s.curState s.scanState))
      (withAck false (leaveClearBuffer (dispatchScan s)))) =
    navigated s.scanState (tmsAfter s.tms (path s.curState s.scanState)) a
        (devNavigate (scanStartEdges s) s.dutTap s.dut) (tapRun s.dutTap (path s.curState s.scanState))
        (leaveClearBuffer (dispatchScan s)) := by rw [tmsAfter_path]; rfl
  have h5 := h12.trans h3
  rw [List.nil_append] at h5
  refine ⟨a, ?_⟩
  rw [← hn]
  exact h5

/-- R106: SCAN from its dispatch to shift entry. -/
theorem Run.scanStart {s : State} (hb : betweenPulses s = true) (ht : s.tck = false)
    (hs : isStable s.scanState = true) (hL : s.chainLength.toNat ≤ Config.bufBits) :
    Run (3 + distance s.curState s.scanState * pulseTicks s) (drive (withAck false (dispatchScan s)))
      (drive (Machine.enterShift (navigated s.scanState (tmsAfter s.tms (path s.curState s.scanState)) false
        (devNavigate (scanStartEdges s) s.dutTap s.dut) (tapRun s.dutTap (path s.curState s.scanState))
        (leaveClearBuffer (dispatchScan s)))))
      (scanStartEdges s) := by
  obtain ⟨a, h⟩ := Run.scanArrive hb ht
  have h4 := h.trans (Run.enterShift (s := navigated s.scanState (tmsAfter s.tms (path s.curState s.scanState)) a
        (devNavigate (scanStartEdges s) s.dutTap s.dut) (tapRun s.dutTap (path s.curState s.scanState))
        (leaveClearBuffer (dispatchScan s))) rfl rfl ht hs hL)
  rw [List.append_nil] at h4
  rw [show 3 + distance s.curState s.scanState * pulseTicks s =
    2 + distance s.curState s.scanState * pulseTicks s + 1 by omega]
  exact h4

theorem scanShiftEdges_tms (s : State) (x : Bool) :
    (if s.chainLength.toNat = 0 then x else route s.scanState s.endState) =
      tmsAfter x ((scanShiftEdges s).map (·.tms)) := by
  by_cases h : s.chainLength.toNat = 0
  · rw [if_pos h, scanShiftEdges_nil h]; rfl
  · rw [if_neg h, scanShiftEdges_last h]

theorem chainLength_eq_zero (s : State) : s.chainLength = 0 ↔ s.chainLength.toNat = 0 := by
  constructor
  · intro h; simp [h]
  · intro h; exact BitVec.eq_of_toNat_eq (by simpa using h)

theorem scanEdges_length (s : State) : (scanEdges s).length =
    distance s.curState s.scanState + s.chainLength.toNat + distance (afterShift s) s.endState := by
  simp [scanEdges, distance, Nat.add_assoc]

/-- R106, R112: SCAN from its dispatch to the end of the shift. -/
theorem Run.scanShift {s : State} (hb : betweenPulses s = true) (ht : s.tck = false)
    (hs : isStable s.scanState = true) (hL : s.chainLength.toNat ≤ Config.bufBits) :
    ∃ u m a b, Run (3 + distance s.curState s.scanState * pulseTicks s + s.chainLength.toNat * pulseTicks s)
        (drive (withAck false (dispatchScan s))) u (scanStartEdges s ++ scanShiftEdges s) ∧
      u = shifted s.chainLength m (afterShift s)
        (tmsAfter (tmsAfter s.tms (path s.curState s.scanState)) ((scanShiftEdges s).map (·.tms)))
        (tdiAfterScan s) b a (scanSamples s).2.1
        (tapRun (tapRun s.dutTap (path s.curState s.scanState)) ((scanShiftEdges s).map (·.tms)))
        (scanSamples s).2.2 (Machine.enterShift (leaveClearBuffer (dispatchScan s))) ∧
      (∀ j, j < s.chainLength.toNat → (scanSamples s).1[j]? = some (readBit u j)) ∧
      (∀ j, s.chainLength.toNat ≤ j → readBit u j = readBit s j) := by
  have h1 := Run.scanStart hb ht hs hL
  generalize hA : (navigated s.scanState (tmsAfter s.tms (path s.curState s.scanState)) false
    (devNavigate (scanStartEdges s) s.dutTap s.dut) (tapRun s.dutTap (path s.curState s.scanState))
    (leaveClearBuffer (dispatchScan s))) = A at h1
  have hd : drive (Machine.enterShift A) = withPins
      (if s.chainLength.toNat = 0 then tmsAfter s.tms (path s.curState s.scanState)
        else if s.chainLength.toNat = 1 then route s.scanState s.endState else route s.scanState s.scanState)
      (if s.chainLength.toNat = 0 then s.tdi else readBit s 0) (Machine.enterShift A) := by
    subst hA; exact drive_enterShift hb rfl
  have hpin := pinsDriven_drive (s := Machine.enterShift A) (by subst hA; exact hb)
  rw [hd] at h1 hpin
  generalize hB : withPins _ _ (Machine.enterShift A) = B at h1 hpin
  have hBe : B.eng = .shift := by subst hB; rfl
  have hB0 : B.bitIndex = 0 := by subst hB hA; rfl
  have hBL : B.chainLength = s.chainLength := by subst hB hA; rfl
  have hBc : B.curState = s.scanState := by subst hB hA; rfl
  have hBet : B.endTms = route s.scanState s.endState := by subst hB hA; rfl
  have hBst : B.scanTms = route s.scanState s.scanState := by subst hB hA; rfl
  have hBb : ∀ j, readBit B j = readBit s j := by subst hB hA; exact fun _ => rfl
  have hBdut : B.dut = devNavigate (scanStartEdges s) s.dutTap s.dut := by subst hB hA; rfl
  have hBdt : B.dutTap = tapRun s.dutTap (path s.curState s.scanState) := by subst hB hA; rfl
  have hBdr : B.draws = s.draws := by subst hB hA; rfl
  have hBp : pulseTicks B = pulseTicks s := by subst hB hA; rfl
  have hedges := shiftEdges_scan hB0 hBL hBet hBst hBb
  have hcap : devCapture (shiftEdges s.chainLength.toNat B) B.dutTap B.dut B.draws = scanSamples s := by
    rw [hedges, hBdut, hBdt, hBdr]; rfl
  obtain ⟨u, m, a, b, h2, hu, hget, hkeep⟩ := Run.shift (n := s.chainLength.toNat) hBe
    (by subst hB hA; exact hb) (by subst hB hA; exact ht) hpin (by rw [hB0, hBL]; simp)
    (.inr (by rw [hBc, hBst]; exact tapNext_route_self hs))
  have hBtms : (if s.chainLength.toNat = 0 then B.tms else route s.scanState s.endState) =
      tmsAfter (tmsAfter s.tms (path s.curState s.scanState)) ((scanShiftEdges s).map (·.tms)) := by
    rw [← scanShiftEdges_tms]
    by_cases h : s.chainLength.toNat = 0
    · rw [if_pos h, if_pos h, ← hB, withPins_tms, if_pos h]
    · rw [if_neg h, if_neg h]
  have hBtdi : (if s.chainLength.toNat = 0 then B.tdi else readBit B (B.chainLength.toNat - 1)) =
      tdiAfterScan s := by
    unfold tdiAfterScan
    rw [hBb, hBL]
    by_cases h : s.chainLength.toNat = 0
    · rw [if_pos h, if_pos ((chainLength_eq_zero s).mpr h), ← hB, withPins_tdi, if_pos h]
    · rw [if_neg h, if_neg (fun hh => h ((chainLength_eq_zero s).mp hh))]
  have hBcur : (if s.chainLength.toNat = 0 then s.scanState
      else tapNext s.scanState (route s.scanState s.endState)) = afterShift s := by
    unfold afterShift
    by_cases h : s.chainLength.toNat = 0
    · rw [if_pos h, if_pos ((chainLength_eq_zero s).mpr h)]
    · rw [if_neg h, if_neg (fun hh => h ((chainLength_eq_zero s).mp hh))]
  rw [hcap, hedges, hBet, hBdt, hBtms, hBtdi, hBc, hBcur, hBL] at hu
  rw [hedges, hBp] at h2
  rw [hcap] at hget
  simp only [hB0, BitVec.ofNat_eq_ofNat, BitVec.toNat_ofNat, Nat.zero_mod, Nat.zero_add, hBL, hBb] at hget hkeep
  refine ⟨u, m, a, b, h1.trans h2, ?_, hget, fun j hj => hkeep j (.inr hj)⟩
  rw [hu, ← hB, ← hA]
  rfl

/-- R106, R123: SCAN from its dispatch to DONE. -/
theorem Run.scan {s : State} (hb : betweenPulses s = true) (ht : s.tck = false)
    (hs : isStable s.scanState = true) (hL : s.chainLength.toNat ≤ Config.bufBits) :
    ∃ u m b, Run (5 + (scanEdges s).length * pulseTicks s) (drive (withAck false (dispatchScan s))) u (scanEdges s) ∧
      u = { s with
        eng := .done, pending := false, target := s.endState, curState := s.endState
        bitIndex := s.chainLength
        scanTms := route s.scanState s.scanState, endTms := route s.scanState s.endState
        tms := tmsAfter s.tms ((scanEdges s).map (·.tms)), tdi := tdiAfterScan s
        tdoSample := b, busAck := false, buf := m
        dut := devNavigate (scanEndEdges s) (tapRun (tapRun s.dutTap (path s.curState s.scanState))
          ((scanShiftEdges s).map (·.tms))) (scanSamples s).2.1
        dutTap := tapRun s.dutTap ((scanEdges s).map (·.tms)), draws := (scanSamples s).2.2 } ∧
      (∀ j, j < s.chainLength.toNat → (scanSamples s).1[j]? = some (readBit u j)) ∧
      (∀ j, s.chainLength.toNat ≤ j → readBit u j = readBit s j) := by
  obtain ⟨u, m, a, b, h2, hu, hget, hkeep⟩ := Run.scanShift hb ht hs hL
  have hue : u.eng = .shift := by rw [hu]; rfl
  have hub : betweenPulses u = true := by rw [hu]; exact hb
  have hutk : u.tck = false := by rw [hu]; exact ht
  have h3 : Run 1 u (drive (withAck false (leaveShift u))) [] :=
    Run.one (idleTick_step (pulseOp_shifted_out hue (by rw [hu]; rfl))
      (by rw [bookkeepingTick, hue])) (by simp [isBusy, hue]) (by simpa using hutk)
  have hd2 : drive (withAck false (leaveShift u)) =
      withPins (if u.curState = u.endState then u.tms else route u.curState u.endState) u.tdi
        (withAck false (leaveShift u)) :=
    drive_nav (.inr rfl) hub
  have hpin2 := pinsDriven_drive (s := withAck false (leaveShift u)) hub
  rw [hd2] at h3 hpin2
  have h4 := Run.gotoState (by rfl) (by exact hub) (by exact hutk) hpin2
  have huc : u.curState = afterShift s := by rw [hu, shifted_curState]
  have hut : u.endState = s.endState := by rw [hu]; rfl
  have hux : u.tdi = tdiAfterScan s := by rw [hu, shifted_tdi]
  have huv : u.tms = tmsAfter (tmsAfter s.tms (path s.curState s.scanState))
      ((scanShiftEdges s).map (·.tms)) := by rw [hu, shifted_tms]
  have hup : pulseTicks u = pulseTicks s := by rw [hu]; rfl
  have hn : 3 + distance s.curState s.scanState * pulseTicks s + s.chainLength.toNat * pulseTicks s + 1 +
      (distance u.curState u.endState * pulseTicks u + 1) = 5 + (scanEdges s).length * pulseTicks s := by
    rw [scanEdges_length, hup, huc, hut, Nat.add_mul, Nat.add_mul]; omega
  have he : scanStartEdges s ++ scanShiftEdges s ++ [] ++
      (path u.curState u.endState).map (fun v => { tms := v, tdi := u.tdi }) = scanEdges s := by
    rw [scanEdges_eq, List.append_nil, huc, hut, hux]; rfl
  have h : Run (3 + distance s.curState s.scanState * pulseTicks s + s.chainLength.toNat * pulseTicks s + 1 +
      (distance u.curState u.endState * pulseTicks u + 1)) _ _
      (scanStartEdges s ++ scanShiftEdges s ++ [] ++
        (path u.curState u.endState).map (fun v => { tms := v, tdi := u.tdi })) :=
    (h2.trans h3).trans h4
  rw [hn, he] at h
  refine ⟨_, m, b, h, ?_, hget, hkeep⟩
  have hF : ∀ x : Bool, enterDone (navigated u.endState (tmsAfter x (path u.curState u.endState)) false
      (devNavigate ((path u.curState u.endState).map fun v => { tms := v, tdi := u.tdi }) u.dutTap u.dut)
      (tapRun u.dutTap (path u.curState u.endState)) (withPins x u.tdi (withAck false (leaveShift u)))) =
      { u with
        eng := .done, target := u.endState, curState := u.endState
        tms := tmsAfter x (path u.curState u.endState), busAck := false
        dut := (devNavigate ((path u.curState u.endState).map fun v => { tms := v, tdi := u.tdi }) u.dutTap u.dut)
        dutTap := tapRun u.dutTap (path u.curState u.endState) } := fun _ => rfl
  refine (hF _).trans ?_
  rw [withPins_tms, tmsAfter_path, huc, hut, hux, huv, shiftEdges_tms, tmsAfter_append, tmsAfter_append, tapRun_append,
    tapRun_append, hu]
  rfl

/-! ## RESET -/

theorem pulseOp_tapReset {s : State} (he : s.eng = .tapReset) (h : s.resetCount < Config.resetPulses) :
    pulseOp s = some { tms := true, tdi := none, capture := false } := by
  simp [pulseOp, he, h]

theorem pulseOp_tapReset_over {s : State} (he : s.eng = .tapReset) (h : s.resetCount = Config.resetPulses) :
    pulseOp s = none := by
  simp [pulseOp, he, h]

/-- One pulse of TAP_RESET. -/
theorem pulsed_tapReset {s : State} (he : s.eng = .tapReset) (hb : betweenPulses s = true) (ht : s.tck = false)
    (hv : s.tms = true) (h : s.resetCount < Config.resetPulses) :
    pulsed { tms := true, tdi := none, capture := false } s =
      countPulse (navigated (tapNext s.curState true) true false (devShift s.tdi s.dutTap s.dut)
        (tapNext s.dutTap true) s) := by
  have h1 : stepAfterPulse (fallingEdge { tms := true, tdi := none, capture := false }
      (risingEdge { tms := true, tdi := none, capture := false } s)) =
      countPulse (fallingEdge { tms := true, tdi := none, capture := false }
        (risingEdge { tms := true, tdi := none, capture := false } s)) := by
    unfold stepAfterPulse
    simp [he]
  rw [pulsed, endOfPulse, h1, endOfPulse_plain true hb ht, hv]
  generalize hw : withAck false _ = w
  have hwe : w.eng = .tapReset := by rw [← hw]; exact he
  have hwc : w.resetCount = s.resetCount + 1 := by rw [← hw]; rfl
  have hwb : betweenPulses w = true := by rw [← hw]; exact hb
  have hwt : w.tms = true := by rw [← hw]; rfl
  have hd : drive w = w := by
    by_cases hc : s.resetCount + 1 < Config.resetPulses
    · rw [drive_some (pulseOp_tapReset hwe (by omega)) hwb, ← hwt]; rfl
    · exact drive_none (pulseOp_tapReset_over hwe (by omega))
  rw [hd, ← hw]
  rfl

/-- R117, R118: TAP_RESET from a state with `n` pulses to go to DONE, as one run. -/
theorem Run.tapReset {n : Nat} {s : State} (he : s.eng = .tapReset) (hb : betweenPulses s = true) (ht : s.tck = false)
    (hp : pinsDriven s) (hn : s.resetCount + n = Config.resetPulses) :
    ∃ u, Run (n * pulseTicks s + 1) s u (List.replicate n { tms := true, tdi := s.tdi }) ∧
      u = { leaveTapReset (navigated (tapRun s.curState (List.replicate n true)) (if n = 0 then s.tms else true) false
          (devNavigate (List.replicate n { tms := true, tdi := s.tdi }) s.dutTap s.dut)
          (tapRun s.dutTap (List.replicate n true)) s) with resetCount := Config.resetPulses } := by
  induction n generalizing s with
  | zero =>
    have hc : s.resetCount = Config.resetPulses := hn
    have h := idleTick_step (u := leaveTapReset s) (pulseOp_tapReset_over he hc) (by rw [bookkeepingTick, he])
    rw [drive_done rfl] at h
    rw [Nat.zero_mul, Nat.zero_add, ← hc]
    exact ⟨_, Run.one h (by simp [isBusy, he]) ht, rfl⟩
  | succ n ih =>
    have hlt : s.resetCount < Config.resetPulses := by omega
    have hop := pulseOp_tapReset he hlt
    have hv : s.tms = true := (hp _ hop).1
    have hr := Run.pulse hop hb ht
    have hpin := pinsDriven_drive (s := withAck false (endOfPulse
      { tms := true, tdi := none, capture := false } s)) (by simp)
    change pinsDriven (pulsed _ s) at hpin
    rw [pulsed_tapReset he hb ht hv hlt] at hr hpin
    obtain ⟨u, hrun, hu⟩ := (ih (by exact he) (by exact hb) (by exact ht) hpin (by
      rw [countPulse_resetCount, navigated_resetCount]; omega))
    have h := hr.trans hrun
    rw [hv] at h
    rw [show (n + 1) * pulseTicks s + 1 = pulseTicks s + (n * pulseTicks s + 1) by rw [Nat.succ_mul]; omega]
    refine ⟨u, h, ?_⟩
    simp only [countPulse_tms, navigated_tms, ite_self] at hu
    exact hu

theorem tapRun_five_ones (s : TapState) : tapRun s (List.replicate 5 true) = .testLogicReset := by
  cases s <;> rfl

/-- R117: RESET from its dispatch to DONE. -/
theorem Run.reset {s : State} (hb : betweenPulses s = true) (ht : s.tck = false) :
    ∃ u, Run (5 * pulseTicks s + 1) (drive (withAck false (dispatchReset s))) u
        (List.replicate 5 { tms := true, tdi := s.tdi }) ∧
      u = { s with
        eng := .done, pending := false, resetCount := 5, curState := .testLogicReset, tms := true
        busAck := false
        dut := devNavigate (List.replicate 5 { tms := true, tdi := s.tdi }) s.dutTap s.dut
        dutTap := .testLogicReset } := by
  have hpin := pinsDriven_drive (s := withAck false (dispatchReset s)) (by exact hb)
  rw [drive_some (pulseOp_tapReset (s := withAck false (dispatchReset s)) rfl (Nat.succ_pos 4)) hb] at hpin ⊢
  obtain ⟨u, h, hu⟩ := Run.tapReset (n := 5) (by rfl) (by exact hb) (by exact ht) hpin rfl
  rw [tapRun_five_ones, tapRun_five_ones] at hu
  refine ⟨u, h, hu.trans ?_⟩
  apply State.ext <;> simp [Config.resetPulses]

end Sys2Proof.Machine
end

