-- ==== Sys2Proof/Laws/Exec.lean ====
section
/-! SUPPORT. Every instruction is made of a few kinds of tick: a property that each of those keeps is kept by exec, and by
step. -/

namespace Sys2Proof.Machine

/-- What has to be shown of a property so that every instruction keeps it. -/
structure Kept (P : State → Prop) : Prop where
  idle : ∀ s t, P s → idleTick s = .next t → P t
  read : ∀ r s t, P s → busRead r s = .next t → P t
  write : ∀ r d s t, P s → busWrite r d s = .next t → P t
  scan : ∀ s, P s → triggered s = true → P (drive (withAck false (dispatchScan s)))
  reset : ∀ s, P s → triggered s = true → P (drive (withAck false (dispatchReset s)))
  state : ∀ s, P s → triggered s = true → P (drive (withAck false (dispatchState s)))
  reply : ∀ s r n, P s → P { s with reply := r, draws := n }

variable {P : State → Prop}

theorem Kept.runToDone (h : Kept P) {n : Nat} {s t : State} (hs : P s) (ht : runToDone n s = .next t) : P t := by
  induction n generalizing s with
  | zero =>
    unfold Machine.runToDone at ht
    split at ht <;> cases ht
    exact hs
  | succ n ih =>
    unfold Machine.runToDone at ht
    split at ht
    · cases ht; exact hs
    · obtain ⟨u, hu, ht⟩ := andThen_eq_next.mp ht
      exact ih (h.idle s u hs hu) ht

theorem Kept.awaitAck (h : Kept P) {s t : State} (hs : P s) (ht : awaitAck s = .next t) : P t := by
  unfold Machine.awaitAck at ht
  split at ht
  · exact h.idle s t hs ht
  · cases ht; exact hs

theorem Kept.hostWrite (h : Kept P) {r : Reg} {d : Data} {s t : State} (hs : P s)
    (ht : hostWrite r d s = .next t) : P t := by
  obtain ⟨u, hu, ht⟩ := andThen_eq_next.mp ht
  obtain ⟨v, hv, ht⟩ := andThen_eq_next.mp ht
  exact h.idle v t (h.write r d u v (h.awaitAck hs hu) hv) ht

theorem Kept.hostRead (h : Kept P) {r : Reg} {d : Data} {s t : State} (hs : P s)
    (ht : hostRead r s = .next (d, t)) : P t := by
  obtain ⟨u, hu, ht⟩ := andThen_eq_next.mp ht
  obtain ⟨v, hv, ht⟩ := andThen_eq_next.mp ht
  obtain ⟨w, hw, ht⟩ := andThen_eq_next.mp ht
  cases ht
  exact h.idle v _ (h.read r u v (h.awaitAck hs hu) hv) hw

theorem Kept.loadBytes (h : Kept P) {k : Nat} {l : List Byte} {s t : State} (hs : P s)
    (ht : loadBytes k l s = .next t) : P t := by
  induction l generalizing k s with
  | nil => cases ht; exact hs
  | cons b l ih =>
    obtain ⟨u, hu, ht⟩ := andThen_eq_next.mp ht
    exact ih (h.hostWrite hs hu) ht

theorem Kept.poll (h : Kept P) {n : Nat} {s t : State} (hs : P s) (ht : poll n s = .next t) : P t := by
  induction n generalizing s with
  | zero => cases ht
  | succ n ih =>
    obtain ⟨⟨v, u⟩, hu, ht⟩ := andThen_eq_next.mp ht
    simp only at ht
    split at ht
    · exact ih (h.hostRead hs hu) ht
    · cases ht; exact h.hostRead hs hu

theorem Kept.readBytes (h : Kept P) {k n : Nat} {s t : State} {l : List Byte} (hs : P s)
    (ht : readBytes k n s = .next (l, t)) : P t := by
  induction n generalizing k s l with
  | zero => cases ht; exact hs
  | succ n ih =>
    obtain ⟨⟨v, u⟩, hu, ht⟩ := andThen_eq_next.mp ht
    obtain ⟨⟨l', w⟩, hw, ht⟩ := andThen_eq_next.mp ht
    cases ht
    exact ih (h.hostRead hs hu) hw

theorem Kept.scanCommand (h : Kept P) {len : Nat} {a b : TapState} {s t : State} (hs : P s)
    (ht : scanCommand len a b s = .next t) : P t := by
  obtain ⟨s1, h1, ht⟩ := andThen_eq_next.mp ht
  obtain ⟨s2, h2, ht⟩ := andThen_eq_next.mp ht
  obtain ⟨s3, h3, ht⟩ := andThen_eq_next.mp ht
  obtain ⟨s4, h4, ht⟩ := andThen_eq_next.mp ht
  obtain ⟨s5, h5, ht⟩ := andThen_eq_next.mp ht
  obtain ⟨s6, h6, ht⟩ := andThen_eq_next.mp ht
  exact h.hostWrite (h.poll (h.hostWrite (h.hostWrite (h.hostWrite (h.hostWrite (h.hostWrite hs h1) h2) h3) h4)
    h5) h6) ht

theorem Kept.scanVector (h : Kept P) {c : TapState} {n : Nat} {l : List Nibble} {s t : State} (hs : P s)
    (ht : scanVector c n l s = .next t) : P t := by
  unfold Machine.scanVector at ht
  split at ht
  · cases ht
  · obtain ⟨s1, h1, ht⟩ := andThen_eq_next.mp ht
    obtain ⟨s2, h2, ht⟩ := andThen_eq_next.mp ht
    obtain ⟨⟨l', s3⟩, h3, ht⟩ := andThen_eq_next.mp ht
    cases ht
    exact h.reply _ _ s3.draws (h.readBytes (h.scanCommand (h.loadBytes hs h1) h2) h3)

theorem Kept.runChunks (h : Kept P) {n : Nat} {s t : State} (hs : P s) (ht : runChunks n s = .next t) : P t := by
  induction n generalizing s with
  | zero => cases ht; exact hs
  | succ n ih =>
    obtain ⟨u, hu, ht⟩ := andThen_eq_next.mp ht
    exact ih (h.scanCommand hs hu) ht

theorem whenCurStateMapped_next {s t : State} {o : Result State} (ht : whenCurStateMapped s o = .next t) :
    o = .next t := by
  unfold whenCurStateMapped at ht
  split at ht
  · exact ht
  · cases ht

/-- Every instruction keeps what each kind of tick keeps. -/
theorem Kept.exec (h : Kept P) {i : Instr} {s t : State} (hs : P s) (ht : exec i s = .next t) : P t := by
  cases i with
  | cmdNone => exact h.idle s t hs ht
  | cmdScan =>
    simp only [Machine.exec, execCmdScan] at ht
    split at ht
    · next htr => exact h.runToDone (h.scan s hs htr) ht
    · exact h.idle s t hs ht
  | cmdReset =>
    simp only [Machine.exec, execCmdReset] at ht
    split at ht
    · next htr => exact h.runToDone (h.reset s hs htr) ht
    · exact h.idle s t hs ht
  | cmdState =>
    simp only [Machine.exec, execCmdState] at ht
    split at ht
    · next htr => exact h.runToDone (h.state s hs htr) ht
    · exact h.idle s t hs ht
  | cmdReserved4 => exact h.idle s t hs ht
  | cmdReserved5 => exact h.idle s t hs ht
  | cmdReserved6 => exact h.idle s t hs ht
  | cmdReserved7 => exact h.idle s t hs ht
  | rdBuf k => exact h.read (.buf k) s t hs ht
  | wrBuf k d => exact h.write (.buf k) d s t hs ht
  | rdScanState => exact h.read .scanState s t hs ht
  | wrScanState d => exact h.write .scanState d s t hs ht
  | rdEndState => exact h.read .endState s t hs ht
  | wrEndState d => exact h.write .endState d s t hs ht
  | rdChainLength => exact h.read .chainLength s t hs ht
  | wrChainLength d => exact h.write .chainLength d s t hs ht
  | rdControl => exact h.read .control s t hs ht
  | wrControl d => exact h.write .control d s t hs ht
  | rdStatus => exact h.read .status s t hs ht
  | wrStatus d => exact h.write .status d s t hs ht
  | rdCommand => exact h.read .command s t hs ht
  | wrCommand d => exact h.write .command d s t hs ht
  | rdCurState => exact h.read .curState s t hs (whenCurStateMapped_next ht)
  | wrCurState d => exact h.write .curState d s t hs (whenCurStateMapped_next ht)
  | outOfRange we addr d => cases ht
  | mw addr d =>
    simp only [Machine.exec, execMw] at ht
    split at ht
    · cases ht
    · obtain ⟨u, hu, ht⟩ := andThen_eq_next.mp ht
      cases ht
      exact h.reply _ _ u.draws (h.hostWrite hs hu)
  | mr addr =>
    simp only [Machine.exec, execMr] at ht
    split at ht
    · cases ht
    · obtain ⟨⟨v, u⟩, hu, ht⟩ := andThen_eq_next.mp ht
      cases ht
      exact h.reply _ _ u.draws (h.hostRead hs hu)
  | startsim board => cases ht; exact h.reply _ _ s.draws hs
  | stopsim => cases ht; exact h.reply _ _ _ hs
  | exit => cases ht; exact h.reply _ _ s.draws hs
  | scanIr n l => exact h.scanVector hs ht
  | scanDr n l => exact h.scanVector hs ht
  | runtest n =>
    obtain ⟨u, hu, ht⟩ := andThen_eq_next.mp ht
    obtain ⟨v, hv, ht⟩ := andThen_eq_next.mp ht
    cases ht
    have hu := h.runChunks hs hu
    refine h.reply _ _ v.draws ?_
    split at hv
    · cases hv; exact hu
    · exact h.scanCommand hu hv

/-- Every step keeps it too, where the host's own stimuli do. -/
theorem Kept.step (h : Kept P) {s t : State} (hs : P s) (hscript : ∀ l, P { s with script := l })
    (hreset : ∀ r l, s.script = .reset r :: l → P (applyReset { s with script := l }))
    (hdiv : ∀ d l, s.script = .divider d :: l → isBusy s = false →
      P { s with script := l, clockDivider := s.params.dividerValue d })
    (ht : step s = .next t) : P t := by
  have hrun : ∀ (o : Except Reject Instr) (u : State), P u → runDecoded o u = .next t → P t := by
    intro o u hu ho
    cases o with
    | ok i => exact h.exec hu ho
    | error e => cases ho
  unfold Machine.step at ht
  split at ht
  · next x rest hx =>
    have hp := hscript rest
    cases x with
    | request r => exact hrun (decode s.params (.bus r)) _ hp ht
    | idle => exact h.idle _ t hp ht
    | reset r => cases ht; exact hreset r rest hx
    | divider d =>
      simp only [stimulate, changeDivider] at ht
      split at ht
      · cases ht
      · next hb => cases ht; exact hdiv d rest hx (eq_false_of_ne_true hb)
    | line text => exact hrun (decode s.params (.line text)) _ hp ht
    | call op count arg => exact hrun (decode s.params (.call op count arg)) _ hp ht
  · split at ht
    · exact hrun _ _ hs ht
    · exact h.idle s t hs ht

end Sys2Proof.Machine
end

