-- ==== Sys2Proof/Laws/Invariant.lean ====
section
/-! SUPPORT. What one tick does to the invariant of Safety.lean, by kind of tick. -/

namespace Sys2Proof.Machine

/-! ## The engine's part -/

/-- The core of the invariant, and the pins wherever a pulse is in progress. -/
def Ticked (s : State) : Prop := InvCore s ∧ (betweenPulses s = false → pinsDriven s)

theorem Inv.ticked {s : State} (h : Inv s) : Ticked s := ⟨h.toInvCore, fun _ => h.pins⟩

/-- What the ports carry depends on the parameters, the divider and the read data alone. -/
theorem PortsFit.congr {s t : State} (h : PortsFit s) (hp : t.params = s.params)
    (hd : t.clockDivider = s.clockDivider) (hr : t.busRdata = s.busRdata) : PortsFit t := by
  obtain ⟨h1, h2, h3⟩ := h
  exact ⟨by rw [hp]; exact h1, by rw [hp, hd]; exact h2, by rw [hp, hr]; exact h3⟩

/-- The pins set, the invariant is whole again. -/
theorem Ticked.drive {s : State} (h : Ticked s) (hf : PortsFit s) : Inv (drive s) := by
  obtain ⟨c, hp⟩ := h
  have hb : betweenPulses (Machine.drive s) = betweenPulses s := by simp [betweenPulses]
  refine ⟨⟨by simpa using c.bufWf, by simpa using c.resetCountBound, by simpa using c.pendingInIdle,
    by simpa using c.tckIsHalf, by simpa using c.halfCountBound, by simpa using c.atRest,
    by simpa using c.startTarget, by simpa using c.endTarget, by simpa using c.shifting,
    by simpa using c.shiftPosition, by simpa using c.resetProgress⟩,
    hf.congr (by simp) (by simp) (by simp), ?_⟩
  by_cases h : betweenPulses s = true
  · exact pinsDriven_drive h
  · have h : betweenPulses s = false := by simpa using h
    rw [drive_within h]
    exact hp h

/-- A change of what the invariant does not speak of. -/
theorem Ticked.congr {s t : State} (h : Ticked s)
    (e : t = { s with
      go := t.go, busAck := t.busAck, busRdata := t.busRdata, script := t.script, dut := t.dut
      dutTap := t.dutTap, reply := t.reply, draws := t.draws, command := t.command, tdoSample := t.tdoSample
      params := t.params }) : Ticked t := by
  rw [e]
  obtain ⟨⟨h1, h2, h3, h4, h5, h6, h7, h8, h9, h10, h11⟩, h12⟩ := h
  exact ⟨⟨h1, h2, h3, h4, h5, h6, h7, h8, h9, h10, h11⟩, h12⟩

theorem Inv.congr {s t : State} (h : Inv s)
    (e : t = { s with
      go := t.go, busAck := t.busAck, script := t.script, dut := t.dut, dutTap := t.dutTap, reply := t.reply
      draws := t.draws, command := t.command, tdoSample := t.tdoSample }) : Inv t := by
  rw [e]
  obtain ⟨⟨h1, h2, h3, h4, h5, h6, h7, h8, h9, h10, h11⟩, ⟨h12, h13, h14⟩, h15⟩ := h
  exact ⟨⟨h1, h2, h3, h4, h5, h6, h7, h8, h9, h10, h11⟩, ⟨h12, h13, h14⟩, h15⟩

theorem InvCore.index_lt {s : State} (h : InvCore s) (he : s.eng = .shift) (hi : s.bitIndex ≠ s.chainLength) :
    s.bitIndex.toNat < s.chainLength.toNat := by
  have := (h.shifting he).2.2.1
  have : s.bitIndex.toNat ≠ s.chainLength.toNat := fun h => hi (BitVec.eq_of_toNat_eq h)
  omega

/-- The end of a pulse. -/
theorem InvCore.endOfPulse {s : State} {p : PulseOp} (h : InvCore s) (hp : pulseOp s = some p) :
    InvCore (stepAfterPulse (fallingEdge p s)) := by
  cases he : s.eng with
  | shift =>
    have hi : s.bitIndex ≠ s.chainLength := by
      intro hh; simp [pulseOp, he, hh] at hp
    have hlt := h.index_lt he hi
    obtain ⟨hs, hL, hle, hst, het⟩ := h.shifting he
    have hpt : p.tms = shiftTms s := by
      rw [pulseOp_shift he hlt] at hp
      cases hp; rfl
    have hn : (s.bitIndex + 1).toNat = s.bitIndex.toNat + 1 := by bv_omega
    have e : stepAfterPulse (fallingEdge p s) = captureBit (fallingEdge p s) := by
      simp [stepAfterPulse, he]
    rw [e]
    constructor
    · rw [captureBit_buf]
      exact Memory.wf_store _ h.bufWf (by
        simp only [fallingEdge_bitIndex]; unfold Config.bufBytes; unfold Config.bufBits at hL; omega)
    · exact h.resetCountBound
    · exact h.pendingInIdle
    · rfl
    · exact Nat.zero_le _
    · exact fun _ => ⟨rfl, rfl⟩
    · exact fun h' => (nomatch he.symm.trans h')
    · exact fun h' => (nomatch he.symm.trans h')
    · intro _
      refine ⟨hs, hL, ?_, hst, het⟩
      show (s.bitIndex + 1).toNat ≤ s.chainLength.toNat
      omega
    · intro _ hlt'
      replace hlt' : (s.bitIndex + 1).toNat < s.chainLength.toNat := hlt'
      show tapNext s.curState p.tms = s.scanState
      rw [hpt, shiftTms_eq hlt, if_neg (by omega), hst, h.shiftPosition he hlt]
      exact tapNext_route_self hs
    · exact fun h' => (nomatch he.symm.trans h')
  | tapReset =>
    have hc : s.resetCount < Config.resetPulses := by
      by_contra hh; simp [pulseOp, he, hh] at hp
    have hpt : p.tms = true := by
      rw [pulseOp_tapReset he hc] at hp; cases hp; rfl
    have e : stepAfterPulse (fallingEdge p s) = countPulse (fallingEdge p s) := by
      simp [stepAfterPulse, he]
    rw [e]
    constructor
    · exact h.bufWf
    · exact hc
    · exact h.pendingInIdle
    · rfl
    · exact Nat.zero_le _
    · exact fun _ => ⟨rfl, rfl⟩
    · exact fun h' => (nomatch he.symm.trans h')
    · exact fun h' => (nomatch he.symm.trans h')
    · exact fun h' => (nomatch he.symm.trans h')
    · exact fun h' => (nomatch he.symm.trans h')
    · intro _
      have := h.resetProgress he
      rw [show Config.resetPulses - s.resetCount = Config.resetPulses - (s.resetCount + 1) + 1 by omega,
        List.replicate_succ] at this
      rw [countPulse_curState, fallingEdge_curState, hpt, countPulse_resetCount, fallingEdge_resetCount]
      exact this
  | gotoStart =>
    have e : stepAfterPulse (fallingEdge p s) = fallingEdge p s := by simp [stepAfterPulse, he]
    rw [e]
    exact ⟨h.bufWf, h.resetCountBound, h.pendingInIdle, rfl, Nat.zero_le _, fun _ => ⟨rfl, rfl⟩,
      h.startTarget, h.endTarget, fun h' => (nomatch he.symm.trans h'),
      fun h' => (nomatch he.symm.trans h'), fun h' => (nomatch he.symm.trans h')⟩
  | gotoState =>
    have e : stepAfterPulse (fallingEdge p s) = fallingEdge p s := by simp [stepAfterPulse, he]
    rw [e]
    exact ⟨h.bufWf, h.resetCountBound, h.pendingInIdle, rfl, Nat.zero_le _, fun _ => ⟨rfl, rfl⟩,
      h.startTarget, h.endTarget, fun h' => (nomatch he.symm.trans h'),
      fun h' => (nomatch he.symm.trans h'), fun h' => (nomatch he.symm.trans h')⟩
  | idle => simp [pulseOp, he] at hp
  | preShift => simp [pulseOp, he] at hp
  | clearBuffer => simp [pulseOp, he] at hp
  | done => simp [pulseOp, he] at hp

theorem Ticked.pulse {s : State} {p : PulseOp} (h : Inv s) (hp : pulseOp s = some p) :
    Ticked (pulseTick p s) := by
  have c := h.toInvCore
  have hpin := h.pins
  unfold pulseTick
  split
  · next hlt =>
    exact ⟨⟨c.bufWf, c.resetCountBound, c.pendingInIdle, c.tckIsHalf, hlt,
      fun hn => (nomatch hp.symm.trans hn), c.startTarget, c.endTarget, c.shifting,
      c.shiftPosition, c.resetProgress⟩, fun _ => hpin⟩
  · split
    · refine ⟨⟨by simpa using c.bufWf, by simpa using c.resetCountBound, by simpa using c.pendingInIdle,
        by simp, by simp, fun hn => (nomatch hp.symm.trans ((pulseOp_risingEdge p s).symm.trans hn)),
        by simpa using c.startTarget, by simpa using c.endTarget, by simpa using c.shifting,
        by simpa using c.shiftPosition, by simpa using c.resetProgress⟩, fun _ q hq => ?_⟩
      rw [pulseOp_risingEdge] at hq
      simpa using hpin q hq
    · have hb : betweenPulses (stepAfterPulse (fallingEdge p s)) = true := by
        rw [betweenPulses_iff]; unfold stepAfterPulse; split <;> simp
      exact ⟨c.endOfPulse hp, fun h => nomatch hb.symm.trans h⟩

/-- No pulse is in progress after a step that is no pulse. -/
theorem InvCore.low {s : State} (h : InvCore s) (hp : pulseOp s = none) : betweenPulses s = true :=
  betweenPulses_iff.mpr (h.atRest hp)

theorem Ticked.bookkeeping {s u : State} (h : Inv s) (hp : pulseOp s = none) (hu : bookkeepingTick s = .next u) :
    Ticked u := by
  have c := h.toInvCore
  obtain ⟨hl, h0⟩ := c.atRest hp
  have hb : ∀ v : State, v.tckHalf = s.tckHalf → v.halfCount = s.halfCount → betweenPulses v = true := by
    intro v h1 h2
    rw [betweenPulses_iff, h1, h2]; exact ⟨hl, h0⟩
  unfold bookkeepingTick at hu
  cases he : s.eng with
  | idle =>
    simp only [he] at hu
    cases hu
    unfold stepIdle
    split
    · next hpend =>
      split
      · exact ⟨⟨c.bufWf, c.resetCountBound, nofun, c.tckIsHalf, c.halfCountBound, fun _ => ⟨hl, h0⟩,
          nofun, nofun, nofun, nofun, nofun⟩, fun h' => (nomatch (hb (dispatchScan s) rfl rfl).symm.trans h')⟩
      · split
        · exact ⟨⟨c.bufWf, Nat.zero_le _, nofun, c.tckIsHalf, c.halfCountBound, fun _ => ⟨hl, h0⟩,
            nofun, nofun, nofun, nofun, fun _ => tapRun_five_ones _⟩,
            fun h' => (nomatch (hb (dispatchReset s) rfl rfl).symm.trans h')⟩
        · split
          · exact ⟨⟨c.bufWf, c.resetCountBound, nofun, c.tckIsHalf, c.halfCountBound, fun _ => ⟨hl, h0⟩,
              nofun, fun _ => rfl, nofun, nofun, nofun⟩,
              fun h' => (nomatch (hb (dispatchState s) rfl rfl).symm.trans h')⟩
          · exact h.ticked
    · exact h.ticked
  | preShift =>
    simp only [he] at hu
    cases hu
    exact ⟨⟨c.bufWf, c.resetCountBound, fun h' => (nomatch he.symm.trans (c.pendingInIdle h')), c.tckIsHalf,
      c.halfCountBound, fun _ => ⟨hl, h0⟩, nofun, nofun, nofun, nofun, nofun⟩,
      fun h' => (nomatch (hb (leavePreShift s) rfl rfl).symm.trans h')⟩
  | clearBuffer =>
    simp only [he] at hu
    cases hu
    exact ⟨⟨c.bufWf, c.resetCountBound, fun h' => (nomatch he.symm.trans (c.pendingInIdle h')), c.tckIsHalf,
      c.halfCountBound, fun _ => ⟨hl, h0⟩, fun _ => ⟨rfl, rfl⟩, nofun, nofun, nofun, nofun⟩,
      fun h' => (nomatch (hb (leaveClearBuffer s) rfl rfl).symm.trans h')⟩
  | gotoStart =>
    simp only [he, shiftEntry] at hu
    split at hu
    · cases hu
    · next hs =>
      split at hu
      · cases hu
      · next hL =>
        cases hu
        have hc : s.curState = s.target := by
          by_contra hc; rw [pulseOp_nav (.inl he) hc] at hp; cases hp
        obtain ⟨ht, hi⟩ := c.startTarget he
        exact ⟨⟨c.bufWf, c.resetCountBound, fun h' => (nomatch he.symm.trans (c.pendingInIdle h')), c.tckIsHalf,
          c.halfCountBound, fun _ => ⟨hl, h0⟩, nofun, nofun,
          fun _ => ⟨by simpa using hs, Nat.le_of_not_lt hL, by rw [enterShift_bitIndex, hi]; exact Nat.zero_le _,
            rfl, rfl⟩,
          fun _ _ => hc.trans ht, nofun⟩,
          fun h' => (nomatch (hb (enterShift s) rfl rfl).symm.trans h')⟩
  | shift =>
    simp only [he] at hu
    cases hu
    exact ⟨⟨c.bufWf, c.resetCountBound, fun h' => (nomatch he.symm.trans (c.pendingInIdle h')), c.tckIsHalf,
      c.halfCountBound, fun _ => ⟨hl, h0⟩, nofun, fun _ => rfl, nofun, nofun, nofun⟩,
      fun h' => (nomatch (hb (leaveShift s) rfl rfl).symm.trans h')⟩
  | gotoState =>
    simp only [he] at hu
    cases hu
    exact ⟨⟨c.bufWf, c.resetCountBound, fun h' => (nomatch he.symm.trans (c.pendingInIdle h')), c.tckIsHalf,
      c.halfCountBound, fun _ => ⟨hl, h0⟩, nofun, nofun, nofun, nofun, nofun⟩,
      fun h' => (nomatch (hb (enterDone s) rfl rfl).symm.trans h')⟩
  | tapReset =>
    simp only [he] at hu
    cases hu
    exact ⟨⟨c.bufWf, c.resetCountBound, fun h' => (nomatch he.symm.trans (c.pendingInIdle h')), c.tckIsHalf,
      c.halfCountBound, fun _ => ⟨hl, h0⟩, nofun, nofun, nofun, nofun, nofun⟩,
      fun h' => (nomatch (hb (leaveTapReset s) rfl rfl).symm.trans h')⟩
  | done =>
    simp only [he] at hu
    cases hu
    unfold stepDone
    split
    · exact h.ticked
    · exact ⟨⟨c.bufWf, c.resetCountBound, fun _ => rfl, c.tckIsHalf,
        c.halfCountBound, fun _ => ⟨hl, h0⟩, nofun, nofun, nofun, nofun, nofun⟩,
        fun h' => (nomatch (hb { s with eng := .idle } rfl rfl).symm.trans h')⟩

/-- The engine's part of a tick, from the invariant. -/
theorem Ticked.engine {s u : State} (h : Inv s) (hu : engineTick s = .next u) : Ticked u := by
  cases hp : pulseOp s with
  | some p =>
    rw [engineTick_pulse hp] at hu
    cases hu
    exact .pulse h hp
  | none =>
    rw [engineTick_none hp] at hu
    exact .bookkeeping h hp hu

/-! ## The bus's part -/

/-- R102, R121: with no command in flight the engine's part of a tick leaves DONE once GO is 0, and nothing else. -/
theorem engineTick_quiet {s : State} (hb : isBusy s = false) (hd : dispatching s = false) :
    engineTick s = .next { s with eng := if s.eng = .done ∧ s.go = false then .idle else s.eng } := by
  rw [engineTick_none (pulseOp_quiet hb)]
  unfold bookkeepingTick
  cases he : s.eng with
  | idle =>
    have : stepIdle s = s := by
      simp only [dispatching, triggered, he, decide_true, Bool.true_and, selectsCommand] at hd
      unfold stepIdle
      cases hp : s.pending <;> simp_all
    simp [this, ← he]
  | done =>
    simp only [stepDone]
    by_cases hg : s.go = true
    · rw [if_pos hg, if_neg (by simp [hg]), ← he]
    · rw [if_neg hg, if_pos ⟨trivial, by simpa using hg⟩]
  | _ => simp [isBusy, he] at hb

theorem commandInFlight_false {s : State} (h : commandInFlight s = false) :
    isBusy s = false ∧ dispatching s = false := by
  simp only [commandInFlight, Bool.or_eq_false_iff] at h
  refine ⟨h.1, ?_⟩
  simp only [dispatching, triggered, Bool.and_assoc, h.2, Bool.and_false]

/-- A machine with a quiet engine meets whatever the invariant asks of a busy one. -/
theorem Ticked.quiet {s t : State} (h : Ticked s) (hs : isBusy s = false) (hb : Memory.wf t.buf = true)
    (he : t.eng = s.eng) (hr : t.resetCount = s.resetCount) (hp : t.pending = true → t.eng = .idle)
    (htck : t.tck = s.tck) (hh : t.tckHalf = s.tckHalf) (hc : t.halfCount = s.halfCount)
    (hd : t.clockDivider = s.clockDivider) : Ticked t := by
  have hq : pulseOp t = none := pulseOp_quiet ((isBusy_congr he).trans hs)
  have ne : ∀ p : Phase, p ≠ .idle → p ≠ .done → t.eng = p → False := by
    intro p h1 h2 h3
    rw [he] at h3
    simp [isBusy, h3, h1, h2] at hs
  obtain ⟨c, -⟩ := h
  refine ⟨⟨hb, hr ▸ c.resetCountBound, hp, by rw [htck, hh]; exact c.tckIsHalf, by rw [hc, hd]; exact c.halfCountBound,
    fun _ => by rw [hh, hc]; exact c.atRest (pulseOp_quiet hs),
    fun h => (ne _ (by decide) (by decide) h).elim, fun h => (ne _ (by decide) (by decide) h).elim,
    fun h => (ne _ (by decide) (by decide) h).elim, fun h => (ne _ (by decide) (by decide) h).elim,
    fun h => (ne _ (by decide) (by decide) h).elim⟩, fun _ p hp => ?_⟩
  rw [hq] at hp; cases hp

theorem isBusy_quiet_eng {s : State} (h : isBusy s = false) :
    isBusy { s with eng := if s.eng = .done ∧ s.go = false then .idle else s.eng } = false := by
  unfold isBusy at *
  cases he : s.eng <;> simp_all

/-- A write of a register with no command in flight, and a write of any other register at any time. -/
theorem Ticked.regWrite {s u : State} {r : Reg} {d : Data} (h : Inv s) (hu : engineTick s = .next u)
    (hr : (isParameter r && commandInFlight s) = false) : Ticked (regWrite r d s u) := by
  have ht := Ticked.engine h hu
  by_cases hp : isParameter r = true
  · obtain ⟨hb, hd⟩ := commandInFlight_false (s := s) (by simpa [hp] using hr)
    rw [engineTick_quiet hb hd] at hu
    have hub := isBusy_quiet_eng hb
    cases r with
    | buf k =>
      cases hu
      refine ht.quiet hub ?_ rfl rfl ht.1.pendingInIdle rfl rfl rfl rfl
      exact Memory.wf_store _ ht.1.bufWf (by unfold Config.bufBytes; exact k.isLt)
    | scanState => cases hu; exact ht.quiet hub ht.1.bufWf rfl rfl ht.1.pendingInIdle rfl rfl rfl rfl
    | endState => cases hu; exact ht.quiet hub ht.1.bufWf rfl rfl ht.1.pendingInIdle rfl rfl rfl rfl
    | chainLength => cases hu; exact ht.quiet hub ht.1.bufWf rfl rfl ht.1.pendingInIdle rfl rfl rfl rfl
    | command => cases hu; exact ht.quiet hub ht.1.bufWf rfl rfl ht.1.pendingInIdle rfl rfl rfl rfl
    | control => cases hp
    | status => cases hp
    | curState => cases hp
  · cases r with
    | control =>
      by_cases ht' : (triggerEdge d s && !dispatching s) = true
      · simp only [triggerEdge, Bool.and_eq_true, decide_eq_true_eq, Bool.not_eq_true'] at ht'
        have hb : isBusy s = false := by simp [isBusy, ht'.1.2]
        rw [engineTick_quiet hb ht'.2] at hu
        have hub := isBusy_quiet_eng hb
        cases hu
        refine ht.quiet hub ht.1.bufWf rfl rfl (fun _ => ?_) rfl rfl rfl rfl
        simp [Machine.regWrite, ht'.1.2]
      · have : pendingAfterWrite d s u = u.pending := by rw [pendingAfterWrite, if_neg ht']
        simp only [Machine.regWrite, this]
        exact ht.congr rfl
    | status => exact ht
    | curState => exact ht
    | buf k => exact absurd rfl hp
    | scanState => exact absurd rfl hp
    | endState => exact absurd rfl hp
    | chainLength => exact absurd rfl hp
    | command => exact absurd rfl hp

/-! ## The ticks -/

theorem requestTick_next {f : State → State} {s t : State} (h : requestTick f s = .next t) :
    s.busAck = false ∧ ∃ u, engineTick s = .next u ∧ t = drive (f u) := by
  unfold requestTick at h
  split at h
  · cases h
  · next ha =>
    obtain ⟨u, hu, h⟩ := andThen_eq_next.mp h
    cases h
    exact ⟨by simpa using ha, u, hu, rfl⟩

theorem idleTick_next_iff {s t : State} :
    idleTick s = .next t ↔ ∃ u, engineTick s = .next u ∧ t = drive (withAck false u) := by
  constructor
  · intro h
    obtain ⟨u, hu, h⟩ := andThen_eq_next.mp h
    cases h
    exact ⟨u, hu, rfl⟩
  · rintro ⟨u, hu, rfl⟩
    simp [idleTick, tickWith, hu]

/-- The engine's part of a tick leaves the parameters, the divider and the read data. -/
theorem PortsFit.engine {s u : State} (h : PortsFit s) (hu : engineTick s = .next u) : PortsFit u := by
  cases hp : pulseOp s with
  | some p =>
    rw [engineTick_pulse hp] at hu
    cases hu
    unfold pulseTick
    split
    · exact h.congr rfl rfl rfl
    · split
      · exact h.congr (by simp) (by simp) (by simp)
      · unfold stepAfterPulse
        split <;> exact h.congr (by simp) (by simp) (by simp)
  | none =>
    rw [engineTick_none hp] at hu
    unfold bookkeepingTick at hu
    split at hu
    · cases hu
      unfold stepIdle
      split
      · split
        · exact h.congr rfl rfl rfl
        · split
          · exact h.congr rfl rfl rfl
          · split <;> exact h.congr rfl rfl rfl
      · exact h
    · cases hu; exact h.congr rfl rfl rfl
    · cases hu; exact h.congr rfl rfl rfl
    · unfold shiftEntry at hu
      split at hu
      · cases hu
      · split at hu <;> cases hu
        exact h.congr rfl rfl rfl
    · cases hu; exact h.congr rfl rfl rfl
    · cases hu; exact h.congr rfl rfl rfl
    · cases hu; exact h.congr rfl rfl rfl
    · cases hu; exact h.congr (by simp) (by simp) (by simp)

/-- R60, R65: what a read returns fits the narrowest bus R6 admits. -/
theorem regRead_lt (r : Reg) (s : State) : regRead r s < 2 ^ 16 := by
  have h8 : ∀ b : Byte, b.toNat < 2 ^ 16 := fun b => by omega
  have h4 : ∀ n : Nibble, n.toNat < 2 ^ 16 := fun n => by omega
  have h1 : ∀ b, bitWord b < 2 ^ 16 := by decide
  cases r with
  | buf k =>
    show (if readsIntermediate k.toNat s then _ else _) < 2 ^ 16
    split <;> exact h8 _
  | scanState => exact h4 _
  | endState => exact h4 _
  | chainLength => exact s.chainLength.isLt
  | control => exact h1 _
  | status => exact h1 _
  | command => exact Nat.lt_trans s.command.isLt (by decide)
  | curState => exact h4 _

/-- A read puts a word of DW bits on the bus. -/
theorem PortsFit.read {s : State} (h : PortsFit s) (r : Reg) (q : State) : regRead r q < 2 ^ s.params.dataWidth := by
  have hw := h.paramsWf
  simp only [Params.wf, Bool.and_eq_true, decide_eq_true_eq] at hw
  exact Nat.lt_of_lt_of_le (regRead_lt r q) (Nat.pow_le_pow_right (by decide) hw.1)

/-- A write puts nothing on it. -/
theorem PortsFit.regWrite {u : State} (h : PortsFit u) (r : Reg) (d : Data) (s : State) :
    PortsFit (regWrite r d s u) := by
  cases r <;> exact h.congr rfl rfl rfl

theorem Inv.idleTick {s t : State} (h : Inv s) (ht : idleTick s = .next t) : Inv t := by
  obtain ⟨u, hu, rfl⟩ := idleTick_next_iff.mp ht
  exact ((Ticked.engine h hu).congr (t := withAck false u) rfl).drive
    ((h.toPortsFit.engine hu).congr rfl rfl rfl)

theorem Inv.busRead {r : Reg} {s t : State} (h : Inv s) (ht : busRead r s = .next t) : Inv t := by
  obtain ⟨-, u, hu, rfl⟩ := requestTick_next ht
  exact ((Ticked.engine h hu).congr (t := withAck true { u with
    busRdata := regRead r s, draws := u.draws + regReadDraws r s }) rfl).drive
    ⟨(h.toPortsFit.engine hu).paramsWf, (h.toPortsFit.engine hu).dividerFits, (h.toPortsFit.engine hu).read r s⟩

theorem Inv.busWrite {r : Reg} {d : Data} {s t : State} (h : Inv s) (ht : busWrite r d s = .next t) : Inv t := by
  unfold Machine.busWrite at ht
  split at ht
  · cases ht
  · next hr =>
    obtain ⟨-, u, hu, rfl⟩ := requestTick_next ht
    exact ((Ticked.regWrite (d := d) h hu (by simpa using hr)).congr
      (t := withAck true (Machine.regWrite r d s u)) rfl).drive
      (((h.toPortsFit.engine hu).regWrite r d s).congr rfl rfl rfl)

/-- Reset gives the invariant, whatever the block was doing. -/
theorem inv_applyReset {s : State} (h : PortsFit s) : Inv (applyReset s) := by
  refine ⟨⟨rfl, Nat.zero_le _, nofun, rfl, Nat.zero_le _, fun _ => ⟨rfl, rfl⟩, nofun, nofun, nofun, nofun, nofun⟩,
    h.congr rfl rfl rfl, fun p hp => ?_⟩
  cases hp

/-- The three dispatches. -/
theorem Ticked.dispatch {s : State} (h : Inv s) (htr : triggered s = true) :
    Ticked (dispatchScan s) ∧ Ticked (dispatchReset s) ∧ Ticked (dispatchState s) := by
  obtain ⟨he, hp⟩ := triggered_iff.mp htr
  have c := h.toInvCore
  have hr := c.atRest (pulseOp_idle he)
  have hb : betweenPulses s = true := betweenPulses_iff.mpr hr
  refine ⟨?_, ?_, ?_⟩
  · exact ⟨⟨c.bufWf, c.resetCountBound, nofun, c.tckIsHalf, c.halfCountBound, fun _ => hr, nofun, nofun, nofun,
      nofun, nofun⟩, fun h' => (nomatch hb.symm.trans h')⟩
  · exact ⟨⟨c.bufWf, Nat.zero_le _, nofun, c.tckIsHalf, c.halfCountBound, fun _ => hr, nofun, nofun, nofun, nofun,
      fun _ => tapRun_five_ones _⟩, fun h' => (nomatch hb.symm.trans h')⟩
  · exact ⟨⟨c.bufWf, c.resetCountBound, nofun, c.tckIsHalf, c.halfCountBound, fun _ => hr, nofun, fun _ => rfl,
      nofun, nofun, nofun⟩, fun h' => (nomatch hb.symm.trans h')⟩

end Sys2Proof.Machine
end

