-- ==== Sys2Proof/Laws/Driver.lean ====
section
/-! SUPPORT. A blocking host beside the engine: its accesses in a quiet block, and its polls during a command. The engine
takes no notice of the bus outputs, so a run of ticks is the same with reads in it. -/

namespace Sys2Proof.Machine

/-- The bus outputs (R12). -/
def withBus (a : Bool) (d : Data) (s : State) : State := { s with busAck := a, busRdata := d }

/-- Two states that differ in the bus outputs only. -/
def BusOnly (s t : State) : Prop := t = withBus t.busAck t.busRdata s

theorem BusOnly.refl (s : State) : BusOnly s s := rfl

theorem pulseOp_withBus (a : Bool) (d : Data) (s : State) : pulseOp (withBus a d s) = pulseOp s := rfl

theorem drive_withBus (a : Bool) (d : Data) (s : State) : drive (withBus a d s) = withBus a d (drive s) := by
  unfold drive
  rw [pulseOp_withBus]
  split
  · rfl
  · next p _ =>
    by_cases h : s.tckHalf = .low ∧ s.halfCount = 0
    · exact (if_pos (c := (withBus a d s).tckHalf = .low ∧ (withBus a d s).halfCount = 0) h).trans
        (congrArg (withBus a d) (if_pos (t := withPins p.tms (p.tdi.getD s.tdi) s) h).symm)
    · exact (if_neg (c := (withBus a d s).tckHalf = .low ∧ (withBus a d s).halfCount = 0) h).trans
        (congrArg (withBus a d) (if_neg (t := withPins p.tms (p.tdi.getD s.tdi) s) h).symm)

theorem risingEdge_withBus (p : PulseOp) (a : Bool) (d : Data) (s : State) :
    risingEdge p (withBus a d s) = withBus a d (risingEdge p s) := by
  unfold risingEdge
  cases p.capture
  · rfl
  · simp only [if_true, dutEdge_eq, sampleTdo_eq]
    rfl

theorem stepAfterPulse_withBus (a : Bool) (d : Data) (s : State) :
    stepAfterPulse (withBus a d s) = withBus a d (stepAfterPulse s) := by
  unfold stepAfterPulse
  have h : (withBus a d s).eng = s.eng := rfl
  cases he : s.eng <;> simp only [h, he] <;> rfl

theorem pulseTick_withBus (p : PulseOp) (a : Bool) (d : Data) (s : State) :
    pulseTick p (withBus a d s) = withBus a d (pulseTick p s) := by
  by_cases h : s.halfCount < s.clockDivider
  · rw [pulseTick, pulseTick, if_pos h, if_pos (show (withBus a d s).halfCount < (withBus a d s).clockDivider from h)]
    rfl
  · rw [pulseTick, pulseTick, if_neg h,
      if_neg (show ¬(withBus a d s).halfCount < (withBus a d s).clockDivider from h)]
    have e : (withBus a d s).tckHalf = s.tckHalf := rfl
    cases hh : s.tckHalf
    · simp only [e, hh]; exact risingEdge_withBus p a d s
    · simp only [e, hh]; exact stepAfterPulse_withBus a d (fallingEdge p s)

theorem engineTick_withBus {s u : State} (a : Bool) (d : Data) (h : engineTick s = .next u) :
    engineTick (withBus a d s) = .next (withBus a d u) := by
  cases hp : pulseOp s with
  | some p =>
    rw [engineTick_pulse hp] at h
    cases h
    rw [engineTick_pulse (s := withBus a d s) (p := p) hp, pulseTick_withBus]
  | none =>
    rw [engineTick_none hp] at h
    rw [engineTick_none (s := withBus a d s) hp]
    unfold bookkeepingTick at *
    have e : (withBus a d s).eng = s.eng := rfl
    rw [e]
    cases he : s.eng with
    | idle =>
      simp only [he] at h ⊢
      cases h
      unfold stepIdle
      by_cases h1 : s.pending = true
      · simp only [show (withBus a d s).pending = s.pending from rfl, h1, if_true,
          show (withBus a d s).command = s.command from rfl]
        by_cases h2 : s.command = 1#3
        · simp only [if_pos h2]; rfl
        · by_cases h3 : s.command = 2#3
          · simp only [if_neg h2, if_pos h3]; rfl
          · by_cases h4 : s.command = 3#3
            · simp only [if_neg h2, if_neg h3, if_pos h4]; rfl
            · simp only [if_neg h2, if_neg h3, if_neg h4]
      · simp only [show (withBus a d s).pending = s.pending from rfl, h1, if_false, Bool.false_eq_true]
    | gotoStart =>
      simp only [he, shiftEntry] at h ⊢
      split at h
      · cases h
      · next h1 =>
        split at h
        · cases h
        · next h2 =>
          cases h
          rw [if_neg (show ¬isStable (withBus a d s).scanState = false from h1),
            if_neg (show ¬Config.bufBits < (withBus a d s).chainLength.toNat from h2)]
          rfl
    | done =>
      simp only [he] at h ⊢
      cases h
      unfold stepDone
      by_cases h1 : s.go = true
      · simp only [show (withBus a d s).go = s.go from rfl, h1, if_true]
      · simp only [show (withBus a d s).go = s.go from rfl, h1, if_false, Bool.false_eq_true]; rfl
    | preShift => simp only [he] at h ⊢; cases h; rfl
    | clearBuffer => simp only [he] at h ⊢; cases h; rfl
    | shift => simp only [he] at h ⊢; cases h; rfl
    | gotoState => simp only [he] at h ⊢; cases h; rfl
    | tapReset => simp only [he] at h ⊢; cases h; rfl

/-- A tick beside other bus outputs. -/
theorem BusOnly.idleTick {s t u : State} (h : BusOnly s t) (hu : idleTick s = .next u) :
    ∃ v, Machine.idleTick t = .next v ∧ BusOnly u v ∧ v.busAck = false ∧ v.busRdata = t.busRdata := by
  obtain ⟨w, hw, rfl⟩ := idleTick_next_iff.mp hu
  rw [h]
  refine ⟨_, idleTick_next_iff.mpr ⟨_, engineTick_withBus t.busAck t.busRdata hw, rfl⟩, ?_⟩
  have e : withAck false (withBus t.busAck t.busRdata w) = withBus false t.busRdata (withAck false w) := rfl
  rw [e, drive_withBus]
  exact ⟨rfl, rfl, rfl⟩

/-- A tick with a read of the status register in it. -/
theorem BusOnly.statusTick {s t u : State} (h : BusOnly s t) (ha : t.busAck = false) (hu : Machine.idleTick s = .next u) :
    ∃ v, busRead .status t = .next v ∧ BusOnly u v ∧ v.busAck = true ∧ v.busRdata = bitWord (isBusy s) := by
  obtain ⟨w, hw, rfl⟩ := idleTick_next_iff.mp hu
  have he := engineTick_withBus t.busAck t.busRdata hw
  rw [← h] at he
  have hb : isBusy t = isBusy s := by rw [h]; rfl
  refine ⟨withBus true (bitWord (isBusy s)) (drive (withAck false w)), ?_, rfl, rfl, rfl⟩
  · rw [busRead, requestTick, if_neg (by simp [ha]), tickWith, he, andThen_next, ← drive_withBus]
    simp only [regRead, regReadDraws, hb]
    rfl

theorem BusOnly.isBusy {s t : State} (h : BusOnly s t) : Machine.isBusy t = Machine.isBusy s := by
  rw [h]; rfl

theorem BusOnly.trans {s t u : State} (h : BusOnly s t) (g : BusOnly t u) : BusOnly s u := by
  rw [BusOnly, g, h]; rfl

/-- R121: a tick of DONE with GO still up. -/
theorem idleTick_done {s : State} (he : s.eng = .done) (hg : s.go = true) :
    Machine.idleTick s = .next (withAck false s) := by
  rw [idleTick_none (by simp [pulseOp, he]), bookkeepingTick, he]
  simp only [stepDone, hg, if_true, andThen_next]
  rw [drive_done (s := withAck false s) he]

/-- The two ticks of a poll, over two ticks of the engine. -/
theorem hostRead_status {s t u v : State} (h : BusOnly s t) (ha : t.busAck = false)
    (hu : Machine.idleTick s = .next u) (hv : Machine.idleTick u = .next v) :
    ∃ w, hostRead .status t = .next (bitWord (Machine.isBusy s), w) ∧ BusOnly v w ∧ w.busAck = false := by
  obtain ⟨t1, h1, b1, -, d1⟩ := h.statusTick ha hu
  obtain ⟨t2, h2, b2, a2, -⟩ := b1.idleTick hv
  refine ⟨t2, ?_, b2, a2⟩
  rw [hostRead, awaitAck, if_neg (by simp [ha]), andThen_next, h1, andThen_next, h2, andThen_next, d1]

/-- R154: the poll ends with the command, in DONE. -/
theorem poll_run {n fuel : Nat} {s t u : State} {es : List Edge} (h : Run n s u es) (hu : u.eng = .done)
    (hg : u.go = true) (hb : BusOnly s t) (ha : t.busAck = false) (hf : n + 1 ≤ fuel) :
    ∃ v, poll fuel t = .next v ∧ BusOnly u v ∧ v.busAck = false := by
  induction n using Nat.strongRecOn generalizing s t fuel es with
  | ind n ih =>
    obtain ⟨f, rfl⟩ : ∃ f, fuel = f + 1 := ⟨fuel - 1, by omega⟩
    have hd := idleTick_done hu hg
    have hd2 := idleTick_done (s := withAck false u) hu hg
    match n, h, ih, hf with
    | 0, h, ih, hf =>
      cases h.ticks
      obtain ⟨w, hw, bw, aw⟩ := hostRead_status hb ha hd hd2
      refine ⟨w, ?_, bw, aw⟩
      rw [poll, hw, andThen_next]
      simp [Machine.isBusy, hu, bitWord]
    | 1, h, ih, hf =>
      obtain ⟨hs, v, hv, hr⟩ := h.uncons
      cases hr.ticks
      obtain ⟨w, hw, bw, aw⟩ := hostRead_status hb ha hv hd
      obtain ⟨x, hx, bx, ax⟩ := ih 0 (by omega) (fuel := f) (Run.refl u)
        ((show BusOnly u (withAck false u) from rfl).trans bw) aw (by omega)
      refine ⟨x, ?_, bx, ax⟩
      rw [poll, hw, andThen_next]
      simpa [hs, bitWord] using hx
    | n + 2, h, ih, hf =>
      obtain ⟨hs, v, hv, hr⟩ := h.uncons
      obtain ⟨-, y, hy, hr⟩ := hr.uncons
      obtain ⟨w, hw, bw, aw⟩ := hostRead_status hb ha hv hy
      obtain ⟨x, hx, bx, ax⟩ := ih n (by omega) (fuel := f) hr bw aw (by omega)
      refine ⟨x, ?_, bx, ax⟩
      rw [poll, hw, andThen_next]
      simpa [hs, bitWord] using hx

/-! ## Accesses in a quiet block -/

theorem awaitAck_idle {s : State} (he : s.eng = .idle) (hp : s.pending = false) :
    awaitAck s = .next (withAck false s) := by
  unfold awaitAck
  split
  · rw [dispatch_tick (pulseOp_idle he) he]
    simp only [stepIdle, hp, Bool.false_eq_true, if_false]
    rw [drive_idle (s := withAck false s) he]
  · next h => rw [show withAck false s = s from by rw [show false = s.busAck by simpa using h]; rfl]

theorem engineTick_idle {s : State} (he : s.eng = .idle) (hp : s.pending = false) : engineTick s = .next s := by
  rw [engineTick_none (pulseOp_idle he), bookkeepingTick, he]
  simp [stepIdle, hp]

theorem idleTick_idle {s : State} (he : s.eng = .idle) (hp : s.pending = false) :
    Machine.idleTick s = .next (withAck false s) := by
  rw [idleTick_next_iff]
  exact ⟨s, engineTick_idle he hp, (drive_idle (s := withAck false s) he).symm⟩

/-- A write that starts nothing. -/
theorem hostWrite_idle {s : State} {r : Reg} (d : Data) (he : s.eng = .idle) (hp : s.pending = false)
    (hr : (regWrite r d s s).pending = false) :
    hostWrite r d s = .next (withAck false (regWrite r d s s)) := by
  have hw : ∀ a, (regWrite r d (withAck a s) (withAck a s)) = withAck a (regWrite r d s s) := by
    intro a; cases r <;> rfl
  have hre : (regWrite r d s s).eng = .idle := by cases r <;> exact he
  rw [hostWrite, awaitAck_idle he hp, andThen_next, busWrite, if_neg, requestTick, if_neg (by simp), tickWith,
    engineTick_idle (s := withAck false s) he hp, andThen_next, hw,
    drive_idle (s := withAck true (withAck false (regWrite r d s s))) hre, andThen_next,
    idleTick_idle (s := withAck true (withAck false (regWrite r d s s))) hre hr]
  · rfl
  · simp [commandInFlight, isBusy, he, hp]

/-- A read in IDLE. -/
theorem hostRead_idle {s : State} (r : Reg) (he : s.eng = .idle) (hp : s.pending = false) :
    hostRead r s = .next (regRead r s, withBus false (regRead r s) s) := by
  have hb : isBusy s = false := by simp [isBusy, he]
  have h0 : regReadDraws r (withAck false s) = 0 := by
    cases r <;> simp [regReadDraws, readsIntermediate, isBusy, he]
  have hw : regRead r (withAck false s) = regRead r s := by
    cases r <;> rfl
  rw [hostRead, awaitAck_idle he hp, andThen_next, busRead, requestTick, if_neg (by simp), tickWith,
    engineTick_idle (s := withAck false s) he hp, andThen_next, h0, hw, Nat.add_zero]
  have e : drive (withAck true { withAck false s with busRdata := regRead r s }) =
      withBus true (regRead r s) s := drive_idle (s := withBus true (regRead r s) s) he
  rw [e, andThen_next, idleTick_idle (s := withBus true (regRead r s) s) he hp]
  rfl

/-- The write that raises GO: the command is dispatched in its acknowledge tick. -/
theorem hostWrite_go {s : State} (he : s.eng = .idle) (hp : s.pending = false) (hg : s.go = false)
    (hc : s.command = 1#3) :
    hostWrite .control 1 s =
      .next (drive (withAck false (dispatchScan { s with go := true, pending := true }))) := by
  have e : regWrite .control 1 (withAck false s) (withAck false s) =
      withAck false { s with go := true, pending := true } := by
    simp [regWrite, pendingAfterWrite, triggerEdge, dispatching, triggered, hg, he, hp]
    rfl
  rw [hostWrite, awaitAck_idle he hp, andThen_next, busWrite, if_neg (by simp [isParameter]), requestTick,
    if_neg (by simp), tickWith, engineTick_idle (s := withAck false s) he hp, andThen_next, e,
    drive_idle (s := withAck true (withAck false { s with go := true, pending := true })) he, andThen_next,
    (idleTick_dispatch (s := withAck true (withAck false { s with go := true, pending := true }))
      (by simp [triggered, he])).1 hc]
  rfl

/-- The write that lowers GO in DONE: the engine is in IDLE after it. -/
theorem hostWrite_lower {s : State} (he : s.eng = .done) (hg : s.go = true)
    (ha : s.busAck = false) :
    hostWrite .control 0 s = .next { s with go := false, eng := .idle } := by
  have h1 : engineTick s = .next s := by
    rw [engineTick_none (by simp [pulseOp, he]), bookkeepingTick, he]
    simp [stepDone, hg]
  have e : regWrite .control 0 s s = { s with go := false } := by
    simp [regWrite, pendingAfterWrite, triggerEdge, he]
  have h2 : Machine.idleTick (withAck true { s with go := false }) =
      .next (withAck false { s with go := false, eng := .idle }) := by
    rw [idleTick_none (by simp [pulseOp, he]), bookkeepingTick, withAck_eng, he]
    simp only [stepDone, withAck_go, Bool.false_eq_true, if_false, andThen_next]
    rw [drive_idle (by rfl)]
    rfl
  rw [hostWrite, awaitAck, if_neg (by simp [ha]), andThen_next, busWrite, if_neg (by simp [isParameter]),
    requestTick, if_neg (by simp [ha]), tickWith, h1, andThen_next, e,
    drive_done (s := withAck true { s with go := false }) he, andThen_next, h2, ← ha]
  rfl

/-! ## One whole command of the driver -/

theorem scanEdges_bound {s : State} (hL : s.chainLength.toNat ≤ Config.bufBits) :
    5 + (scanEdges s).length * pulseTicks s ≤ commandTickBound s := by
  rw [scanEdges_length]
  have h1 := distance_le s.curState s.scanState
  have h2 := distance_le (afterShift s) s.endState
  unfold commandTickBound pulseTicks Config.routeDiameter
  exact Nat.add_le_add_left (Nat.mul_le_mul_right _ (by omega)) 5

/-- What the driver has written when it raises GO (R153). -/
def scanRequest (len : Nat) (scan finish : TapState) (s : State) : State :=
  { s with
    chainLength := BitVec.ofNat 16 len, scanState := scan, endState := finish, command := 1#3, go := true
    pending := true }

/-- R153, R154, R157: the driver's command is one SCAN, from IDLE to IDLE. -/
theorem scanCommand_run {s : State} (he : s.eng = .idle) (hp : s.pending = false) (hg : s.go = false)
    (hb : betweenPulses s = true) (ht : s.tck = false) {len : Nat} {scan finish : TapState}
    (hs : isStable scan = true) (hL : len ≤ Config.bufBits) :
    ∃ u d, exec .cmdScan (scanRequest len scan finish s) = .next u ∧
      scanCommand len scan finish s = .next { u with go := false, eng := .idle, busAck := false, busRdata := d } := by
  have hLn : (BitVec.ofNat 16 len).toNat = len := by
    unfold Config.bufBits at hL
    rw [BitVec.toNat_ofNat]; omega
  obtain ⟨u, m, b, hrun, hu, -, -⟩ := Run.scan (s := scanRequest len scan finish s) hb ht hs
    (by rw [scanRequest, hLn]; exact hL)
  have hue : u.eng = .done := by rw [hu]
  have hug : u.go = true := by rw [hu]; rfl
  have tap : ∀ t : TapState, tapOfCode (BitVec.ofNat 4 (tapCode t).toNat) = t := by intro t; cases t <;> rfl
  have key : scanCommand len scan finish s =
      andThen (poll (commandTickBound (scanRequest len scan finish s) + 1)
        (drive (withAck false (dispatchScan (scanRequest len scan finish s)))))
        fun s => hostWrite .control 0 s := by
    have h1 : hostWrite .chainLength len s =
        .next (withAck false { s with chainLength := BitVec.ofNat 16 len }) :=
      hostWrite_idle _ he hp hp
    have h2 : hostWrite .scanState (tapCode scan).toNat
          (withAck false { s with chainLength := BitVec.ofNat 16 len }) =
        .next (withAck false { s with chainLength := BitVec.ofNat 16 len, scanState := scan }) := by
      refine (hostWrite_idle _ (by exact he) (by exact hp) (by exact hp)).trans ?_
      simp only [regWrite, tap]; rfl
    have h3 : hostWrite .endState (tapCode finish).toNat
          (withAck false { s with chainLength := BitVec.ofNat 16 len, scanState := scan }) =
        .next (withAck false
          { s with chainLength := BitVec.ofNat 16 len, scanState := scan, endState := finish }) := by
      refine (hostWrite_idle _ (by exact he) (by exact hp) (by exact hp)).trans ?_
      simp only [regWrite, tap]; rfl
    have h4 : hostWrite .command 1 (withAck false
          { s with chainLength := BitVec.ofNat 16 len, scanState := scan, endState := finish }) =
        .next (withAck false { s with
          chainLength := BitVec.ofNat 16 len, scanState := scan, endState := finish, command := 1#3 }) := by
      exact hostWrite_idle _ (by exact he) (by exact hp) (by exact hp)
    have h5 : hostWrite .control 1 (withAck false { s with
          chainLength := BitVec.ofNat 16 len, scanState := scan, endState := finish, command := 1#3 }) =
        .next (drive (withAck false (dispatchScan (scanRequest len scan finish s)))) := by
      exact hostWrite_go (by exact he) (by exact hp) (by exact hg) (by rfl)
    have hcb : commandTickBound (drive (withAck false (dispatchScan (scanRequest len scan finish s)))) =
        commandTickBound (scanRequest len scan finish s) := by simp [commandTickBound]
    rw [scanCommand, h1, andThen_next, h2, andThen_next, h3, andThen_next, h4, andThen_next, h5, andThen_next, hcb]
  obtain ⟨v, hv, bv, av⟩ := poll_run hrun hue hug (.refl _) (by simp)
    (Nat.succ_le_succ (scanEdges_bound (s := scanRequest len scan finish s) (by
      rw [scanRequest, hLn]; exact hL)))
  have hvu : v = withBus false v.busRdata u := by rw [← av]; exact bv
  have hve : v.eng = .done := by rw [hvu]; exact hue
  have hvg : v.go = true := by rw [hvu]; exact hug
  refine ⟨u, v.busRdata, ?_, ?_⟩
  · rw [exec, execCmdScan, if_pos (by simp [triggered, scanRequest, he]), runCommand]
    exact runToDone_of_run hrun hue (scanEdges_bound (s := scanRequest len scan finish s) (by
      rw [scanRequest, hLn]; exact hL))
  · rw [key, hv, andThen_next, hostWrite_lower hve hvg av, hvu]
    rfl

/-! ## Loading and reading back the vector -/

/-- The bytes stored in order from index `k` on (R152). -/
def storeBytes : Nat → List Byte → State → State
  | _, [], s => s
  | k, b :: r, s => storeBytes (k + 1) r (writeByte s k b)

theorem storeBytes_eq (k : Nat) (l : List Byte) (s : State) :
    storeBytes k l s = { s with buf := (storeBytes k l s).buf } := by
  induction l generalizing k s with
  | nil => rfl
  | cons b l ih => rw [storeBytes, ih]; rfl

theorem storeBytes_withAck (k : Nat) (l : List Byte) (a : Bool) (s : State) :
    storeBytes k l (withAck a s) = withAck a (storeBytes k l s) := by
  induction l generalizing k s with
  | nil => rfl
  | cons b l ih => exact ih (k + 1) (writeByte s k b)

theorem readByte_storeBytes_ne {k j : Nat} {l : List Byte} {s : State} (h : j < k ∨ k + l.length ≤ j) :
    readByte (storeBytes k l s) j = readByte s j := by
  induction l generalizing k s with
  | nil => rfl
  | cons b l ih =>
    simp only [List.length_cons] at h
    rw [storeBytes, ih (by omega), readByte_writeByte_ne _ _ (by omega)]

theorem readByte_storeBytes {k j : Nat} {l : List Byte} {s : State} (h : j < l.length) :
    readByte (storeBytes k l s) (k + j) = l[j] := by
  induction l generalizing k j s with
  | nil => cases h
  | cons b l ih =>
    cases j with
    | zero =>
      rw [storeBytes, readByte_storeBytes_ne (by omega)]
      exact readByte_writeByte_same _ _ _
    | succ j =>
      rw [storeBytes, show k + (j + 1) = k + 1 + j by omega, ih (by simpa using h)]
      rfl

theorem bufIndex {k : Nat} (h : k < Config.bufBytes) : (BitVec.ofNat 10 k).toNat = k := by
  unfold Config.bufBytes at h
  rw [BitVec.toNat_ofNat]; omega

theorem loadBytes_idle {k : Nat} {l : List Byte} {s : State} (he : s.eng = .idle) (hp : s.pending = false)
    (hk : k + l.length ≤ Config.bufBytes) :
    loadBytes k l s = .next (withAck (if l = [] then s.busAck else false) (storeBytes k l s)) := by
  induction l generalizing k s with
  | nil => simp [loadBytes, storeBytes]
  | cons b l ih =>
    simp only [List.length_cons] at hk
    have hw : regWrite (.buf (BitVec.ofNat 10 k)) b.toNat s s = writeByte s k b := by
      rw [regWrite, bufIndex (by omega), BitVec.ofNat_toNat, BitVec.setWidth_eq]
    rw [loadBytes, hostWrite_idle _ he hp (by rw [hw]; exact hp), andThen_next, hw,
      ih (by exact he) (by exact hp) (by omega), storeBytes_withAck, withAck_withAck]
    simp [storeBytes]

theorem readBytes_idle {k n : Nat} {s : State} (he : s.eng = .idle) (hp : s.pending = false)
    (hk : k + n ≤ Config.bufBytes) :
    ∃ t, readBytes k n s = .next ((List.range n).map fun i => readByte s (k + i), t) ∧ BusOnly s t ∧
      (t.busAck = if n = 0 then s.busAck else false) := by
  induction n generalizing k s with
  | zero => exact ⟨s, rfl, .refl s, rfl⟩
  | succ n ih =>
    have hv : regRead (.buf (BitVec.ofNat 10 k)) s = (readByte s k).toNat := by
      simp [regRead, readsIntermediate, isBusy, he, bufIndex (show k < Config.bufBytes by omega)]
    obtain ⟨t, ht, bt, at'⟩ := ih (k := k + 1) (s := withBus false (regRead (.buf (BitVec.ofNat 10 k)) s) s)
      (by exact he) (by exact hp) (by omega)
    refine ⟨t, ?_, BusOnly.trans (t := withBus false (regRead (.buf (BitVec.ofNat 10 k)) s) s) rfl bt, ?_⟩
    · rw [readBytes, hostRead_idle _ he hp, andThen_next]
      simp only
      rw [ht, andThen_next, hv, BitVec.ofNat_toNat, BitVec.setWidth_eq,
        List.range_succ_eq_map, List.map_cons, List.map_map]
      congr 3
      apply List.map_congr_left
      intro i _
      show readByte s (k + 1 + i) = readByte s (k + (i + 1))
      congr 1; omega
    · rw [at']
      by_cases h : n = 0 <;> simp [h, withBus]

/-! ## The vector's text -/

theorem padDigits_length (ds : List Nibble) : (padDigits ds).length = 2 * ((ds.length + 1) / 2) := by
  unfold padDigits
  split
  · rw [List.length_cons]; omega
  · omega

theorem pairDigits_length {ds : List Nibble} {n : Nat} (h : ds.length = 2 * n) : (pairDigits ds).length = n := by
  induction n generalizing ds with
  | zero => rw [List.eq_nil_of_length_eq_zero h]; rfl
  | succ n ih =>
    match ds, h with
    | a :: b :: r, h =>
      rw [pairDigits, List.length_cons, ih (by simp only [List.length_cons] at h; omega)]

theorem renderBytes_length (l : List Byte) : (renderBytes l).length = 2 * l.length := by
  rw [renderBytes, List.length_flatMap]
  simp [Nat.mul_comm]

/-- R155: the text is cut to its last `ceil(count / 4)` characters, which takes off one at most. -/
theorem decodeVector_eq {count : Nat} {l : List Byte} (h : l.length = nbytes count) :
    decodeVector count l = (renderBytes l).drop (2 * nbytes count - (count + 3) / 4) := by
  have hn := nbytes_eq count
  rw [decodeVector]
  simp only [renderBytes_length, h]
  split
  · rw [show 2 * nbytes count - (count + 3) / 4 = 1 by omega]
  · rw [show 2 * nbytes count - (count + 3) / 4 = 0 by omega, List.drop_zero]

theorem nibbles_of_byte (a b : Nibble) :
    (a ++ b).extractLsb' 4 4 = a ∧ (a ++ b).extractLsb' 0 4 = b := by
  revert a b; decide

theorem unpair {ds : List Nibble} {n : Nat} (h : ds.length = 2 * n) :
    ((pairDigits ds).flatMap fun b => [hexChar (b.extractLsb' 4 4), hexChar (b.extractLsb' 0 4)]) = ds.map hexChar := by
  induction n generalizing ds with
  | zero => rw [List.eq_nil_of_length_eq_zero h]; rfl
  | succ n ih =>
    match ds, h with
    | a :: b :: r, h =>
      have hr := ih (ds := r) (by simp only [List.length_cons] at h; omega)
      rw [pairDigits, List.flatMap_cons, hr, (nibbles_of_byte a b).1, (nibbles_of_byte a b).2]
      rfl

theorem encodeVector_length (ds : List Nibble) : (encodeVector ds).length = (ds.length + 1) / 2 := by
  rw [encodeVector, List.length_reverse, pairDigits_length (padDigits_length ds)]

/-- R151, R155: the text of the bytes of a vector is the padded digits it was given as. -/
theorem renderBytes_encodeVector (ds : List Nibble) : renderBytes (encodeVector ds) = (padDigits ds).map hexChar := by
  rw [renderBytes, encodeVector, List.reverse_reverse, unpair (padDigits_length ds)]

end Sys2Proof.Machine
end

