-- ==== Sys2Proof/Laws/Encoding.lean ====
section
/-! SUPPORT. Encodings read back: the text of session lines and driver calls, and the offsets of the bus map. -/

namespace Sys2Proof

@[simp] theorem hexDigit_hexChar (n : Nibble) : hexDigit (hexChar n) = some n := by
  revert n; decide

@[simp] theorem hexDigit_lowerHexChar (n : Nibble) : hexDigit (lowerHexChar n) = some n := by
  revert n; decide

theorem hexChar_ne_space (n : Nibble) : hexChar n ≠ spaceChar := by
  revert n; decide

theorem hexChar_ne_newline (n : Nibble) : hexChar n ≠ newlineChar := by
  revert n; decide

@[simp] theorem hexDigits_map_hexChar (ds : List Nibble) : hexDigits (ds.map hexChar) = some ds := by
  induction ds with
  | nil => rfl
  | cons d ds ih => simp [hexDigits, ih]

theorem hexValue_append (acc : Nat) (l r : List Nibble) :
    hexValue acc (l ++ r) = hexValue (hexValue acc l) r := by
  induction l generalizing acc with
  | nil => rfl
  | cons d l ih => exact ih _

/-- The rendered digits denote the number they are the low digits of. -/
theorem hexValue_hexDigitsOf (n v : Nat) : hexValue 0 (hexDigitsOf n v) = v % 16 ^ n := by
  induction n generalizing v with
  | zero => rw [Nat.pow_zero, Nat.mod_one]; rfl
  | succ n ih =>
    rw [hexDigitsOf, hexValue_append, ih, Nat.pow_succ', Nat.mod_mul, hexValue, hexValue, BitVec.toNat_ofNat]
    omega

/-- A number fits its own digits, with or without leading zeros. -/
theorem lt_hexLength (v k : Nat) : v < 16 ^ (hexLength v + k) := by
  rw [show (16 : Nat) = 2 ^ 4 from rfl, ← Nat.pow_mul]
  exact Nat.lt_of_lt_of_le Nat.lt_log2_self (Nat.pow_le_pow_right (by decide) (by unfold hexLength; omega))

/-- The digits of a number denote it. -/
theorem hexValue_hexLength (v k : Nat) : hexValue 0 (hexDigitsOf (hexLength v + k) v) = v := by
  rw [hexValue_hexDigitsOf, Nat.mod_eq_of_lt (lt_hexLength v k)]

theorem renderHex_isEmpty (n v : Nat) : (renderHex (n + 1) v).isEmpty = false := by
  simp [renderHex, hexDigitsOf]

/-- Reading back a number of at most `bits` bits, written with enough digits. -/
theorem parseHex_renderHex {bits n v : Nat} (h : v < 2 ^ bits) (hn : v < 16 ^ (n + 1)) :
    parseHex bits (renderHex (n + 1) v) = .ok v := by
  have hv : hexValue 0 (hexDigitsOf (n + 1) v) = v := by rw [hexValue_hexDigitsOf, Nat.mod_eq_of_lt hn]
  rw [parseHex, renderHex_isEmpty, renderHex, hexDigits_map_hexChar]
  simp [hv, h]

theorem parseHex_addr (a : Addr) : parseHex 32 (renderHex 8 a.toNat) = .ok a.toNat :=
  parseHex_renderHex a.isLt a.isLt

/-- R60: `ceil(DW / 4)` digits hold a word of DW bits. -/
theorem parseHex_data {p : Params} {d : Data} (h : dataFits p d = true) :
    parseHex p.dataWidth (renderHex (dataDigits p) d) = .ok d := by
  simp only [dataFits, decide_eq_true_eq] at h
  obtain ⟨n, hn⟩ : ∃ n, dataDigits p = n + 1 := ⟨dataDigits p - 1, by unfold dataDigits; omega⟩
  rw [hn]
  refine parseHex_renderHex h.2 (Nat.lt_of_lt_of_le h.2 ?_)
  rw [← hn, show (16 : Nat) = 2 ^ 4 from rfl, ← Nat.pow_mul]
  exact Nat.pow_le_pow_right (by decide) (by unfold dataDigits; omega)

/-! ## Words and lines -/

theorem splitWords_word {w : List Byte} (h : ∀ c ∈ w, c ≠ spaceChar) : splitWords w = [w] := by
  induction w with
  | nil => rfl
  | cons c w ih =>
    rw [splitWords, if_neg (h c (by simp)), ih (fun d hd => h d (by simp [hd]))]

theorem splitWords_space {w : List Byte} (h : ∀ c ∈ w, c ≠ spaceChar) (r : List Byte) :
    splitWords (w ++ spaceChar :: r) = w :: splitWords r := by
  induction w with
  | nil => simp [splitWords]
  | cons c w ih =>
    rw [List.cons_append, splitWords, if_neg (h c (by simp)), ih (fun d hd => h d (by simp [hd]))]

theorem stripNewline_append {l : List Byte} (h : ∀ c ∈ l, c ≠ newlineChar) :
    stripNewline (l ++ [newlineChar]) = some l := by
  induction l with
  | nil => rfl
  | cons c l ih =>
    rw [List.cons_append, stripNewline, if_neg (h c (by simp)), ih (fun d hd => h d (by simp [hd]))]
    rfl

theorem renderHex_ne_space (n v : Nat) : ∀ c ∈ renderHex n v, c ≠ spaceChar := by
  simp only [renderHex, List.mem_map, forall_exists_index, and_imp, forall_apply_eq_imp_iff₂]
  exact fun n _ => hexChar_ne_space n

theorem renderHex_ne_newline (n v : Nat) : ∀ c ∈ renderHex n v, c ≠ newlineChar := by
  simp only [renderHex, List.mem_map, forall_exists_index, and_imp, forall_apply_eq_imp_iff₂]
  exact fun n _ => hexChar_ne_newline n

/-! ## Offsets -/

theorem engineBase_cancel (p : Params) (off : Addr) : p.engineBase + off - p.engineBase = off := by bv_omega

/-- Above 0x405 only ADDR_CUR_STATE selects a register (R48, R68, R142). -/
theorem decodeOffset_above {p : Params} {off : Addr} (h : 0x405 < off.toNat) :
    decodeOffset p off = if p.addrCurState.map (·.toNat) = some off.toNat then some .curState else none := by
  have ne : ∀ n, n ≤ 0x405 → off.toNat ≠ n := fun n hn he => Nat.not_lt_of_le hn (he ▸ h)
  have hb : ¬off.toNat < 0x400 := fun hb => absurd (Nat.lt_trans h hb) (by decide)
  simp only [decodeOffset, hb, ne 0x400 (by decide), ne 0x401 (by decide), ne 0x402 (by decide),
    ne 0x403 (by decide), ne 0x404 (by decide), ne 0x405 (by decide), if_false]

/-- Every register's offset selects it; `cur_state` where it is mapped (R48, R142). -/
theorem decodeOffset_regOffset (p : Params) (r : Reg) (h : r = .curState → curStateMapped p = true) :
    decodeOffset p (regOffset p r) = some r := by
  cases r with
  | buf k =>
    have hk : (k.setWidth 32).toNat < 0x400 := by
      have := k.isLt
      rw [BitVec.toNat_setWidth]; omega
    unfold decodeOffset regOffset
    rw [if_pos hk, BitVec.setWidth_setWidth_of_le _ (by decide), BitVec.setWidth_eq]
  | curState =>
    have := h rfl
    simp only [curStateMapped, Params.curStateFree, Bool.and_eq_true] at this
    cases ha : p.addrCurState with
    | none => simp [ha] at this
    | some a =>
      simp only [ha, decide_eq_true_eq] at this
      have e : (a.setWidth 32).toNat = a.toNat := by
        have := a.isLt
        rw [BitVec.toNat_setWidth]; omega
      rw [regOffset, ha, Option.getD_some, decodeOffset_above (by rw [e]; exact this.2), ha, e]
      exact if_pos rfl
  | scanState => rfl
  | endState => rfl
  | chainLength => rfl
  | control => rfl
  | status => rfl
  | command => rfl

/-- R68, R143: an offset outside the map selects nothing. -/
theorem decodeOffset_outside {p : Params} {off : Addr} (h : offsetOutside p off = true) :
    decodeOffset p off = none := by
  simp only [offsetOutside, Bool.and_eq_true, decide_eq_true_eq] at h
  rw [decodeOffset_above h.1, if_neg h.2]

/-! ## Data words -/

/-- R60: a word that fits the port arrives whole. -/
theorem busWord_of_fits {p : Params} {d : Data} (h : dataFits p d = true) : p.busWord d = d := by
  simp only [dataFits, decide_eq_true_eq] at h
  exact Nat.mod_eq_of_lt h.2

end Sys2Proof
end

