-- ==== Sys2Proof/Laws/PerInstr.lean ====
section
/-! SUPPORT. Per-instruction families: one lemma for each constructor of Instr. -/

namespace Sys2Proof.Laws

/-- R74: an instruction's encoding is in the format its row of spec/opcode_table.json names. -/
def EncodesInFormat.Statement (i : Instr) : Prop := ∀ p : Params, (encode p i).format = i.format

theorem EncodesInFormat.cmdNone : EncodesInFormat.Statement .cmdNone := fun _ => rfl
theorem EncodesInFormat.cmdScan : EncodesInFormat.Statement .cmdScan := fun _ => rfl
theorem EncodesInFormat.cmdReset : EncodesInFormat.Statement .cmdReset := fun _ => rfl
theorem EncodesInFormat.cmdState : EncodesInFormat.Statement .cmdState := fun _ => rfl
theorem EncodesInFormat.cmdReserved4 : EncodesInFormat.Statement .cmdReserved4 := fun _ => rfl
theorem EncodesInFormat.cmdReserved5 : EncodesInFormat.Statement .cmdReserved5 := fun _ => rfl
theorem EncodesInFormat.cmdReserved6 : EncodesInFormat.Statement .cmdReserved6 := fun _ => rfl
theorem EncodesInFormat.cmdReserved7 : EncodesInFormat.Statement .cmdReserved7 := fun _ => rfl
theorem EncodesInFormat.rdBuf (k : BitVec 10) : EncodesInFormat.Statement (.rdBuf k) := fun _ => rfl
theorem EncodesInFormat.wrBuf (k : BitVec 10) (d : Data) : EncodesInFormat.Statement (.wrBuf k d) := fun _ => rfl
theorem EncodesInFormat.rdScanState : EncodesInFormat.Statement .rdScanState := fun _ => rfl
theorem EncodesInFormat.wrScanState (d : Data) : EncodesInFormat.Statement (.wrScanState d) := fun _ => rfl
theorem EncodesInFormat.rdEndState : EncodesInFormat.Statement .rdEndState := fun _ => rfl
theorem EncodesInFormat.wrEndState (d : Data) : EncodesInFormat.Statement (.wrEndState d) := fun _ => rfl
theorem EncodesInFormat.rdChainLength : EncodesInFormat.Statement .rdChainLength := fun _ => rfl
theorem EncodesInFormat.wrChainLength (d : Data) : EncodesInFormat.Statement (.wrChainLength d) := fun _ => rfl
theorem EncodesInFormat.rdControl : EncodesInFormat.Statement .rdControl := fun _ => rfl
theorem EncodesInFormat.wrControl (d : Data) : EncodesInFormat.Statement (.wrControl d) := fun _ => rfl
theorem EncodesInFormat.rdStatus : EncodesInFormat.Statement .rdStatus := fun _ => rfl
theorem EncodesInFormat.wrStatus (d : Data) : EncodesInFormat.Statement (.wrStatus d) := fun _ => rfl
theorem EncodesInFormat.rdCommand : EncodesInFormat.Statement .rdCommand := fun _ => rfl
theorem EncodesInFormat.wrCommand (d : Data) : EncodesInFormat.Statement (.wrCommand d) := fun _ => rfl
theorem EncodesInFormat.rdCurState : EncodesInFormat.Statement .rdCurState := fun _ => rfl
theorem EncodesInFormat.wrCurState (d : Data) : EncodesInFormat.Statement (.wrCurState d) := fun _ => rfl
theorem EncodesInFormat.outOfRange (we : Bool) (addr : Addr) (d : Data) : EncodesInFormat.Statement (.outOfRange we addr d) := fun _ => rfl
theorem EncodesInFormat.mw (addr : Addr) (d : Data) : EncodesInFormat.Statement (.mw addr d) := fun _ => rfl
theorem EncodesInFormat.mr (addr : Addr) : EncodesInFormat.Statement (.mr addr) := fun _ => rfl
theorem EncodesInFormat.startsim (board : List Byte) : EncodesInFormat.Statement (.startsim board) := fun _ => rfl
theorem EncodesInFormat.stopsim : EncodesInFormat.Statement .stopsim := fun _ => rfl
theorem EncodesInFormat.exit : EncodesInFormat.Statement .exit := fun _ => rfl
theorem EncodesInFormat.scanIr (count : Nat) (tdi : List Nibble) : EncodesInFormat.Statement (.scanIr count tdi) := fun _ => rfl
theorem EncodesInFormat.scanDr (count : Nat) (tdi : List Nibble) : EncodesInFormat.Statement (.scanDr count tdi) := fun _ => rfl
theorem EncodesInFormat.runtest (ticks : Nat) : EncodesInFormat.Statement (.runtest ticks) := fun _ => rfl

end Sys2Proof.Laws
end

