-- ==== Sys2Proof/Tests/Slice0.lean ====
section
/-! SUPPORT. Tests of the model. Expected values are the spec's own: the tables of spec/95_test_vectors.md (V and P
numbers), the encodings of spec/30_encoding.md and the register rules of spec/43_register_bridge.md; and for every statement
of Certificates/Slice0/Obligations.lean with hypotheses, a witness that meets them. -/

open Sys2Proof Sys2Proof.Machine

namespace Sys2Proof.Tests

/-! ## Small states -/

/-- The result is a next state with property `p`. -/
def ends (o : Result State) (p : State → Bool) : Bool :=
  match o with
  | .next t => p t
  | .fault _ => false
  | .refused _ => false

/-- The result is this refusal. -/
def refuses (o : Result State) (r : Refusal) : Bool :=
  match o with
  | .next _ => false
  | .fault _ => false
  | .refused q => decide (q = r)

def completes (o : Result State) : Bool := ends o fun _ => true

theorem next_of_completes {o : Result State} (h : completes o = true) : ∃ t, o = .next t := by
  cases o with
  | next t => exact ⟨t, rfl⟩
  | fault r => cases h
  | refused r => cases h

/-- The state the boot sequence of R194 leaves, on an identity-loopback device. -/
def boot : State :=
  { State.reset with tms := true, command := 2, resetCount := 5, dutTap := .testLogicReset, dut := .loopback }

/-- The engine in IDLE with the TAP in `c`. -/
def idleAt (c : TapState) : State := { boot with curState := c, dutTap := c, tms := false }

/-- A trigger is pending with this COMMAND value. -/
def armed (code : BitVec 3) (s : State) : State :=
  { s with command := code, go := true, pending := true }

/-- A SCAN is pending. -/
def scanFrom (c scan finish : TapState) (len : BitVec 16) (b0 b1 : Byte) : State :=
  armed 1 { idleAt c with
    scanState := scan, endState := finish, chainLength := len, buf := [(0, b0), (1, b1)] }

/-- A DR scan of 12 bits (0xAAA) in SHIFT, at the first tick of the pulse of bit `i`. -/
def shifting (i : BitVec 16) : State :=
  { scanFrom .shiftDr .shiftDr .runTestIdle 12 0xAA 0x0A with
    pending := false, eng := .shift, target := .shiftDr, bitIndex := i, endTms := true
    tms := decide (i = 11), tdi := i.getLsbD 0 }

/-- A state in a given phase, with `cur_state` and the target as given. -/
def inPhase (e : Phase) (c t : TapState) : State :=
  { idleAt c with eng := e, target := t, scanState := t, endState := t, go := true }

/-! ## WellFormed: an ill-formed term for each check -/

def noCurState : Params := { Params.default with addrCurState := none }
/-- DW = 16, the narrowest bus R6 admits; DIVW = 4. -/
def narrow : Params := { Params.default with dataWidth := 16, dividerWidth := some 4 }
/-- Below what R6 admits. -/
def tooNarrow : Params := { Params.default with dataWidth := 15 }
def lowCurState : Params := { Params.default with addrCurState := some 0x405#11 }

theorem test_wellFormed_curState_unmapped :
    Instr.wellFormed noCurState .rdCurState = false ∧ Instr.wellFormed noCurState (.wrCurState 0) = false := by
  decide

theorem test_wellFormed_curState_inside_map :
    Instr.wellFormed lowCurState .rdCurState = false ∧ Instr.wellFormed lowCurState (.wrCurState 0) = false := by
  decide

theorem test_wellFormed_outOfRange :
    Instr.wellFormed Params.default (.outOfRange true 0x405 0) = false ∧
    Instr.wellFormed Params.default (.outOfRange true 0x406 0) = false ∧
    Instr.wellFormed Params.default (.outOfRange true 0x407 0) = true ∧
    Instr.wellFormed noCurState (.outOfRange false 0x406 0) = true := by
  decide

/-- R6, R60: data words of DW bits, DW at least 16. -/
theorem test_wellFormed_data :
    Instr.wellFormed Params.default (.wrBuf 0 0x100000000) = false ∧
    Instr.wellFormed narrow (.wrControl 0x10000) = false ∧ Instr.wellFormed narrow (.mw 0x403 0x10000) = false ∧
    Instr.wellFormed narrow (.wrCurState 0x10000) = false ∧
    Instr.wellFormed narrow (.outOfRange true 0x407 0x10000) = false ∧
    Instr.wellFormed narrow (.wrControl 0xFFFF) = true ∧ Instr.wellFormed tooNarrow (.wrControl 0) = false ∧
    Params.wf tooNarrow = false ∧ Params.wf lowCurState = false ∧ Params.wf narrow = true := by
  decide

theorem test_wellFormed_board :
    Instr.wellFormed Params.default (.startsim []) = false ∧
    Instr.wellFormed Params.default (.startsim [0x41, 0x20]) = false ∧
    Instr.wellFormed Params.default (.startsim [0x41, 0x0A]) = false ∧
    Instr.wellFormed Params.default (.startsim [0x41]) = true := by
  decide

/-- V41: `scan_dr(12, '55')` and `scan_dr(8, '0A55')` are refused by the precondition of R152. -/
theorem test_wellFormed_vector :
    Instr.wellFormed Params.default (.scanDr 12 [5, 5]) = false ∧
    Instr.wellFormed Params.default (.scanDr 8 [0, 0xA, 5, 5]) = false ∧
    Instr.wellFormed Params.default (.scanIr 0 []) = false ∧
    Instr.wellFormed Params.default (.scanIr 8193 []) = false ∧
    Instr.wellFormed Params.default (.scanIr 12 [0xA, 0xA, 0xA]) = true := by
  decide

/-! ## Decoding: words written out from the encodings -/

/-- R63, R64: COMMAND[2:0]. -/
theorem test_decode_cmd :
    decodeTableWord 8 0b00000000 = some .cmdNone ∧
    decodeTableWord 8 0b00000001 = some .cmdScan ∧
    decodeTableWord 8 0b00000010 = some .cmdReset ∧
    decodeTableWord 8 0b00000011 = some .cmdState ∧
    decodeTableWord 8 0b00000100 = some .cmdReserved4 ∧
    decodeTableWord 8 0b00000101 = some .cmdReserved5 ∧
    decodeTableWord 8 0b00000110 = some .cmdReserved6 ∧
    decodeTableWord 8 0b00000111 = some .cmdReserved7 := by
  decide

/-- R67: bus_we, then offset[10:0]; the buffer window is offset[10] = 0. -/
theorem test_decode_bus_buffer :
    decodeTableWord 16 0b0_00000000000 = some (.rdBuf 0) ∧
    decodeTableWord 16 0b0_01111111111 = some (.rdBuf 1023) ∧
    decodeTableWord 16 0b1_00000000000 = some (.wrBuf 0 0) ∧
    decodeTableWord 16 0b1_01000000001 = some (.wrBuf 513 0) := by
  decide

/-- R67: reads, offset[10] = 1. -/
theorem test_decode_bus_reads :
    decodeTableWord 16 0b0_10000000000 = some .rdScanState ∧
    decodeTableWord 16 0b0_10000000001 = some .rdEndState ∧
    decodeTableWord 16 0b0_10000000010 = some .rdChainLength ∧
    decodeTableWord 16 0b0_10000000011 = some .rdControl ∧
    decodeTableWord 16 0b0_10000000100 = some .rdStatus ∧
    decodeTableWord 16 0b0_10000000101 = some .rdCommand ∧
    decodeTableWord 16 0b0_10000000110 = some .rdCurState := by
  decide

/-- R67: writes. The table gives the data word no bits, so it is 0. -/
theorem test_decode_bus_writes :
    decodeTableWord 16 0b1_10000000000 = some (.wrScanState 0) ∧
    decodeTableWord 16 0b1_10000000001 = some (.wrEndState 0) ∧
    decodeTableWord 16 0b1_10000000010 = some (.wrChainLength 0) ∧
    decodeTableWord 16 0b1_10000000011 = some (.wrControl 0) ∧
    decodeTableWord 16 0b1_10000000100 = some (.wrStatus 0) ∧
    decodeTableWord 16 0b1_10000000101 = some (.wrCommand 0) ∧
    decodeTableWord 16 0b1_10000000110 = some (.wrCurState 0) := by
  decide

/-- R68: `MR 500`, `MW 7FF 0` (P6 case d). -/
theorem test_decode_bus_outOfRange :
    decodeTableWord 16 0b0_10100000000 = some (.outOfRange false 0x500 0) ∧
    decodeTableWord 16 0b1_11111111111 = some (.outOfRange true 0x7FF 0) := by
  decide

/-- R67: the data word of a request reaches the instruction, and ENGINE_BASE is taken off the address. -/
theorem test_decode_bus_request :
    decodeBus { Params.default with engineBase := 0x80000000#32 }
      { we := true, addr := 0x80000402#32, wdata := 0xC } = .wrChainLength 0xC := by
  decide

/-- R6, R8: a port carries DW bits. -/
theorem test_decode_bus_narrow :
    decodeBus narrow { we := true, addr := 0x402#32, wdata := 0x1000C } = .wrChainLength 0xC ∧
    decodeBus { narrow with dataWidth := 64 } { we := true, addr := 0x402#32, wdata := 0x10000000C } =
      .wrChainLength 0x10000000C := by
  decide

/-- R160: the line `MW 403 1`. -/
theorem test_decode_mw :
    decodeLine Params.default [0x4D, 0x57, 0x20, 0x34, 0x30, 0x33, 0x20, 0x31, 0x0A] = .ok (.mw 0x403 1) := rfl

/-- R160: the line `MR 3fF`. -/
theorem test_decode_mr : decodeLine Params.default [0x4D, 0x52, 0x20, 0x33, 0x66, 0x46, 0x0A] = .ok (.mr 0x3FF) := rfl

/-- R160: the line `STARTSIM B1`. -/
theorem test_decode_startsim :
    decodeLine Params.default [0x53, 0x54, 0x41, 0x52, 0x54, 0x53, 0x49, 0x4D, 0x20, 0x42, 0x31, 0x0A] =
      .ok (.startsim [0x42, 0x31]) := rfl

/-- R160: the line `STOPSIM`. -/
theorem test_decode_stopsim :
    decodeLine Params.default [0x53, 0x54, 0x4F, 0x50, 0x53, 0x49, 0x4D, 0x0A] = .ok .stopsim := rfl

/-- R160: the line `EXIT`. -/
theorem test_decode_exit : decodeLine Params.default [0x45, 0x58, 0x49, 0x54, 0x0A] = .ok .exit := rfl

/-- R160: lines that are none of the five: `EXIT` without its newline, `MX 1`, `MR 4G`, `MR`. -/
theorem test_decode_line_rejects :
    decodeLine Params.default [0x45, 0x58, 0x49, 0x54] = .error .unterminatedLine ∧
    decodeLine Params.default [0x4D, 0x58, 0x20, 0x31, 0x0A] = .error .unknownLine ∧
    decodeLine Params.default [0x4D, 0x52, 0x20, 0x34, 0x47, 0x0A] = .error .malformedHex ∧
    decodeLine Params.default [0x4D, 0x52, 0x0A] = .error .unknownLine := ⟨rfl, rfl, rfl, rfl⟩

/-- R160: `MW 0 10000` on a bus of 16 bits. -/
theorem test_decode_mw_wide :
    decodeLine narrow [0x4D, 0x57, 0x20, 0x30, 0x20, 0x31, 0x30, 0x30, 0x30, 0x30, 0x0A] =
      .error .valueTooWide := rfl

/-- R150, R157: `scan_ir(8, '5a')` (a lowercase digit: assumption 25), `scan_dr(4, 'F')`, `runtest(5)`, and a character that is no digit. -/
theorem test_decode_call :
    decodeCall .scanIr 8 [0x35, 0x61] = .ok (.scanIr 8 [5, 0xA]) ∧
    decodeCall .scanDr 4 [0x46] = .ok (.scanDr 4 [0xF]) ∧
    decodeCall .runtest 5 [] = .ok (.runtest 5) ∧
    decodeCall .scanDr 4 [0x47] = .error .nonHexDigit := ⟨rfl, rfl, rfl, rfl⟩

/-- R160: '0', 'B' and '2345' have 1, 1 and 4 digits; the two cases of the digit A. -/
theorem test_hex :
    hexLength 0 = 1 ∧ hexLength 0xB = 1 ∧ hexLength 0x2345 = 4 ∧ hexDigitsOf 4 0x2345 = [2, 3, 4, 5] ∧
    hexChar 0xA = 0x41 ∧ lowerHexChar 0xA = 0x61 ∧ lowerHexChar 9 = 0x39 := by
  decide

/-! ## TapGraph (V20, V21), ScanBuffer (V30), vector text (V41) -/

/-- V20. -/
theorem test_path :
    path .shiftDr .exit2Ir = [true, true, true, true, false, true, false, true] ∧
    path .runTestIdle .shiftIr = [true, true, false, false] ∧
    path .exit2Dr .pauseDr = [false, true, false] ∧
    path .updateIr .testLogicReset = [true, true, true] := by
  decide

/-- V20, the diagonal. -/
theorem test_route_diagonal :
    route .testLogicReset .testLogicReset = true ∧ route .runTestIdle .runTestIdle = false := by
  decide

/-- V21: four pulses are not enough from CAPTURE_IR, five are. -/
theorem test_five_ones :
    tapRun .captureIr [true, true, true, true] = .selectIr ∧
    tapRun .captureIr [true, true, true, true, true] = .testLogicReset := by
  decide

/-- V30. -/
theorem test_nbytes :
    nbytes 1 = 1 ∧ nbytes 8 = 1 ∧ nbytes 9 = 2 ∧ nbytes 12 = 2 ∧ nbytes 8192 = 1024 := by
  decide

/-- V30: `read_bit(8191)`, `read_bit(9)`, `read_bit(8)`. -/
theorem test_readBit :
    readBit { boot with buf := [(1023, 0x80)] } 8191 = true ∧
    readBit { boot with buf := [(0, 0xFF), (1, 0x0A)] } 9 = true ∧
    readBit { boot with buf := [(0, 0xFF), (1, 0x0A)] } 8 = false := by
  decide

/-- V30: `write_bit(3, 0)`, `write_bit(9, 0)`, `write_bit(8191, 1)`. -/
theorem test_writeBit :
    readByte (writeBit { boot with buf := [(0, 0xFF)] } 3 false) 0 = 0xF7 ∧
    readByte (writeBit { boot with buf := [(0, 0xFF), (1, 0xFF)] } 9 false) 1 = 0xFD ∧
    readByte (writeBit { boot with buf := [(1023, 0x00)] } 8191 true) 1023 = 0x80 := by
  decide

/-- V41: '1BEEF' with count 17, '15' with count 5; the results are the characters '1F77D', '0D' and '5'. -/
theorem test_vector_text :
    encodeVector [1, 0xB, 0xE, 0xE, 0xF] = [0xEF, 0xBE, 0x01] ∧
    decodeVector 17 [0x7D, 0xF7, 0x01] = [0x31, 0x46, 0x37, 0x37, 0x44] ∧
    decodeVector 5 [0x0D] = [0x30, 0x44] ∧ decodeVector 4 [0x05] = [0x35] := by
  decide

/-! ## The command codes (V31, V40, P6) -/

/-- P6 (a): no pulse, `pending` stays 1. -/
theorem test_cmdNone :
    ends (exec .cmdNone (armed 0 boot)) (fun t => decide (t.eng = .idle ∧ t.pending = true ∧ t.go = true)) = true := by
  decide

theorem test_cmdReserved :
    ends (exec .cmdReserved4 (armed 4 boot)) (fun t => decide (t.eng = .idle ∧ t.pending = true)) = true ∧
    ends (exec .cmdReserved5 (armed 5 boot)) (fun t => decide (t.eng = .idle ∧ t.pending = true)) = true ∧
    ends (exec .cmdReserved6 (armed 6 boot)) (fun t => decide (t.eng = .idle ∧ t.pending = true)) = true ∧
    ends (exec .cmdReserved7 (armed 7 boot)) (fun t => decide (t.eng = .idle ∧ t.pending = true)) = true := by
  decide

/-- V40, row 1, and its final pins. -/
theorem test_cmdScan :
    ends (exec .cmdScan (scanFrom .runTestIdle .shiftDr .runTestIdle 2 0x02 0)) (fun t =>
      decide (t.curState = .runTestIdle ∧ readByte t 0 = 0x02 ∧ t.scanTms = false ∧ t.endTms = true ∧
        t.tms = false ∧ t.tdi = true ∧ t.tck = false)) = true := by
  decide

/-- V31: bits 10 to 15 stay, the device's register holds 0xFFC0. -/
theorem test_cmdScan_across_bytes :
    ends (exec .cmdScan { scanFrom .runTestIdle .shiftDr .runTestIdle 10 0xFF 0xFF with
        dut := .register (List.replicate 16 false) }) (fun t =>
      decide (readByte t 0 = 0x00 ∧ readByte t 1 = 0xFC ∧
        t.dut = .register (List.replicate 6 false ++ List.replicate 10 true))) = true := by
  decide

/-- V40: RESET from SHIFT_DR. -/
theorem test_cmdReset :
    ends (exec .cmdReset (armed 2 (idleAt .shiftDr))) (fun t =>
      decide (t.curState = .testLogicReset ∧ t.dutTap = .testLogicReset ∧ t.tms = true ∧ t.resetCount = 5)) = true := by
  decide

/-- V40: RESET, the pulses: five, TMS = 1. -/
theorem test_cmdReset_pulses :
    (risingEdges 12 (armed 2 (idleAt .shiftDr))).map (·.tms) = [true, true, true, true, true] := by
  decide

/-- V40: STATE from RUN_TEST_IDLE to PAUSE_DR. -/
theorem test_cmdState :
    ends (exec .cmdState (armed 3 { idleAt .runTestIdle with endState := .pauseDr })) (fun t =>
      decide (t.curState = .pauseDr ∧ t.dutTap = .pauseDr ∧ t.eng = .done)) = true ∧
    (risingEdges 10 (armed 3 { idleAt .runTestIdle with endState := .pauseDr })).map (·.tms) =
      [true, false, true, false] := by
  decide

/-- V7: STATE to where the TAP is emits no pulse and is busy for one tick. -/
theorem test_cmdState_in_place :
    risingEdges 3 (armed 3 { idleAt .runTestIdle with endState := .runTestIdle }) = [] ∧
    stateTicks (armed 3 { idleAt .runTestIdle with endState := .runTestIdle }) = 1 + 1 := by
  decide

/-- V40: busy durations, after the dispatch tick: SCAN rows 1, 3 and 8; RESET; STATE to PAUSE_DR. -/
theorem test_durations :
    scanTicks (scanFrom .runTestIdle .shiftDr .runTestIdle 2 2 0) = 1 + 19 ∧
    scanTicks (scanFrom .runTestIdle .shiftIr .runTestIdle 0 0x5A 0) = 1 + 19 ∧
    scanTicks (scanFrom .runTestIdle .runTestIdle .runTestIdle 5 0xA5 0) = 1 + 15 ∧
    resetTicks boot = 1 + 11 ∧
    stateTicks { idleAt .runTestIdle with endState := .pauseDr } = 1 + 9 := by
  decide

/-- V40: with clock_divider = 1, SCAN row 1 and RESET. -/
theorem test_durations_divided :
    scanTicks { scanFrom .runTestIdle .shiftDr .runTestIdle 2 2 0 with clockDivider := 1 } = 1 + 33 ∧
    resetTicks { boot with clockDivider := 1 } = 1 + 21 := by
  decide

/-- V40, row 4: a scan in TEST_LOGIC_RESET; the TMS values of the whole command. -/
theorem test_scan_pulses :
    (scanEdges (scanFrom .runTestIdle .testLogicReset .runTestIdle 3 5 0)).map (·.tms) =
      [true, true, true, true, true, false] ∧
    (scanEdges (scanFrom .pauseDr .shiftIr .pauseIr 3 6 0)).map (·.tms) =
      [true, true, true, true, false, false, false, false, true, false] := by
  decide

/-- P6 (b), (c). -/
theorem test_cmdScan_refusals :
    refuses (exec .cmdScan (scanFrom .testLogicReset .shiftDr .runTestIdle 0x2001 0 0)) .chainLengthExceedsBuffer =
      true ∧
    refuses (exec .cmdScan (scanFrom .testLogicReset .exit1Dr .runTestIdle 8 0 0)) .scanStateNotStable = true := by
  decide

/-! ## The bus (V50, P6) -/

theorem test_wrBuf :
    ends (exec (.wrBuf 0 0x1A5) boot) (fun t => decide (readByte t 0 = 0xA5 ∧ t.busAck = true)) = true ∧
    ends (exec (.wrBuf 0x3FF 0x80) boot) (fun t => decide (readByte t 1023 = 0x80)) = true := by
  decide

theorem test_rdBuf :
    ends (exec (.rdBuf 0) { boot with buf := [(0, 0xA5)] }) (fun t =>
      decide (t.busRdata = 0xA5 ∧ t.busAck = true)) = true := by
  decide

theorem test_scanState :
    ends (exec (.wrScanState 0xFFFFFFFB) boot) (fun t => decide (t.scanState = .shiftIr)) = true ∧
    ends (exec .rdScanState { boot with scanState := .shiftIr }) (fun t => decide (t.busRdata = 0xB)) = true := by
  decide

theorem test_endState :
    ends (exec (.wrEndState 0x1F) boot) (fun t => decide (t.endState = .updateIr)) = true ∧
    ends (exec .rdEndState { boot with endState := .updateIr }) (fun t => decide (t.busRdata = 0xF)) = true := by
  decide

theorem test_chainLength :
    ends (exec (.wrChainLength 0x12345) boot) (fun t => decide (t.chainLength = 0x2345)) = true ∧
    ends (exec .rdChainLength { boot with chainLength := 0x2001 }) (fun t => decide (t.busRdata = 0x2001)) = true := by
  decide

theorem test_command :
    ends (exec (.wrCommand 0xF) boot) (fun t => decide (t.command = 7)) = true ∧
    ends (exec (.wrCommand 9) boot) (fun t => decide (t.command = 1)) = true ∧
    ends (exec .rdCommand { boot with command := 7 }) (fun t => decide (t.busRdata = 7)) = true := by
  decide

/-- `MW 403 3`, `MW 403 FFFFFFFE` in IDLE with GO = 0, and `MW 403 1` with GO = 1. -/
theorem test_wrControl :
    ends (exec (.wrControl 3) boot) (fun t => decide (t.go = true ∧ t.pending = true)) = true ∧
    ends (exec (.wrControl 0xFFFFFFFE) boot) (fun t => decide (t.go = false ∧ t.pending = false)) = true ∧
    ends (exec (.wrControl 1) { boot with go := true }) (fun t =>
      decide (t.go = true ∧ t.pending = false)) = true := by
  decide

/-- P6 (h): a rising edge during a command sets GO and nothing else. -/
theorem test_wrControl_busy :
    ends (exec (.wrControl 1) { inPhase .tapReset .testLogicReset .testLogicReset with go := false, resetCount := 2 })
      (fun t => decide (t.go = true ∧ t.pending = false ∧ t.eng = .tapReset)) = true := by
  decide

/-- `MR 403` in DONE before GO is lowered; `MR 404` in IDLE and in a command. -/
theorem test_rdControl_rdStatus :
    ends (exec .rdControl { boot with eng := .done, go := true }) (fun t => decide (t.busRdata = 1)) = true ∧
    ends (exec .rdStatus boot) (fun t => decide (t.busRdata = 0)) = true ∧
    ends (exec .rdStatus (shifting 3)) (fun t => decide (t.busRdata = 1)) = true := by
  decide

/-- `MW 404 1`, `MW 406 5`: acknowledged, no effect; `MR 406` after boot reads 0. -/
theorem test_readOnly :
    ends (exec (.wrStatus 1) boot) (fun t => decide (t.busAck = true ∧ isBusy t = false)) = true ∧
    ends (exec (.wrCurState 5) boot) (fun t => decide (t.busAck = true ∧ t.curState = .testLogicReset)) = true ∧
    ends (exec .rdCurState boot) (fun t => decide (t.busRdata = 0)) = true := by
  decide

theorem test_outOfRange :
    refuses (exec (.outOfRange false 0x407 0) boot) .outOfRange = true ∧
    refuses (exec (.outOfRange true 0x7FF 0) boot) .outOfRange = true ∧
    refuses (exec .rdCurState { boot with params := noCurState }) .outOfRange = true := by
  decide

/-- P6 (e). -/
theorem test_write_while_busy :
    refuses (exec (.wrEndState 3) (inPhase .tapReset .testLogicReset .testLogicReset)) .writeDuringCommand =
      true := by
  decide

/-! ## The session -/

/-- V50: `MW 402 12345`; `MR 404` in IDLE. -/
theorem test_mw_mr :
    ends (exec (.mw 0x402 0x12345) boot) (fun t =>
      decide (t.chainLength = 0x2345 ∧ t.reply = .ok ∧ t.busAck = false)) = true ∧
    ends (exec (.mr 0x404) boot) (fun t => decide (t.reply = .value 0)) = true := by
  decide

/-- P6 (d): `MW 407 0`, `MR 500`. -/
theorem test_mw_mr_outOfRange :
    refuses (exec (.mw 0x407 0) boot) .outOfRange = true ∧ refuses (exec (.mr 0x500) boot) .outOfRange = true := by
  decide

/-- R160: the three lines that do not touch the block. -/
theorem test_session :
    ends (exec (.startsim [0x41]) boot) (fun t => decide (t.reply = .ok)) = true ∧
    ends (exec .stopsim boot) (fun t => decide (t.reply = .statusLine 0 ∧ t.draws = 1)) = true ∧
    ends (exec .exit boot) (fun t => decide (t.reply = .goodbye)) = true := by
  decide

/-! ## The driver (V1, V2, V41, V42, P4) -/

/-- V1 and V2, loopback: '55' and 'A55'. -/
theorem test_scanIr :
    ends (exec (.scanIr 8 [5, 5]) boot) (fun t => decide (replyText t.reply = [0x35, 0x35] ∧ t.eng = .idle)) = true ∧
    ends (exec (.scanIr 12 [0, 0xA, 5, 5]) boot) (fun t => decide (t.reply = .vector [0x41, 0x35, 0x35])) = true := by
  decide

/-- V41: `scan_dr(12, 'AAA')` against RegDUT(3, 5): '555'. -/
theorem test_scanDr :
    ends (exec (.scanDr 12 [0xA, 0xA, 0xA]) { boot with dut := .register [true, false, true] }) (fun t =>
      decide (t.reply = .vector [0x35, 0x35, 0x35] ∧ t.curState = .runTestIdle)) = true := by
  decide

/-- V42: 'E8': the bits above the count are the host's own; the device's register holds 0b101. -/
theorem test_scanDr_unmasked :
    ends (exec (.scanDr 5 [0xF, 5]) { boot with dut := .register [false, false, false] }) (fun t =>
      decide (t.reply = .vector [0x45, 0x38] ∧ t.dut = .register [true, false, true])) = true := by
  decide

/-- P4: with a device whose TDO is 0, 0xA5 ends as 0xA0. -/
theorem test_runtest :
    ends (exec (.runtest 5) { idleAt .runTestIdle with
        buf := [(0, 0xA5)], dut := .samples [false, false, false, false, false, true] }) (fun t =>
      decide (readByte t 0 = 0xA0 ∧ t.dut = .samples [true] ∧ t.curState = .runTestIdle ∧ t.bitIndex = 5)) = true := by
  decide

theorem test_driver_preconditions :
    refuses (exec (.scanDr 12 [5, 5]) boot) .driverPrecondition = true ∧
    refuses (exec (.scanDr 8 [0, 0xA, 5, 5]) boot) .driverPrecondition = true := by
  decide

/-! ## The step -/

/-- V60, ticks 2 and 3: after the trigger write GO and pending are 1; with the host silent the command runs. -/
theorem test_step :
    ends (step (State.reset.withFetchWord 16 0b1_10000000101)) (fun t => decide (t.command = 0 ∧ t.busAck = true)) =
      true ∧
    ends (step (State.reset.withFetchWord 8 2)) (fun t => decide (t.eng = .done ∧ t.resetCount = 5)) = true := by
  decide

/-- R190: a request made in a tick of reset is not performed. -/
theorem test_step_reset :
    ends (step { shifting 3 with script := [.reset (some (writeRequest Params.default .control 1))] }) (fun t =>
      decide (t.eng = .idle ∧ t.go = false ∧ t.pending = false ∧ t.busAck = false ∧ t.curState = .testLogicReset)) =
      true := by
  decide

/-! ## Witnesses: for every statement with hypotheses, states and operands that meet them -/

/-- The pins agree with the current step's pulse, as a test. -/
def pinsAgree (s : State) : Bool :=
  match pulseOp s with
  | none => true
  | some p => decide (s.tms = p.tms) && decide (p.tdi = none ∨ p.tdi = some s.tdi)

theorem pinsDriven_of_agree {s : State} (h : pinsAgree s = true) : pinsDriven s := by
  intro p hp
  simp only [pinsAgree, hp, Bool.and_eq_true, decide_eq_true_eq] at h
  refine ⟨h.1, fun b hb => ?_⟩
  rcases h.2 with h2 | h2
  · rw [h2] at hb; cases hb
  · rw [h2] at hb; exact Option.some.inj hb

theorem witness_RouterTakesShortestPath : tapRun .runTestIdle [true, false, false] = .shiftDr := by decide

theorem witness_RouteIsNearerStep :
    TapState.captureDr ≠ .exit2Ir ∧ isStable .testLogicReset = true ∧ isStable .pauseIr = true := by decide

/-- The first and the last bit. -/
theorem witness_BitAccess :
    (0 < Config.bufBits ∧ readBit { boot with buf := [(0, 0x01)] } 0 = true) ∧
    (8191 < Config.bufBits ∧ (8190 : Nat) ≠ 8191 ∧ (1022 : Nat) ≠ 8191 / 8 ∧
      readBit { boot with buf := [(1023, 0x80)] } 8191 = true) := by decide

theorem witness_ByteAccess :
    (0 : Nat) ≠ 1 ∧ Memory.lookup State.reset.buf 0 = none ∧ Memory.lookup boot.buf 1023 = none := by decide

/-- A byte outside a command; in a 12-bit scan, the last byte of the span and the first beyond it. -/
theorem witness_BufferReadEffect :
    (boot.busAck = false ∧ tickLegal boot = true ∧ readsIntermediate (0 : BitVec 10).toNat boot = false) ∧
    ((shifting 3).busAck = false ∧ tickLegal (shifting 3) = true ∧
      readsIntermediate (1 : BitVec 10).toNat (shifting 3) = true ∧
      readsIntermediate (2 : BitVec 10).toNat (shifting 3) = false) := by decide

theorem witness_RegisterReadEffect :
    (boot.busAck = false ∧ tickLegal boot = true ∧ boot.params.addrCurState ≠ none) ∧
    ((shifting 3).busAck = false ∧ tickLegal (shifting 3) = true) := by decide

theorem witness_QuietTickEffect :
    (isBusy boot = false ∧ dispatching boot = false) ∧
    (isBusy { boot with eng := .done, go := true } = false ∧ dispatching { boot with eng := .done, go := true } = false) ∧
    (isBusy (armed 0 boot) = false ∧ dispatching (armed 0 boot) = false) := by decide

theorem witness_BufferWriteEffect :
    (boot.busAck = false ∧ commandInFlight boot = false ∧ (1022 : Nat) ≠ (1023 : BitVec 10).toNat) ∧
    commandInFlight { boot with eng := .done } = false := by decide

theorem witness_ParameterWriteEffect : boot.busAck = false ∧ commandInFlight boot = false := by decide

theorem witness_ParameterReadBack :
    (∃ t, exec (.wrScanState 0x1F) boot = .next t) ∧ (∃ t, exec (.wrEndState 0x1F) boot = .next t) ∧
    (∃ t, exec (.wrChainLength 0x1FFFF) boot = .next t) ∧ (∃ t, exec (.wrCommand 0xF) boot = .next t) ∧
    (∃ t, exec (.wrControl 3) boot = .next t) := by
  refine ⟨?_, ?_, ?_, ?_, ?_⟩ <;> exact next_of_completes (by decide)

/-- During a command, and between its trigger and its dispatch. -/
theorem witness_WriteDuringCommandRefused :
    commandInFlight (shifting 3) = true ∧ commandInFlight (armed 2 boot) = true := by decide

theorem witness_ControlWriteEffect :
    (boot.busAck = false ∧ tickLegal boot = true ∧ (1 : Data).testBit 0 = true ∧ boot.go = false ∧
      boot.eng = .idle ∧ dispatching boot = false) ∧
    ((shifting 3).busAck = false ∧ tickLegal (shifting 3) = true) := by decide

theorem witness_ReadOnlyWriteEffect :
    boot.busAck = false ∧ tickLegal boot = true ∧ boot.params.addrCurState ≠ none := by decide

/-- The first offset outside the map, with ADDR_CUR_STATE set and not set. -/
theorem witness_OutOfRangeRefused :
    (0x405 < ((0x407 : Addr) - boot.params.engineBase).toNat ∧
      boot.params.addrCurState.map (·.toNat) ≠ some ((0x407 : Addr) - boot.params.engineBase).toNat) ∧
    (0x405 < ((0x406 : Addr) - noCurState.engineBase).toNat ∧
      noCurState.addrCurState.map (·.toNat) ≠ some ((0x406 : Addr) - noCurState.engineBase).toNat ∧
      { boot with params := noCurState }.params.addrCurState = none) := by decide

/-- A read; a write of control during a command; a write of a parameter register with no command in flight. -/
theorem witness_RequestSpacing :
    ({ boot with busAck := true }.busAck = true ∧
      decodeOffset boot.params ((readRequest boot.params .status).addr - boot.params.engineBase) = some .status ∧
      (readRequest boot.params .status).we = false) ∧
    ({ shifting 3 with busAck := true }.busAck = true ∧
      decodeOffset (shifting 3).params ((writeRequest (shifting 3).params .control 0).addr -
        (shifting 3).params.engineBase) = some .control ∧
      isParameter .control = false ∧ commandInFlight { shifting 3 with busAck := true } = true) ∧
    (decodeOffset boot.params ((writeRequest boot.params .endState 1).addr - boot.params.engineBase) =
        some .endState ∧
      isParameter .endState = true ∧ commandInFlight { boot with busAck := true } = false) := by decide

/-- One state for each of the four clauses. -/
theorem witness_IdleStep :
    (boot.eng = .idle ∧ betweenPulses boot = true ∧ boot.pending = false) ∧
    ((armed 1 boot).eng = .idle ∧ betweenPulses (armed 1 boot) = true ∧
      (armed 1 boot).pending = true ∧ (armed 1 boot).command = 1#3) ∧
    ((armed 2 boot).pending = true ∧ (armed 2 boot).command = 2#3) ∧
    ((armed 3 boot).pending = true ∧ (armed 3 boot).command = 3#3) ∧
    ((armed 4 boot).command ≠ 1#3 ∧ (armed 4 boot).command ≠ 2#3 ∧ (armed 4 boot).command ≠ 3#3) := by decide

theorem witness_CommandReadOnlyInIdle :
    (shifting 3).eng ≠ .idle ∧ ∃ t, idleTick (shifting 3) = .next t :=
  ⟨by decide, next_of_completes (by decide)⟩

theorem witness_PreparatorySteps :
    betweenPulses (inPhase .preShift .runTestIdle .shiftDr) = true ∧
    (inPhase .preShift .runTestIdle .shiftDr).eng = .preShift ∧
    betweenPulses (inPhase .clearBuffer .runTestIdle .shiftDr) = true ∧
    (inPhase .clearBuffer .runTestIdle .shiftDr).eng = .clearBuffer := by decide

/-- 8192 and 8193 bits; the end state the scan state and another; a state without a self-loop. -/
theorem witness_ShiftEntry :
    let s := inPhase .gotoStart .shiftDr .shiftDr
    let e := inPhase .gotoStart .exit1Dr .exit1Dr
    (s.eng = .gotoStart ∧ s.curState = s.target ∧ isStable s.scanState = true) ∧
    ({ s with chainLength := 8192 }.chainLength.toNat ≤ 8192 ∧ s.endState = s.scanState) ∧
    ({ s with endState := .runTestIdle }.endState ≠ s.scanState) ∧
    (8192 < { s with chainLength := 8193 }.chainLength.toNat) ∧
    (e.eng = .gotoStart ∧ e.curState = e.target ∧ isStable e.scanState = false) := by decide

/-- A shift pulse; the last tick of its first half and the first of its second. -/
theorem witness_PulseSchedule :
    pulseOp (shifting 3) = some { tms := false, tdi := some true, capture := true } ∧
    betweenPulses (shifting 3) = true ∧ pinsDriven (shifting 3) ∧ (shifting 3).tck = false ∧
    0 < pulseTicks (shifting 3) ∧ 1 < pulseTicks (shifting 3) := by
  and_intros <;> first | decide | exact pinsDriven_of_agree (by decide)

theorem witness_NavigationStep :
    (inPhase .gotoState .pauseDr .exit2Ir).eng = .gotoState ∧
    (inPhase .gotoState .pauseDr .exit2Ir).curState ≠ (inPhase .gotoState .pauseDr .exit2Ir).target ∧
    betweenPulses (inPhase .gotoState .pauseDr .exit2Ir) = true ∧
    pinsDriven { inPhase .gotoState .pauseDr .exit2Ir with tms := true } ∧
    (inPhase .gotoState .pauseDr .exit2Ir).tck = false := by
  and_intros <;> first | decide | exact pinsDriven_of_agree (by decide)

/-- The first bit and the last. -/
theorem witness_ShiftStep :
    ((shifting 0).eng = .shift ∧ (shifting 0).bitIndex.toNat < (shifting 0).chainLength.toNat ∧
      (shifting 0).chainLength.toNat ≤ 8192 ∧ betweenPulses (shifting 0) = true ∧
      pinsDriven (shifting 0) ∧ (shifting 0).tck = false) ∧
    ((shifting 11).bitIndex.toNat = (shifting 11).chainLength.toNat - 1 ∧ betweenPulses (shifting 11) = true ∧
      pinsDriven (shifting 11) ∧ (shifting 11).tck = false) := by
  and_intros <;> first | decide | exact pinsDriven_of_agree (by decide)

/-- After the last of 12 bits, and in a scan of none. -/
theorem witness_ShiftExit :
    ((shifting 12).eng = .shift ∧ (shifting 12).bitIndex = (shifting 12).chainLength ∧
      betweenPulses (shifting 12) = true) ∧
    { shifting 0 with chainLength := 0 }.bitIndex = { shifting 0 with chainLength := 0 }.chainLength := by decide

/-- No pulse done, four done, five done. -/
theorem witness_TapResetSteps :
    let s := { inPhase .tapReset .shiftDr .shiftDr with tms := true, resetCount := 0 }
    (s.eng = .tapReset ∧ betweenPulses s = true ∧ s.resetCount < 5 ∧ pinsDriven s ∧ s.tck = false) ∧
    ({ s with resetCount := 4 }.resetCount < 5 ∧ pinsDriven { s with resetCount := 4 }) ∧
    { s with resetCount := 5 }.resetCount = 5 := by
  and_intros <;> first | decide | exact pinsDriven_of_agree (by decide)

theorem witness_GotoStateExit :
    (inPhase .gotoState .pauseDr .pauseDr).eng = .gotoState ∧
    (inPhase .gotoState .pauseDr .pauseDr).curState = (inPhase .gotoState .pauseDr .pauseDr).target := by decide

theorem witness_DoneStep :
    (inPhase .done .pauseDr .pauseDr).eng = .done ∧ (inPhase .done .pauseDr .pauseDr).go = true ∧
    { inPhase .done .pauseDr .pauseDr with go := false }.go = false ∧
    ∃ t, exec (.wrControl 1) { inPhase .done .pauseDr .pauseDr with go := false } = .next t := by
  and_intros <;> first | decide | exact next_of_completes (by decide)

theorem witness_NoCommandEffect :
    (armed 0 boot).eng = .idle ∧ (armed 0 boot).command = 0#3 ∧ (armed 4 boot).command = 4#3 ∧
    (armed 5 boot).command = 5#3 ∧ (armed 6 boot).command = 6#3 ∧ (armed 7 boot).command = 7#3 := by decide

/-- The data 0, 1, 2, 3 and 7 take the four clauses. -/
theorem witness_PendingStartsLaterCommand :
    ((armed 0 boot).eng = .idle ∧ (armed 0 boot).pending = true ∧ selectsCommand (armed 0 boot).command = false ∧
      (armed 0 boot).busAck = false) ∧
    (BitVec.ofNat 3 1 = 1#3 ∧ BitVec.ofNat 3 2 = 2#3 ∧ BitVec.ofNat 3 3 = 3#3 ∧
      selectsCommand (BitVec.ofNat 3 0) = false ∧ selectsCommand (BitVec.ofNat 3 7) = false) := by decide

theorem witness_CommandNeedsTrigger :
    triggered boot = false ∧ triggered (shifting 3) = false := by decide

theorem witness_ResetCommandEffect :
    triggered (armed 2 (idleAt .shiftDr)) = true ∧ betweenPulses (armed 2 (idleAt .shiftDr)) = true ∧
    (armed 2 (idleAt .shiftDr)).tck = false ∧ (armed 2 (idleAt .shiftDr)).command = 2#3 := by decide

theorem witness_StateCommandEffect :
    let s := armed 3 { idleAt .shiftDr with endState := .exit2Ir }
    triggered s = true ∧ betweenPulses s = true ∧ s.tck = false ∧ s.command = 3#3 := by decide

/-- Scans of no bit and of the largest number of bits. -/
theorem witness_ScanCommandEffect :
    let s := scanFrom .runTestIdle .shiftIr .runTestIdle 0 0x5A 0
    (triggered s = true ∧ betweenPulses s = true ∧ s.tck = false ∧ isStable s.scanState = true ∧
      s.chainLength.toNat ≤ 8192) ∧
    { s with chainLength := 8192 }.chainLength.toNat ≤ 8192 := by decide

theorem witness_ScanCommandPulses :
    let s := scanFrom .pauseDr .shiftIr .pauseIr 3 6 0
    triggered s = true ∧ s.command = 1#3 ∧ betweenPulses s = true ∧ s.tck = false ∧
    isStable s.scanState = true ∧ s.chainLength.toNat ≤ 8192 := by decide

/-- Scripted samples that run out, and loopback. -/
theorem witness_ScanCommandCaptures :
    let s := scanFrom .runTestIdle .shiftDr .runTestIdle 2 2 0
    (triggered s = true ∧ betweenPulses s = true ∧ s.tck = false ∧ s.dut = .loopback ∧
      ∃ t, exec .cmdScan s = .next t) ∧
    (0 < s.chainLength.toNat ∧ { s with dut := .samples [true] }.dut = .samples [true] ∧
      ∃ t, exec .cmdScan { s with dut := .samples [true] } = .next t) := by
  and_intros <;> first | decide | exact next_of_completes (by decide)

theorem witness_LatencyEcho :
    let s := { scanFrom .runTestIdle .shiftDr .runTestIdle 5 0xF5 0 with dut := .register [true, false, true] }
    triggered s = true ∧ betweenPulses s = true ∧ s.tck = false ∧ s.dut = .register [true, false, true] ∧
    s.curState = .runTestIdle ∧ s.dutTap = .runTestIdle ∧ s.scanState = .shiftDr ∧ 4 < s.chainLength.toNat ∧
    ∃ t, exec .cmdScan s = .next t := by
  and_intros <;> first | decide | exact next_of_completes (by decide)

theorem witness_ScanCommandRefusals :
    let s := scanFrom .testLogicReset .shiftDr .runTestIdle 0x2001 0 0
    (triggered s = true ∧ betweenPulses s = true ∧ s.tck = false ∧ isStable s.scanState = true ∧
      8192 < s.chainLength.toNat) ∧
    isStable { s with scanState := .exit1Dr }.scanState = false := by decide

/-- The first and the last busy tick of a RESET; STATE and SCAN. -/
theorem witness_CommandDurations :
    let s := armed 2 (idleAt .shiftDr)
    (triggered s = true ∧ betweenPulses s = true ∧ s.tck = false ∧ s.command = 2#3 ∧
      (0 < 1 ∧ 1 < resetTicks s ∧ ∃ u, idleTicks 1 s = .next u) ∧
      (0 < 11 ∧ 11 < resetTicks s ∧ ∃ u, idleTicks 11 s = .next u)) ∧
    ((armed 3 s).command = 3#3 ∧ 1 < stateTicks (armed 3 s) ∧ ∃ u, idleTicks 1 (armed 3 s) = .next u) ∧
    ((armed 1 s).command = 1#3 ∧ isStable (armed 1 s).scanState = true ∧ (armed 1 s).chainLength.toNat ≤ 8192 ∧
      1 < scanTicks (armed 1 s) ∧ ∃ u, idleTicks 1 (armed 1 s) = .next u) := by
  and_intros <;> first | decide | exact next_of_completes (by decide)

theorem witness_FirstPollSeesBusy :
    boot.eng = .idle ∧ boot.pending = false ∧ boot.go = false ∧ boot.busAck = false ∧
    selectsCommand boot.command = true ∧ (1 : Data).testBit 0 = true := by decide

theorem witness_LoweredGoFreesEngine :
    let s := { boot with eng := .done, go := true }
    s.eng = .done ∧ s.pending = false ∧ s.busAck = false ∧ (0 : Data).testBit 0 = false ∧
    (1 : Data).testBit 0 = true := by decide

/-- With and without an acknowledge on the bus. -/
theorem witness_MwIsOneBusWrite :
    decodeOffset boot.params ((0x402 : Addr) - boot.params.engineBase) = some .chainLength ∧
    boot.busAck = false ∧ commandInFlight boot = false ∧ { boot with busAck := true }.busAck = true := by decide

theorem witness_MrIsOneBusRead :
    decodeOffset boot.params ((0x3FF : Addr) - boot.params.engineBase) = some (.buf 0x3FF) ∧
    boot.busAck = false ∧ commandInFlight boot = false ∧ { boot with busAck := true }.busAck = true := by decide

/-- One bit, and 8192. -/
theorem witness_ScanDriverEffect :
    (boot.eng = .idle ∧ boot.pending = false ∧ boot.go = false ∧ betweenPulses boot = true ∧ boot.tck = false) ∧
    (1 ≤ 1 ∧ 1 ≤ 8192 ∧ ([1] : List Nibble).length + 1 = 2 ∧ nbytes 1 = 1) ∧
    (1 ≤ 8192 ∧ 8192 ≤ 8192 ∧ ((List.replicate 2048 (0 : Nibble)).length + 1) / 2 = nbytes 8192) := by
  rw [List.length_replicate]
  decide

theorem witness_ScanDriverLoopback :
    (boot.eng = .idle ∧ boot.pending = false ∧ boot.go = false ∧ betweenPulses boot = true ∧ boot.tck = false ∧
      boot.dut = .loopback) ∧
    (∃ t, exec (.scanIr 12 [0, 0xA, 5, 5]) boot = .next t) ∧
    (∃ t, exec (.scanDr 8 [5, 5]) boot = .next t) :=
  ⟨by decide, next_of_completes (by decide), next_of_completes (by decide)⟩

theorem witness_ScanDriverPreconditions :
    ¬(1 ≤ 0 ∧ 0 ≤ 8192 ∧ (([] : List Nibble).length + 1) / 2 = nbytes 0) ∧
    ¬(1 ≤ 8193 ∧ 8193 ≤ 8192 ∧ (([0] : List Nibble).length + 1) / 2 = nbytes 8193) ∧
    ¬(1 ≤ 12 ∧ 12 ≤ 8192 ∧ (([5, 5] : List Nibble).length + 1) / 2 = nbytes 12) := by decide

/-- No tick; a whole number of chunks; one tick more; the samples run out. -/
theorem witness_RuntestEffect :
    let s := { boot with dut := .samples [true, false] }
    s.eng = .idle ∧ s.pending = false ∧ s.go = false ∧ betweenPulses s = true ∧ s.tck = false ∧
    s.dut = .samples [true, false] ∧ 0 < 1024 ∧ 1024 % 1024 = 0 ∧ 0 < 1025 ∧ 1025 % 1024 ≠ 0 ∧ 128 ≤ 128 := by
  decide

theorem witness_ResetTick :
    { shifting 3 with script := [.reset none] }.script = [.reset none] := by decide

/-- The invariant holds in the middle of a scan. -/
theorem inv_shifting : Inv (shifting 3) where
  bufWf := by decide
  resetCountBound := by decide
  pendingInIdle := by decide
  tckIsHalf := by decide
  halfCountBound := by decide
  atRest := by decide
  startTarget := by decide
  endTarget := by decide
  shifting := by decide
  shiftPosition := by decide
  resetProgress := by decide
  paramsWf := by decide
  dividerFits := by decide
  rdataFits := by decide
  pins := pinsDriven_of_agree (by decide)

theorem witness_StepKeepsInv : Inv (shifting 3) ∧ ∃ t, step (shifting 3) = .next t :=
  ⟨inv_shifting, next_of_completes (by decide)⟩

theorem witness_StepKeepsDutInSync :
    Inv (shifting 3) ∧ DutInSync (shifting 3) ∧ (∀ r rest, (shifting 3).script ≠ .reset r :: rest) ∧
    ∃ t, step (shifting 3) = .next t :=
  ⟨inv_shifting, rfl, (by intro r rest h; cases h), next_of_completes (by decide)⟩

theorem witness_StepKeepsParameters :
    (∃ t, step (shifting 3) = .next t) ∧ (∀ d rest, (shifting 3).script ≠ .divider d :: rest) :=
  ⟨next_of_completes (by decide), by intro d rest h; cases h⟩

theorem witness_StepNeverFaults : Inv (shifting 3) := inv_shifting

theorem witness_HostCannotMoveTap :
    (isBusy boot = false ∧ dispatching boot = false ∧
      ∃ t, exec (decodeBus boot.params (writeRequest boot.params .control 1)) boot = .next t) ∧
    (isBusy { boot with eng := .done } = false ∧ dispatching { boot with eng := .done } = false ∧
      ∃ t, exec (decodeBus boot.params (readRequest boot.params .curState)) { boot with eng := .done } = .next t) := by
  and_intros <;> first | decide | exact next_of_completes (by decide)

theorem witness_DecodeEncode :
    Instr.wellFormed Params.default (.wrBuf 1023 0xFFFFFFFF) = true ∧
    Instr.wellFormed narrow (.mw 0x403 0xFFFF) = true ∧
    Instr.wellFormed Params.default .rdCurState = true ∧
    Instr.wellFormed noCurState (.outOfRange true 0x406 7) = true ∧
    Instr.wellFormed Params.default (.mw 0xFFFFFFFF 0xFFFFFFFF) = true ∧
    Instr.wellFormed Params.default (.scanIr 1 [1]) = true := by decide

theorem witness_EncodeDecodeBusWrite :
    (writeRequest Params.default .control 1).we = true ∧
    (writeRequest narrow .control 0xFFFF).wdata < 2 ^ narrow.dataWidth := by decide

/-- The host's next act is this. -/
def acting (x : Stimulus) : State := { boot with script := [x] }

/-- A status request, the line `EXIT`, `E` without its newline, `runtest(5)`, and `scan_ir(4, 'G')`. -/
theorem witness_StepRunsDecoded :
    ((acting (.request (readRequest boot.params .status))).script = [.request (readRequest boot.params .status)] ∧
      decode boot.params (.bus (readRequest boot.params .status)) = .ok .rdStatus) ∧
    ((acting (.line [0x45, 0x58, 0x49, 0x54, 0x0A])).script = [.line [0x45, 0x58, 0x49, 0x54, 0x0A]] ∧
      decode boot.params (.line [0x45, 0x58, 0x49, 0x54, 0x0A]) = .ok .exit) ∧
    decode boot.params (.line [0x45]) = .error .unterminatedLine ∧
    ((acting (.call .runtest 5 [])).script = [.call .runtest 5 []] ∧
      decode boot.params (.call .runtest 5 []) = .ok (.runtest 5)) ∧
    decode boot.params (.call .scanIr 4 [0x47]) = .error .nonHexDigit ∧
    (acting .idle).script = [.idle] :=
  ⟨⟨rfl, rfl⟩, ⟨rfl, rfl⟩, rfl, ⟨rfl, rfl⟩, rfl, rfl⟩

/-- The host silent, with and without a trigger. -/
theorem witness_StepRunsDecoded_silent :
    ((armed 2 boot).script = [] ∧ triggered (armed 2 boot) = true ∧
      decode boot.params (.command (armed 2 boot).command) = .ok .cmdReset) ∧
    boot.script = [] ∧ triggered boot = false :=
  ⟨⟨rfl, by decide, rfl⟩, rfl, by decide⟩

/-- A change of the divider with busy = 0, DIVW unbounded and 4 bits, and with busy = 1. -/
theorem witness_StepRunsDecoded_divider :
    ((acting (.divider 3)).script = [.divider 3] ∧ isBusy (acting (.divider 3)) = false ∧
      (acting (.divider 3)).params.dividerWidth = none) ∧
    { acting (.divider 17) with params := narrow }.params.dividerWidth = some 4 ∧
    ({ shifting 3 with script := [.divider 3] }.script = [.divider 3] ∧
      isBusy { shifting 3 with script := [.divider 3] } = true) := by decide

/-- R27, R8: 17 on an input of four bits is 1; U17: with busy = 1 the change is refused. -/
theorem test_divider :
    ends (step { acting (.divider 17) with params := narrow }) (fun t => decide (t.clockDivider = 1)) = true ∧
    refuses (step { shifting 3 with script := [.divider 3] }) .dividerDuringCommand = true := by
  decide

end Sys2Proof.Tests
end

section
/-! O54: no step of the block touches the open parameters (R6) or the `clock_divider` input (R27). Both lie outside the
block: the shared operations leave them, so every instruction does (`Kept.exec`), and of the host's own acts only the
change of the input reaches the divider. -/

namespace Sys2Proof.Machine

/-- What is set from outside the block: the open parameters (R6) and the level of the `clock_divider` input (R27). -/
def outside (s : State) : Params × Nat := (s.params, s.clockDivider)

theorem outside_eq {s t : State} (hp : t.params = s.params) (hd : t.clockDivider = s.clockDivider) :
    outside t = outside s := Prod.ext hp hd

/-! ## The shared operations -/

@[simp] theorem outside_drive (s : State) : outside (drive s) = outside s :=
  outside_eq (drive_params s) (drive_clockDivider s)

@[simp] theorem outside_withAck (b : Bool) (s : State) : outside (withAck b s) = outside s := rfl

@[simp] theorem outside_regWrite (r : Reg) (d : Data) (s u : State) : outside (regWrite r d s u) = outside u := by
  cases r <;> rfl

theorem outside_stepAfterPulse (s : State) : outside (stepAfterPulse s) = outside s := by
  unfold stepAfterPulse
  cases s.eng <;> rfl

theorem outside_pulseTick (p : PulseOp) (s : State) : outside (pulseTick p s) = outside s := by
  unfold pulseTick
  split
  · rfl
  · split
    · exact outside_eq (risingEdge_params p s) (risingEdge_clockDivider p s)
    · exact outside_stepAfterPulse (fallingEdge p s)

theorem outside_stepIdle (s : State) : outside (stepIdle s) = outside s := by
  unfold stepIdle
  split_ifs <;> rfl

theorem shiftEntry_next {s u : State} (h : shiftEntry s = .next u) : u = enterShift s := by
  unfold shiftEntry at h
  split_ifs at h
  cases h
  rfl

theorem bookkeepingTick_outside {s u : State} (h : bookkeepingTick s = .next u) : outside u = outside s := by
  unfold bookkeepingTick at h
  cases he : s.eng with
  | gotoStart => rw [he] at h; rw [shiftEntry_next h]; rfl
  | idle => rw [he] at h; cases h; exact outside_stepIdle s
  | done => rw [he] at h; cases h; exact outside_eq (stepDone_params s) (stepDone_clockDivider s)
  | preShift | clearBuffer | shift | gotoState | tapReset => rw [he] at h; cases h; rfl

/-! ## The ticks and the instructions -/

theorem engineTick_outside {s u : State} (h : engineTick s = .next u) : outside u = outside s := by
  cases hp : pulseOp s with
  | some p => rw [engineTick_pulse hp] at h; cases h; exact outside_pulseTick p s
  | none => rw [engineTick_none hp] at h; exact bookkeepingTick_outside h

theorem idleTick_outside {s t : State} (h : idleTick s = .next t) : outside t = outside s := by
  obtain ⟨u, hu, rfl⟩ := idleTick_next_iff.mp h
  simpa using engineTick_outside hu

theorem busRead_outside {r : Reg} {s t : State} (h : busRead r s = .next t) : outside t = outside s := by
  obtain ⟨-, u, hu, rfl⟩ := requestTick_next h
  exact (outside_drive _).trans (engineTick_outside hu :)

theorem busWrite_outside {r : Reg} {d : Data} {s t : State} (h : busWrite r d s = .next t) :
    outside t = outside s := by
  unfold busWrite at h
  split at h
  · cases h
  · obtain ⟨-, u, hu, rfl⟩ := requestTick_next h
    simpa using engineTick_outside hu

/-- Whatever is said of the parameters and the divider alone, every kind of tick keeps. -/
theorem kept_outside (Q : Params × Nat → Prop) : Kept fun s => Q (outside s) where
  idle _ _ hs ht := (idleTick_outside ht).symm ▸ hs
  read _ _ _ hs ht := (busRead_outside ht).symm ▸ hs
  write _ _ _ _ hs ht := (busWrite_outside ht).symm ▸ hs
  scan s hs _ := (outside_drive (withAck false (dispatchScan s))).symm ▸ hs
  reset s hs _ := (outside_drive (withAck false (dispatchReset s))).symm ▸ hs
  state s hs _ := (outside_drive (withAck false (dispatchState s))).symm ▸ hs
  reply _ _ _ hs := hs

/-! ## The step -/

theorem step_params {s t : State} (ht : step s = .next t) : t.params = s.params :=
  (kept_outside fun o => o.1 = s.params).step rfl (fun _ => rfl) (fun _ _ _ => rfl) (fun _ _ _ _ => rfl) ht

theorem step_clockDivider {s t : State} (hs : ∀ d rest, s.script ≠ .divider d :: rest) (ht : step s = .next t) :
    t.clockDivider = s.clockDivider :=
  (kept_outside fun o => o.2 = s.clockDivider).step rfl (fun _ => rfl) (fun _ _ _ => rfl)
    (fun d rest h _ => absurd h (hs d rest)) ht

/-- Settles O54: every kind of tick keeps what is set from outside the block, and a change of the divider's input is
the one act of the host that moves it. -/
theorem stepKeepsParameters : Obligations.StepKeepsParameters := by
  intro s t ht
  exact ⟨step_params ht, fun hs => step_clockDivider hs ht⟩

end Sys2Proof.Machine
end

section
/-! O52: every step keeps the invariant. Each kind of tick does (Laws/Invariant.lean), so every instruction does
(`Kept.exec`); of the host's own acts, a reset gives the invariant afresh, and a change of the `clock_divider` input comes
with busy = 0 only (R27), where no half-period is being counted. -/

namespace Sys2Proof.Machine

/-- R8: what has passed a port of DIVW bits passes it unchanged. -/
@[simp] theorem Params.dividerValue_dividerValue (p : Params) (d : Nat) :
    p.dividerValue (p.dividerValue d) = p.dividerValue d := by
  unfold Params.dividerValue
  cases p.dividerWidth with
  | none => rfl
  | some w => exact Nat.mod_mod d (2 ^ w)

/-- R27, R29: with busy = 0 the half-period stands at 0, within its length under any divider. -/
theorem Inv.divider {s : State} (h : Inv s) (hb : isBusy s = false) (d : Nat) (l : List Stimulus) :
    Inv { s with script := l, clockDivider := s.params.dividerValue d } := by
  obtain ⟨c, f, hpins⟩ := h
  obtain ⟨-, h0⟩ := c.atRest (pulseOp_quiet hb)
  exact {
    c with
    halfCountBound := h0 ▸ Nat.zero_le _
    paramsWf := f.paramsWf
    dividerFits := Params.dividerValue_dividerValue s.params d
    rdataFits := f.rdataFits
    pins := hpins }

/-- Every kind of tick keeps the invariant. -/
theorem kept_inv : Kept Inv where
  idle _ _ hs ht := hs.idleTick ht
  read _ _ _ hs ht := hs.busRead ht
  write _ _ _ _ hs ht := hs.busWrite ht
  scan _ hs htr := ((Ticked.dispatch hs htr).1.congr rfl).drive (hs.toPortsFit.congr rfl rfl rfl)
  reset _ hs htr := ((Ticked.dispatch hs htr).2.1.congr rfl).drive (hs.toPortsFit.congr rfl rfl rfl)
  state _ hs htr := ((Ticked.dispatch hs htr).2.2.congr rfl).drive (hs.toPortsFit.congr rfl rfl rfl)
  reply _ _ _ hs := hs.congr rfl

/-- Settles O52: every kind of tick keeps the invariant, and so do the acts of the host that are no instruction. -/
theorem stepKeepsInv : Obligations.StepKeepsInv := by
  intro s t hs ht
  exact kept_inv.step hs (fun _ => hs.congr rfl) (fun _ _ _ => inv_applyReset (hs.toPortsFit.congr rfl rfl rfl))
    (fun d l _ hb => hs.divider hb d l) ht

end Sys2Proof.Machine
end

section
/-! O56: no bus access moves the TAP. An access touches the registers of the bus map and the bus outputs alone; with busy =
0 and nothing to dispatch, the engine's part of the same tick is at most the step out of DONE (R121), and no pulse starts
that would drive the pins. -/

namespace Sys2Proof.Machine

/-- Two states that differ in what a bus access touches only: the registers of the bus map but the read-only ones (R13 to
R19, R22), the bus outputs (R12) and the count of the free values drawn (R57). -/
def AccessOnly (u v : State) : Prop :=
  v = { u with
    buf := v.buf, scanState := v.scanState, endState := v.endState, chainLength := v.chainLength, go := v.go
    command := v.command, pending := v.pending, busAck := v.busAck, busRdata := v.busRdata, draws := v.draws }

theorem AccessOnly.regRead (x : Data) (n : Nat) (u : State) :
    AccessOnly u (withAck true { u with busRdata := x, draws := u.draws + n }) := rfl

theorem AccessOnly.regWrite (r : Reg) (d : Data) (s u : State) : AccessOnly u (withAck true (regWrite r d s u)) := by
  cases r <;> rfl

theorem AccessOnly.eng {u v : State} (h : AccessOnly u v) : v.eng = u.eng := by rw [h]

/-- R128, R146: a request tick in a quiet block is the step out of DONE, if it is due, and the access. -/
theorem requestTick_quiet {f : State → State} {s t : State} (hf : ∀ u, AccessOnly u (f u)) (hb : isBusy s = false)
    (hd : dispatching s = false) (h : requestTick f s = .next t) :
    AccessOnly { s with eng := if s.eng = .done ∧ s.go = false then .idle else s.eng } t := by
  obtain ⟨-, u, hu, rfl⟩ := requestTick_next h
  rw [engineTick_quiet hb hd] at hu
  cases hu
  rw [drive_none (pulseOp_quiet ((isBusy_congr (hf _).eng).trans (isBusy_quiet_eng hb)))]
  exact hf _

/-- R67, R143: a bus request that completes is a read or a write of a register. -/
theorem exec_decodeBus_next {p : Params} {r : BusRequest} {s t : State} (h : exec (decodeBus p r) s = .next t) :
    ∃ reg, busRead reg s = .next t ∨ ∃ d, busWrite reg d s = .next t := by
  unfold decodeBus at h
  generalize r.we = we, decodeOffset p (r.addr - p.engineBase) = o at h
  rcases o with _ | reg
  · cases we <;> cases h
  · refine ⟨reg, ?_⟩
    cases we
    · left
      cases reg with
      | curState => exact whenCurStateMapped_next h
      | _ => exact h
    · right
      refine ⟨p.busWord r.wdata, ?_⟩
      cases reg with
      | curState => exact whenCurStateMapped_next h
      | _ => exact h

/-- R146: what a bus request that completes in a quiet block changes. -/
theorem exec_decodeBus_quiet {p : Params} {r : BusRequest} {s t : State} (hb : isBusy s = false)
    (hd : dispatching s = false) (h : exec (decodeBus p r) s = .next t) :
    AccessOnly { s with eng := if s.eng = .done ∧ s.go = false then .idle else s.eng } t := by
  obtain ⟨reg, h | ⟨d, h⟩⟩ := exec_decodeBus_next h
  · exact requestTick_quiet (AccessOnly.regRead (regRead reg s) (regReadDraws reg s)) hb hd h
  · unfold busWrite at h
    split at h
    · cases h
    · exact requestTick_quiet (AccessOnly.regWrite reg d s) hb hd h

/-- Settles O56: neither the access nor the step out of DONE touches the TAP, the pins, the device, the index or the
target. -/
theorem hostCannotMoveTap : Obligations.HostCannotMoveTap := by
  intro s t r hb hd h
  rw [exec_decodeBus_quiet hb hd h]
  refine ⟨rfl, rfl, rfl, rfl, rfl, rfl, rfl, rfl, ?_⟩
  by_cases hdone : s.eng = .done ∧ s.go = false
  · exact .inr ⟨hdone.1, hdone.2, if_pos hdone⟩
  · exact .inl (if_neg hdone)

end Sys2Proof.Machine
end

section
/-! O57, O58, O59: the decoder and the encoder agree. On the bus (R67) every register has one row that reads it and one
that writes it; a session line (R160) is its words with a space between them; a vector (R150) is its digits. -/

namespace Sys2Proof

/-! ## Bus requests -/

/-- R67: the row that reads a register. -/
def readInstr : Reg → Instr
  | .buf k => .rdBuf k
  | .scanState => .rdScanState
  | .endState => .rdEndState
  | .chainLength => .rdChainLength
  | .control => .rdControl
  | .status => .rdStatus
  | .command => .rdCommand
  | .curState => .rdCurState

/-- R67: the row that writes a register. -/
def writeInstr (d : Data) : Reg → Instr
  | .buf k => .wrBuf k d
  | .scanState => .wrScanState d
  | .endState => .wrEndState d
  | .chainLength => .wrChainLength d
  | .control => .wrControl d
  | .status => .wrStatus d
  | .command => .wrCommand d
  | .curState => .wrCurState d

theorem encode_writeInstr (p : Params) (d : Data) (g : Reg) :
    encode p (writeInstr d g) = .bus (writeRequest p g d) := by
  cases g <;> rfl

/-- A request at the offset of a register is that register's row. -/
theorem decodeBus_some {p : Params} {r : BusRequest} {g : Reg} (h : decodeOffset p (r.addr - p.engineBase) = some g) :
    decodeBus p r = if r.we then writeInstr (p.busWord r.wdata) g else readInstr g := by
  unfold decodeBus
  rw [h]
  generalize r.we = we
  cases we <;> cases g <;> rfl

/-- A request at any other offset is the row of R68. -/
theorem decodeBus_none {p : Params} {r : BusRequest} (h : decodeOffset p (r.addr - p.engineBase) = none) :
    decodeBus p r = .outOfRange r.we r.addr (p.busWord r.wdata) := by
  unfold decodeBus
  rw [h]
  generalize r.we = we
  cases we <;> rfl

/-- The address of a register selects it. -/
theorem decodeOffset_regAddr {p : Params} {g : Reg} (hg : g = .curState → curStateMapped p = true) :
    decodeOffset p (p.engineBase + regOffset p g - p.engineBase) = some g := by
  rw [engineBase_cancel, decodeOffset_regOffset p g hg]

theorem decode_readRequest {p : Params} {g : Reg} (hg : g = .curState → curStateMapped p = true) :
    decode p (.bus (readRequest p g)) = .ok (readInstr g) := by
  rw [decode, decodeBus_some (r := readRequest p g) (decodeOffset_regAddr hg)]
  rfl

theorem decode_writeRequest {p : Params} {g : Reg} {d : Data} (hg : g = .curState → curStateMapped p = true)
    (hd : dataFits p d = true) : decode p (.bus (writeRequest p g d)) = .ok (writeInstr d g) := by
  rw [decode, decodeBus_some (r := writeRequest p g d) (decodeOffset_regAddr hg), writeRequest, if_pos rfl,
    busWord_of_fits hd]

theorem decode_outOfRange {p : Params} {we : Bool} {addr : Addr} {d : Data}
    (ho : offsetOutside p (addr - p.engineBase) = true) (hd : dataFits p d = true) :
    decode p (encode p (.outOfRange we addr d)) = .ok (.outOfRange we addr d) := by
  rw [encode, decode, decodeBus_none (decodeOffset_outside ho), busWord_of_fits hd]

/-- A register is selected by its own offset only (R48). -/
theorem regOffset_of_decodeOffset {p : Params} {off : Addr} {g : Reg} (h : decodeOffset p off = some g) :
    regOffset p g = off := by
  unfold decodeOffset at h
  split_ifs at h with hbuf h0 h1 h2 h3 h4 h5 hcur <;> cases h
  · apply BitVec.eq_of_toNat_eq
    rw [regOffset, BitVec.toNat_setWidth, BitVec.toNat_setWidth]
    omega
  · exact BitVec.eq_of_toNat_eq h0.symm
  · exact BitVec.eq_of_toNat_eq h1.symm
  · exact BitVec.eq_of_toNat_eq h2.symm
  · exact BitVec.eq_of_toNat_eq h3.symm
  · exact BitVec.eq_of_toNat_eq h4.symm
  · exact BitVec.eq_of_toNat_eq h5.symm
  · obtain ⟨a, ha, hoff⟩ := Option.map_eq_some_iff.mp hcur
    apply BitVec.eq_of_toNat_eq
    rw [regOffset, ha, Option.getD_some, BitVec.toNat_setWidth_of_le (by decide), hoff]

/-- R67, R60: the row of a write request encodes the request, with the bits its data port carries. -/
theorem encode_decodeBus_write {p : Params} {r : BusRequest} (hwe : r.we = true) :
    encode p (decodeBus p r) = .bus { r with wdata := p.busWord r.wdata } := by
  cases h : decodeOffset p (r.addr - p.engineBase) with
  | none => rw [decodeBus_none h]; rfl
  | some g =>
    rw [decodeBus_some h, if_pos hwe, encode_writeInstr, writeRequest, regOffset_of_decodeOffset h, hwe,
      add_sub_cancel]

/-! ## Session lines -/

/-- The characters of one word of a session line (R160). -/
def IsWord (w : List Byte) : Prop := ∀ c ∈ w, c ≠ spaceChar ∧ c ≠ newlineChar

theorem isWord_renderHex (n v : Nat) : IsWord (renderHex n v) := fun c hc =>
  ⟨renderHex_ne_space n v c hc, renderHex_ne_newline n v c hc⟩

theorem isWord_wordMw : IsWord wordMw := by unfold IsWord; decide

theorem isWord_wordMr : IsWord wordMr := by unfold IsWord; decide

theorem isWord_wordStartsim : IsWord wordStartsim := by unfold IsWord; decide

theorem boardName_iff {board : List Byte} : boardName board = true ↔ board.isEmpty = false ∧ IsWord board := by
  simp [boardName, IsWord, spaceChar, newlineChar]

/-- A session line of these words, without its newline (R160). -/
def lineOf (w : List Byte) (ws : List (List Byte)) : List Byte := w ++ ws.flatMap (spaceChar :: ·)

theorem splitWords_lineOf {w : List Byte} {ws : List (List Byte)} (h : ∀ v ∈ w :: ws, IsWord v) :
    splitWords (lineOf w ws) = w :: ws := by
  induction ws generalizing w with
  | nil =>
    rw [lineOf, List.flatMap_nil, List.append_nil]
    exact splitWords_word fun c hc => (h w (by simp) c hc).1
  | cons v ws ih =>
    have hv : splitWords (lineOf v ws) = v :: ws := ih fun u hu => h u (List.mem_cons_of_mem w hu)
    rw [lineOf, List.flatMap_cons, List.cons_append, ← lineOf, splitWords_space, hv]
    exact fun c hc => (h w (by simp) c hc).1

theorem lineOf_ne_newline {w : List Byte} {ws : List (List Byte)} (h : ∀ v ∈ w :: ws, IsWord v) :
    ∀ c ∈ lineOf w ws, c ≠ newlineChar := by
  intro c hc
  simp only [lineOf, List.mem_append, List.mem_flatMap, List.mem_cons] at hc
  obtain hc | ⟨v, hv, rfl | hc⟩ := hc
  · exact (h w (by simp) c hc).2
  · decide
  · exact (h v (by simp [hv]) c hc).2

/-- A session line is decoded by its words. -/
theorem decode_lineOf (p : Params) {w : List Byte} {ws : List (List Byte)} (h : ∀ v ∈ w :: ws, IsWord v) :
    decode p (.line (lineOf w ws ++ [newlineChar])) = decodeWords p (w :: ws) := by
  rw [decode, decodeLine, stripNewline_append (lineOf_ne_newline h)]
  exact congrArg (decodeWords p) (splitWords_lineOf h)

theorem decode_mw {p : Params} {d : Data} (addr : Addr) (hd : dataFits p d = true) :
    decode p (encode p (.mw addr d)) = .ok (.mw addr d) := by
  have hline : encode p (.mw addr d) =
      .line (lineOf wordMw [renderHex 8 addr.toNat, renderHex (dataDigits p) d] ++ [newlineChar]) := by
    simp [encode, lineOf]
  have hwords : ∀ v ∈ [wordMw, renderHex 8 addr.toNat, renderHex (dataDigits p) d], IsWord v := by
    simp [isWord_wordMw, isWord_renderHex]
  rw [hline, decode_lineOf p hwords, decodeWords, if_pos rfl, parseHex_addr, parseHex_data hd]
  simp only [BitVec.ofNat_toNat, BitVec.setWidth_eq]

theorem decode_mr (p : Params) (addr : Addr) : decode p (encode p (.mr addr)) = .ok (.mr addr) := by
  have hline : encode p (.mr addr) = .line (lineOf wordMr [renderHex 8 addr.toNat] ++ [newlineChar]) := by
    simp [encode, lineOf]
  have hwords : ∀ v ∈ [wordMr, renderHex 8 addr.toNat], IsWord v := by
    simp [isWord_wordMr, isWord_renderHex]
  rw [hline, decode_lineOf p hwords, decodeWords, if_pos rfl, parseHex_addr]
  simp only [BitVec.ofNat_toNat, BitVec.setWidth_eq]

theorem decode_startsim (p : Params) {board : List Byte} (h : boardName board = true) :
    decode p (encode p (.startsim board)) = .ok (.startsim board) := by
  obtain ⟨hne, hboard⟩ := boardName_iff.mp h
  have hline : encode p (.startsim board) = .line (lineOf wordStartsim [board] ++ [newlineChar]) := by
    simp [encode, lineOf]
  have hwords : ∀ v ∈ [wordStartsim, board], IsWord v := by
    simp [isWord_wordStartsim, hboard]
  rw [hline, decode_lineOf p hwords, decodeWords, if_neg (by decide), if_pos rfl, hne, if_neg (by decide)]

end Sys2Proof

namespace Sys2Proof.Machine

/-- Settles O57, format by format: a bus row is read back from its register's offset, a session line from its words, a
driver call from its digits. -/
theorem decodeEncode : Obligations.DecodeEncode := by
  intro p i h
  cases i with
  | cmdNone | cmdScan | cmdReset | cmdState | cmdReserved4 | cmdReserved5 | cmdReserved6 | cmdReserved7 => rfl
  | rdBuf | rdScanState | rdEndState | rdChainLength | rdControl | rdStatus | rdCommand =>
    exact decode_readRequest nofun
  | wrBuf | wrScanState | wrEndState | wrChainLength | wrControl | wrStatus | wrCommand =>
    exact decode_writeRequest nofun h
  | rdCurState => exact decode_readRequest fun _ => h
  | wrCurState =>
    obtain ⟨hmapped, hd⟩ := Bool.and_eq_true_iff.mp h
    exact decode_writeRequest (fun _ => hmapped) hd
  | outOfRange =>
    obtain ⟨ho, hd⟩ := Bool.and_eq_true_iff.mp h
    exact decode_outOfRange ho hd
  | mw addr => exact decode_mw addr h
  | mr addr => exact decode_mr p addr
  | startsim => exact decode_startsim p h
  | stopsim | exit => rfl
  | scanIr | scanDr => simp only [encode, decode, decodeCall, hexDigits_map_hexChar]
  | runtest => rfl

/-- Settles O58: the row of a write request encodes it with the bits its port carries, which are all of them where the
data fit. -/
theorem encodeDecodeBusWrite : Obligations.EncodeDecodeBusWrite := by
  intro p r hwe
  have henc : encode p (decodeBus p r) = .bus { r with wdata := r.wdata % 2 ^ p.dataWidth } :=
    encode_decodeBus_write hwe
  refine ⟨henc, fun hfits => ?_⟩
  rw [henc, Nat.mod_eq_of_lt hfits]

/-- Settles O59: the ten words are literals, which the decoder evaluates. -/
theorem tableWords : Obligations.TableWords :=
  ⟨rfl, rfl, rfl, rfl, rfl, rfl, rfl, rfl, rfl, rfl⟩

end Sys2Proof.Machine
end

section
/-! O2, O3, O4: the TAP graph and the router. Everything said of the router's paths follows from one fact of its table
(R83): off the diagonal its step leaves the target nearer than the other step does. Hence no edge brings the target more
than one step nearer, so no walk is shorter than the router's. -/

namespace Sys2Proof.Machine

/-! ## The tables -/

/-- R82 (a): the recorded self-loop is the TMS value that keeps the TAP in the state, by the two tables. -/
theorem selfLoop_eq_some_iff (s : TapState) (v : Bool) : selfLoop s = some v ↔ tapNext s v = s := by
  cases s <;> cases v <;> decide

/-- R82 (a). -/
theorem isStable_iff (s : TapState) : isStable s = true ↔ ∃ v, tapNext s v = s := by
  simp only [isStable, Option.isSome_iff_exists, selfLoop_eq_some_iff]

/-- R83: of the two steps from s, the router's leaves t nearer; read off the table for the 240 pairs (R84). -/
theorem distance_route_lt {s t : TapState} (h : s ≠ t) :
    distance (tapNext s (route s t)) t < distance (tapNext s !(route s t)) t := by
  revert h
  cases s <;> cases t <;> decide

/-! ## The router's paths -/

/-- R83: the nearer step is the router's, whichever it is. -/
theorem route_eq_iff {s t : TapState} (h : s ≠ t) (v : Bool) :
    route s t = v ↔ distance (tapNext s v) t < distance (tapNext s !v) t := by
  have hlt := distance_route_lt h
  constructor
  · rintro rfl
    exact hlt
  · intro hv
    by_contra hne
    rw [Bool.eq_not_of_ne hne, Bool.not_not] at hlt
    exact hlt.asymm hv

/-- No edge of the graph brings t more than one step nearer. -/
theorem distance_le_tapNext (s t : TapState) (v : Bool) : distance s t ≤ distance (tapNext s v) t + 1 := by
  by_cases h : s = t
  · simp [h]
  · rw [distance_step h]
    by_cases hv : v = route s t
    · rw [hv]
    · rw [Bool.eq_not_of_ne hv]
      exact Nat.succ_le_succ (distance_route_lt h).le

/-- R83, R86: no sequence of TMS values from s is shorter than the router's path to where it leads. -/
theorem distance_tapRun_le (s : TapState) (l : List Bool) : distance s (tapRun s l) ≤ l.length := by
  induction l generalizing s with
  | nil => exact (distance_self s).le
  | cons v l ih => exact (distance_le_tapNext s _ v).trans (Nat.succ_le_succ (ih (tapNext s v)))

/-- R86, R88: the router's path to t leads to t, for every step of it brings t nearer. -/
theorem tapRun_path (s t : TapState) : tapRun s (path s t) = t := by
  by_cases h : s = t
  · subst h
    rw [path_self]
    rfl
  · rw [path_step h]
    exact tapRun_path (tapNext s (route s t)) t
termination_by distance s t
decreasing_by
  rw [distance_step h]
  exact Nat.lt_succ_self _

/-! ## The obligations -/

/-- Settles O3: the router's steps lead to the target, every edge gains at most one step, and the table's largest distance
is 8. -/
theorem routerTakesShortestPath : Obligations.RouterTakesShortestPath := by
  intro s t
  refine ⟨tapRun_path s t, ?_, distance_le s t⟩
  rintro l rfl
  exact distance_tapRun_le s l

/-- Settles O2: the five ones by the transition table, stability by the recorded self-loops. -/
theorem fiveOnesReachReset : Obligations.FiveOnesReachReset :=
  ⟨tapRun_five_ones, isStable_iff, selfLoop_eq_some_iff⟩

/-- Settles O4: off the diagonal by the nearer step, on it by the self-loop. -/
theorem routeIsNearerStep : Obligations.RouteIsNearerStep :=
  ⟨fun _ _ h v => route_eq_iff h v, fun _ h => tapNext_route_self h⟩

end Sys2Proof.Machine
end

section
/-! O5, O6: the scan buffer. That an access reaches its own bit or byte only is the store rules of the bytes and bits; what
they do not yet say is the mask form of a bit's read, the byte nothing has written, and the write that changes no bit. -/

namespace Sys2Proof.Machine

/-! ## The reads -/

/-- R92: a bit of the byte is the low bit of the byte shifted down to it. -/
theorem readBit_iff_shift_and_one (s : State) (i : Nat) :
    readBit s i = true ↔ (readByte s (i / 8) >>> (i % 8)) &&& 1#8 = 1#8 := by
  have hbit : readBit s i = (readByte s (i / 8) >>> (i % 8)).getLsbD 0 := by
    simp only [readBit, BitVec.getLsbD_ushiftRight, Nat.add_zero]
  rw [hbit, BitVec.and_one_eq_setWidth_ofBool_getLsbD]
  generalize (readByte s (i / 8) >>> (i % 8)).getLsbD 0 = v
  cases v <;> decide

/-- U11: what a read of a byte nothing has written gives. -/
theorem readByte_of_lookup_none {s : State} {k : Nat} (h : Memory.lookup s.buf k = none) :
    readByte s k = Config.unwrittenByte s.bufEpoch k := by
  simp only [readByte, h]

/-! ## The write of a bit -/

theorem readBit_writeBit_self (s : State) (i j : Nat) :
    readBit (writeBit s i (readBit s i)) j = readBit s j := by
  by_cases h : j = i
  · rw [h, readBit_writeBit_same]
  · exact readBit_writeBit_ne s _ h

/-- R93: writing the value the bit has changes no bit, hence no byte. -/
theorem readByte_writeBit_self (s : State) (i k : Nat) :
    readByte (writeBit s i (readBit s i)) k = readByte s k :=
  readByte_ext fun _ _ => readBit_writeBit_self s i _

/-! ## The obligations -/

/-- Settles O5: the store rules of the bits, and the write of the bit's own value byte by byte; the bound on the index is
not needed. -/
theorem bitAccess : Obligations.BitAccess := by
  intro s i b _
  refine ⟨readBit_iff_shift_and_one s i, readByte_writeBit_same s i b, readBit_writeBit_same s i b,
    fun _ hj => readBit_writeBit_ne s b hj, fun _ hk => readByte_writeBit_ne s b hk, ?_, rfl⟩
  rintro rfl k
  exact readByte_writeBit_self s i k

/-- Settles O6: the store rules of the bytes. -/
theorem byteAccess : Obligations.ByteAccess := fun s k v =>
  ⟨readByte_writeByte_same s k v, fun _ hj => readByte_writeByte_ne s v hj, rfl, readByte_of_lookup_none⟩

end Sys2Proof.Machine
end

section
/-! O9, O18, O25, O27, O28, O41: single ticks of the engine that are no pulse. Each is the bookkeeping step of its phase
(R128), after which the pins are set only where that step makes a pulse begin (R202). -/

namespace Sys2Proof.Machine

/-! ## A quiet block -/

theorem drive_quiet {s : State} (hb : isBusy s = false) : drive s = s := drive_none (pulseOp_quiet hb)

/-- R102, R121: with busy = 0 and nothing to dispatch. -/
theorem idleTick_quiet {s : State} (hb : isBusy s = false) (hd : dispatching s = false) :
    idleTick s = .next { s with
      eng := if s.eng = .done ∧ s.go = false then .idle else s.eng, busAck := false } :=
  idleTick_next_iff.mpr ⟨_, engineTick_quiet hb hd,
    (drive_quiet (s := withAck false { s with eng := if s.eng = .done ∧ s.go = false then .idle else s.eng })
      (isBusy_quiet_eng hb)).symm⟩

theorem isBusy_of_done {s : State} (he : s.eng = .done) : isBusy s = false := by simp [isBusy, he]

theorem dispatching_of_done {s : State} (he : s.eng = .done) : dispatching s = false := by
  simp [dispatching, triggered, he]

/-- R101, R139: a write of the control register with busy = 0 and nothing to dispatch. -/
theorem busWrite_control_quiet {s : State} (d : Data) (hb : isBusy s = false) (hd : dispatching s = false)
    (ha : s.busAck = false) :
    busWrite .control d s = .next { s with
      eng := if s.eng = .done ∧ s.go = false then .idle else s.eng
      go := d.testBit 0, pending := triggerEdge d s || s.pending, busAck := true } := by
  have hp : ∀ u : State, pendingAfterWrite d s u = (triggerEdge d s || u.pending) := by
    intro u
    cases h : triggerEdge d s <;> simp [pendingAfterWrite, h, hd]
  rw [busWrite, if_neg (by simp [isParameter]), requestTick, if_neg (by simp [ha]), tickWith,
    engineTick_quiet hb hd, andThen_next, drive_quiet]
  · simp only [regWrite, hp]
    rfl
  · exact isBusy_quiet_eng hb

/-! ## The obligations -/

/-- Settles O9: the quiet tick. -/
theorem quietTickEffect : Obligations.QuietTickEffect := fun _ hb hd => idleTick_quiet hb hd

/-- Settles O18: the three dispatches, and a quiet tick wherever none is due. -/
theorem idleStep : Obligations.IdleStep := by
  intro s he hb
  have htr : s.pending = true → triggered s = true := fun hp => triggered_iff.mpr ⟨he, hp⟩
  refine ⟨?scan, ?reset, ?state, ?none⟩
  case scan =>
    rintro ⟨hp, hc⟩
    rw [(idleTick_dispatch (htr hp)).1 hc, drive_preShift rfl]
    rfl
  case reset =>
    rintro ⟨hp, hc⟩
    rw [(idleTick_dispatch (htr hp)).2.1 hc,
      drive_some (s := withAck false (dispatchReset s)) (pulseOp_tapReset rfl (Nat.succ_pos 4)) hb]
    rfl
  case state =>
    rintro ⟨hp, hc⟩
    rw [(idleTick_dispatch (htr hp)).2.2 hc, drive_nav (s := withAck false (dispatchState s)) (.inr rfl) hb]
    rfl
  case none =>
    intro h
    have hd : dispatching s = false := by
      rcases h with hp | ⟨h1, h2, h3⟩
      · simp [dispatching, triggered, hp]
      · simp [dispatching, selectsCommand, h1, h2, h3]
    rw [idleTick_quiet (by simp [isBusy, he]) hd, if_neg (by simp [he])]

/-- Settles O25: the exit path begins where the shift left the TAP. -/
theorem shiftExit : Obligations.ShiftExit := by
  intro s he hi hb
  rw [idleTick_step (u := leaveShift s) (pulseOp_shifted_out he hi) (by rw [bookkeepingTick, he]),
    drive_nav (s := withAck false (leaveShift s)) (.inr rfl) hb]
  rfl

/-- Settles O27: the arrival is no pulse, and DONE is not busy. -/
theorem gotoStateExit : Obligations.GotoStateExit := by
  intro s he hc
  refine ⟨?_, by simp [isBusy, he], by simp [isBusy]⟩
  rw [idleTick_step (u := enterDone s) (pulseOp_arrived (.inr he) hc) (by rw [bookkeepingTick, he]), drive_done rfl]
  rfl

/-- Settles O28: DONE is quiet, and a rising edge of GO is a trigger in IDLE only. -/
theorem doneStep : Obligations.DoneStep := by
  intro s he
  have hb := isBusy_of_done he
  have hd := dispatching_of_done he
  refine ⟨fun hg => ?_, fun hg => ?_, fun d t ht => ?_⟩
  · rw [idleTick_quiet hb hd, if_pos ⟨he, hg⟩]
  · rw [idleTick_quiet hb hd, if_neg (by simp [hg])]
  · have ht : busWrite .control d s = .next t := ht
    obtain ⟨ha, -⟩ := requestTick_next ht
    rw [busWrite_control_quiet d hb hd ha] at ht
    cases ht
    simp [triggerEdge, he]

/-- R121, R198: after a write that lowers GO in DONE, and its acknowledge tick, the engine is in IDLE with nothing
pending. -/
theorem lower_go_from_done {s : State} {d : Data} (he : s.eng = .done) (hp : s.pending = false) (ha : s.busAck = false)
    (hd : d.testBit 0 = false) :
    ∃ u v, busWrite .control d s = .next u ∧ idleTick u = .next v ∧ v.eng = .idle ∧ v.pending = false ∧
      v.go = false ∧ v.busAck = false := by
  refine ⟨_, _, busWrite_control_quiet d (isBusy_of_done he) (dispatching_of_done he) ha,
    idleTick_quiet (isBusy_quiet_eng (isBusy_of_done he) :) ?_, ?_, ?_, hd, rfl⟩
  · simp [dispatching, triggered, triggerEdge, he, hp]
  · by_cases hg : s.go = false <;> simp [he, hg, hd]
  · simp [triggerEdge, he, hp]

/-- Settles O41: the second write is an edge of GO in IDLE. -/
theorem loweredGoFreesEngine : Obligations.LoweredGoFreesEngine := by
  intro s d e he hp ha hd0 he0
  obtain ⟨u, v, hu, hv, hve, hvp, hvg, hva⟩ := lower_go_from_done he hp ha hd0
  have hw := busWrite_control_quiet e (by simp [isBusy, hve]) (by simp [dispatching, triggered, hvp]) hva
  exact ⟨u, v, _, hu, hv, hw, hve, by simp [triggerEdge, he0, hvg, hve], he0⟩

end Sys2Proof.Machine
end

section
/-! O55: every command and every poll ends within the model's bounds (R122). A bound on the ticks a busy engine has still
to go falls at every tick, at a pulse's ticks by the position within the pulse and at a bookkeeping step by the phase; it
is never above `commandTickBound`. -/

namespace Sys2Proof.Machine

/-! ## The ticks still to go -/

/-- R29, R202: the ticks elapsed in the pulse in progress. -/
def ticksIntoPulse (s : State) : Nat :=
  (if s.tckHalf = .high then 1 + s.clockDivider else 0) + s.halfCount

/-- R122: no more pulses than these, the one in progress counted, before DONE. -/
def pulsesLeft (s : State) : Nat :=
  match s.eng with
  | .idle | .done => 0
  | .preShift | .clearBuffer => Config.routeDiameter + Config.bufBits + Config.routeDiameter
  | .gotoStart => distance s.curState s.target + Config.bufBits + Config.routeDiameter
  | .shift => s.chainLength.toNat - s.bitIndex.toNat + Config.routeDiameter
  | .gotoState => distance s.curState s.target
  | .tapReset => Config.resetPulses - s.resetCount

/-- R128: the bookkeeping steps before DONE. -/
def bookkeepingLeft : Phase → Nat
  | .idle | .done => 0
  | .preShift => 5
  | .clearBuffer => 4
  | .gotoStart => 3
  | .shift => 2
  | .gotoState | .tapReset => 1

/-- R122, R203: no more ticks than these before DONE. -/
def ticksLeft (s : State) : Nat :=
  bookkeepingLeft s.eng + pulsesLeft s * pulseTicks s - ticksIntoPulse s

@[simp] theorem ticksLeft_drive (s : State) : ticksLeft (drive s) = ticksLeft s := by
  simp [ticksLeft, pulsesLeft, pulseTicks, ticksIntoPulse]

theorem ticksIntoPulse_lt {s : State} (h : s.halfCount ≤ s.clockDivider) : ticksIntoPulse s < pulseTicks s := by
  unfold ticksIntoPulse pulseTicks
  split <;> omega

theorem ticksIntoPulse_rest {s : State} (h : betweenPulses s = true) : ticksIntoPulse s = 0 := by
  obtain ⟨hl, h0⟩ := betweenPulses_iff.mp h
  simp [ticksIntoPulse, hl, h0]

/-- R107, R112, R118: every pulse leaves one pulse less to go. -/
theorem pulsesLeft_endOfPulse {s : State} {p : PulseOp} (c : InvCore s) (hp : pulseOp s = some p) :
    pulsesLeft s = pulsesLeft (stepAfterPulse (fallingEdge p s)) + 1 := by
  have nav : s.eng = .gotoStart ∨ s.eng = .gotoState → s.curState ≠ s.target ∧ p.tms = route s.curState s.target := by
    intro he
    have hc : s.curState ≠ s.target := fun hc => nomatch (pulseOp_arrived he hc).symm.trans hp
    rw [pulseOp_nav he hc] at hp
    cases hp
    exact ⟨hc, rfl⟩
  cases he : s.eng with
  | gotoStart =>
    obtain ⟨hc, hv⟩ := nav (.inl he)
    simp only [pulsesLeft, stepAfterPulse, fallingEdge_eng, he, fallingEdge_curState, fallingEdge_target, hv,
      distance_step hc]
    omega
  | gotoState =>
    obtain ⟨hc, hv⟩ := nav (.inr he)
    simp only [pulsesLeft, stepAfterPulse, fallingEdge_eng, he, fallingEdge_curState, fallingEdge_target, hv,
      distance_step hc]
  | shift =>
    have hi : s.bitIndex ≠ s.chainLength := fun hi => nomatch (pulseOp_shifted_out he hi).symm.trans hp
    have hlt := c.index_lt he hi
    have hn : (s.bitIndex + 1).toNat = s.bitIndex.toNat + 1 := by bv_omega
    simp only [pulsesLeft, stepAfterPulse, fallingEdge_eng, he, captureBit_eng, captureBit_chainLength,
      captureBit_bitIndex, fallingEdge_chainLength, fallingEdge_bitIndex, hn]
    omega
  | tapReset =>
    have hc : s.resetCount ≠ Config.resetPulses := fun hc => nomatch (pulseOp_tapReset_over he hc).symm.trans hp
    have := c.resetCountBound
    simp only [pulsesLeft, stepAfterPulse, fallingEdge_eng, he, countPulse_eng, countPulse_resetCount,
      fallingEdge_resetCount]
    omega
  | idle | preShift | clearBuffer | done => simp [pulseOp, he] at hp

/-! ## Every tick leaves fewer -/

/-- A tick that moves on within a pulse. -/
theorem ticksLeft_lt_within {s t : State} (he : t.eng = s.eng) (hq : pulsesLeft t = pulsesLeft s)
    (h0 : pulsesLeft s ≠ 0) (hT : pulseTicks t = pulseTicks s) (hi : ticksIntoPulse s < pulseTicks s)
    (hlt : ticksIntoPulse s < ticksIntoPulse t) : ticksLeft t < ticksLeft s := by
  obtain ⟨q, hs⟩ := Nat.exists_eq_succ_of_ne_zero h0
  simp only [ticksLeft, he, hq, hT, hs, Nat.succ_mul]
  omega

/-- The last tick of a pulse. -/
theorem ticksLeft_lt_end {s t : State} (he : t.eng = s.eng) (hq : pulsesLeft s = pulsesLeft t + 1)
    (hT : pulseTicks t = pulseTicks s) (hi : ticksIntoPulse s < pulseTicks s)
    (hlast : pulseTicks s ≤ ticksIntoPulse s + 1) : ticksLeft t < ticksLeft s := by
  simp only [ticksLeft, he, hq, hT, Nat.succ_mul]
  omega

theorem stepAfterPulse_eng (s : State) : (stepAfterPulse s).eng = s.eng := by
  unfold stepAfterPulse
  split <;> rfl

theorem pulseTicks_congr {s t : State} (h : outside t = outside s) : pulseTicks t = pulseTicks s :=
  congrArg (fun o => 2 * (1 + o.2)) h

/-- R202: a tick of a pulse moves on within it, or ends it. -/
theorem ticksLeft_pulseTick_lt {s : State} {p : PulseOp} (c : InvCore s) (hp : pulseOp s = some p) :
    ticksLeft (pulseTick p s) < ticksLeft s := by
  have hd := c.halfCountBound
  have hi := ticksIntoPulse_lt hd
  have hq := pulsesLeft_endOfPulse c hp
  have h0 : pulsesLeft s ≠ 0 := by rw [hq]; exact Nat.succ_ne_zero _
  by_cases hlt : s.halfCount < s.clockDivider
  · rw [pulseTick, if_pos hlt]
    exact ticksLeft_lt_within rfl rfl h0 rfl hi (Nat.lt_succ_self (ticksIntoPulse s))
  · cases hh : s.tckHalf with
    | low =>
      simp only [pulseTick, if_neg hlt, hh]
      refine ticksLeft_lt_within (by simp) (by simp [pulsesLeft]) h0 (by simp [pulseTicks]) hi ?_
      simp [ticksIntoPulse, hh]
      omega
    | high =>
      simp only [pulseTick, if_neg hlt, hh]
      refine ticksLeft_lt_end (stepAfterPulse_eng (fallingEdge p s)) hq
        (pulseTicks_congr (outside_stepAfterPulse (fallingEdge p s))) hi ?_
      simp only [ticksIntoPulse, hh, pulseTicks, if_pos]
      omega

/-- R128: a bookkeeping step of a busy engine leaves for a phase with fewer steps and no more pulses to go. -/
theorem ticksLeft_bookkeeping_lt {s u : State} (c : InvCore s) (hp : pulseOp s = none) (hb : isBusy s = true)
    (hu : bookkeepingTick s = .next u) : ticksLeft u < ticksLeft s := by
  have hrest := ticksIntoPulse_rest (c.low hp)
  have key : ∀ v : State, pulseTicks v = pulseTicks s → bookkeepingLeft s.eng = bookkeepingLeft v.eng + 1 →
      pulsesLeft v ≤ pulsesLeft s → ticksLeft v < ticksLeft s := by
    intro v hT hk hq
    have := Nat.mul_le_mul_right (pulseTicks s) hq
    simp only [ticksLeft, hT, hrest]
    omega
  unfold bookkeepingTick at hu
  cases he : s.eng with
  | idle | done => simp [isBusy, he] at hb
  | preShift => rw [he] at hu; cases hu; exact key _ rfl (congrArg bookkeepingLeft he) (by simp [pulsesLeft, he])
  | clearBuffer =>
    rw [he] at hu; cases hu
    refine key _ rfl (congrArg bookkeepingLeft he) ?_
    have := distance_le s.curState s.scanState
    simp only [pulsesLeft, he, leaveClearBuffer_eng, leaveClearBuffer_curState, leaveClearBuffer_target,
      Config.routeDiameter]
    omega
  | gotoStart =>
    rw [he] at hu
    simp only [shiftEntry] at hu
    split at hu
    · cases hu
    · split at hu
      · cases hu
      · next hL =>
        cases hu
        refine key _ rfl (congrArg bookkeepingLeft he) ?_
        simp only [pulsesLeft, he, enterShift_eng, enterShift_chainLength, enterShift_bitIndex]
        omega
  | shift =>
    rw [he] at hu; cases hu
    refine key _ rfl (congrArg bookkeepingLeft he) ?_
    have := distance_le s.curState s.endState
    simp only [pulsesLeft, he, leaveShift_eng, leaveShift_curState, leaveShift_target, Config.routeDiameter]
    omega
  | gotoState | tapReset =>
    rw [he] at hu; cases hu
    exact key _ rfl (congrArg bookkeepingLeft he) (Nat.zero_le _)

/-- R128: the engine's part of a tick. -/
theorem ticksLeft_engineTick_lt {s u : State} (c : InvCore s) (hb : isBusy s = true) (hu : engineTick s = .next u) :
    ticksLeft u < ticksLeft s := by
  cases hp : pulseOp s with
  | some p =>
    rw [engineTick_pulse hp] at hu
    cases hu
    exact ticksLeft_pulseTick_lt c hp
  | none =>
    rw [engineTick_none hp] at hu
    exact ticksLeft_bookkeeping_lt c hp hb hu

/-- R122, R203: never more than the model's bound. -/
theorem ticksLeft_le_bound {s : State} (c : InvCore s) : ticksLeft s ≤ commandTickBound s := by
  have hk : bookkeepingLeft s.eng ≤ 5 := by cases s.eng <;> decide
  have hq : pulsesLeft s ≤ Config.routeDiameter + Config.bufBits + Config.routeDiameter := by
    have hd := distance_le s.curState s.target
    unfold pulsesLeft
    cases he : s.eng with
    | shift =>
      obtain ⟨-, hL, -⟩ := c.shifting he
      simp only
      omega
    | _ => simp [Config.routeDiameter, Config.bufBits, Config.resetPulses] <;> omega
  have hm := Nat.mul_le_mul_right (pulseTicks s) hq
  exact (Nat.sub_le _ _).trans (Nat.add_le_add hk hm)

/-- A busy engine has a bookkeeping step to go. -/
theorem ticksLeft_pos {s : State} (c : InvCore s) (hb : isBusy s = true) : 0 < ticksLeft s := by
  have hk : 0 < bookkeepingLeft s.eng := by
    cases he : s.eng with
    | idle | done => simp [isBusy, he] at hb
    | _ => decide
  have hi : ticksIntoPulse s ≤ pulsesLeft s * pulseTicks s := by
    cases hp : pulseOp s with
    | some p =>
      exact (ticksIntoPulse_lt c.halfCountBound).le.trans
        (Nat.le_mul_of_pos_left _ (by rw [pulsesLeft_endOfPulse c hp]; exact Nat.succ_pos _))
    | none => rw [ticksIntoPulse_rest (c.low hp)]; exact Nat.zero_le _
  unfold ticksLeft
  omega

/-! ## Ticks of a busy engine -/

theorem pulseTick_eng (p : PulseOp) (s : State) : (pulseTick p s).eng = s.eng := by
  unfold pulseTick
  split
  · rfl
  · split
    · exact risingEdge_eng p s
    · exact stepAfterPulse_eng (fallingEdge p s)

/-- R102, R128: a command is left by way of DONE. -/
theorem engineTick_ne_idle {s u : State} (hb : isBusy s = true) (hu : engineTick s = .next u) : u.eng ≠ .idle := by
  have hs : s.eng ≠ .idle := fun he => by simp [isBusy, he] at hb
  cases hp : pulseOp s with
  | some p =>
    rw [engineTick_pulse hp] at hu
    cases hu
    rwa [pulseTick_eng]
  | none =>
    rw [engineTick_none hp] at hu
    unfold bookkeepingTick at hu
    cases he : s.eng with
    | idle | done => simp [isBusy, he] at hb
    | gotoStart => rw [he] at hu; rw [shiftEntry_next hu]; nofun
    | preShift | clearBuffer | shift | gotoState | tapReset => rw [he] at hu; cases hu; nofun

theorem busy_or_done {s : State} (h : s.eng ≠ .idle) : isBusy s = true ∨ s.eng = .done := by
  by_cases hd : s.eng = .done <;> simp [isBusy, h, hd]

theorem idleTick_busy {s t : State} (h : Inv s) (hb : isBusy s = true) (ht : idleTick s = .next t) :
    ticksLeft t < ticksLeft s ∧ t.eng ≠ .idle := by
  obtain ⟨u, hu, rfl⟩ := idleTick_next_iff.mp ht
  rw [ticksLeft_drive, drive_eng]
  exact ⟨(ticksLeft_engineTick_lt h.toInvCore hb hu :), (engineTick_ne_idle hb hu :)⟩

theorem busRead_busy {r : Reg} {s t : State} (h : Inv s) (hb : isBusy s = true) (ht : busRead r s = .next t) :
    ticksLeft t < ticksLeft s ∧ t.eng ≠ .idle := by
  obtain ⟨-, u, hu, rfl⟩ := requestTick_next ht
  rw [ticksLeft_drive, drive_eng]
  exact ⟨(ticksLeft_engineTick_lt h.toInvCore hb hu :), (engineTick_ne_idle hb hu :)⟩

/-- R121. -/
theorem idleTick_done_quiet {s t : State} (he : s.eng = .done) (ht : idleTick s = .next t) : isBusy t = false := by
  rw [idleTick_quiet (isBusy_of_done he) (dispatching_of_done he)] at ht
  cases ht
  exact isBusy_quiet_eng (isBusy_of_done he)

/-! ## What never faults in any state -/

/-- None of the model's bounds is passed. -/
def NeverFaults {α : Type} (o : Result α) : Prop := ∀ f, o ≠ .fault f

theorem neverFaults_next {α : Type} (a : α) : NeverFaults (.next a) := nofun

theorem neverFaults_refused {α : Type} (r : Refusal) : NeverFaults (.refused r : Result α) := nofun

theorem NeverFaults.andThen {α β : Type} {o : Result α} {f : α → Result β} (h : NeverFaults o)
    (g : ∀ a, o = .next a → NeverFaults (f a)) : NeverFaults (andThen o f) := by
  intro e he
  rcases andThen_eq_fault.mp he with he | ⟨a, ha, he⟩
  · exact h e he
  · exact g a ha e he

theorem engineTick_neverFaults (s : State) : NeverFaults (engineTick s) := by
  unfold engineTick
  split
  · exact neverFaults_next _
  · unfold bookkeepingTick
    split
    case h_4 =>
      unfold shiftEntry
      split_ifs
      exacts [neverFaults_refused _, neverFaults_refused _, neverFaults_next _]
    all_goals exact neverFaults_next _

theorem idleTick_neverFaults (s : State) : NeverFaults (idleTick s) :=
  (engineTick_neverFaults s).andThen fun _ _ => neverFaults_next _

theorem requestTick_neverFaults (f : State → State) (s : State) : NeverFaults (requestTick f s) := by
  unfold requestTick
  split
  · exact neverFaults_refused _
  · exact (engineTick_neverFaults s).andThen fun _ _ => neverFaults_next _

theorem busRead_neverFaults (r : Reg) (s : State) : NeverFaults (busRead r s) := requestTick_neverFaults _ s

theorem busWrite_neverFaults (r : Reg) (d : Data) (s : State) : NeverFaults (busWrite r d s) := by
  unfold busWrite
  split
  · exact neverFaults_refused _
  · exact requestTick_neverFaults _ s

theorem awaitAck_neverFaults (s : State) : NeverFaults (awaitAck s) := by
  unfold awaitAck
  split
  · exact idleTick_neverFaults s
  · exact neverFaults_next s

theorem hostWrite_neverFaults (r : Reg) (d : Data) (s : State) : NeverFaults (hostWrite r d s) :=
  (awaitAck_neverFaults s).andThen fun u _ => (busWrite_neverFaults r d u).andThen fun v _ => idleTick_neverFaults v

theorem hostRead_neverFaults (r : Reg) (s : State) : NeverFaults (hostRead r s) :=
  (awaitAck_neverFaults s).andThen fun u _ => (busRead_neverFaults r u).andThen fun v _ =>
    (idleTick_neverFaults v).andThen fun _ _ => neverFaults_next _

theorem loadBytes_neverFaults (k : Nat) (l : List Byte) (s : State) : NeverFaults (loadBytes k l s) := by
  induction l generalizing k s with
  | nil => exact neverFaults_next s
  | cons b l ih => exact (hostWrite_neverFaults _ _ s).andThen fun u _ => ih (k + 1) u

theorem readBytes_neverFaults (k n : Nat) (s : State) : NeverFaults (readBytes k n s) := by
  induction n generalizing k s with
  | zero => exact neverFaults_next _
  | succ n ih =>
    exact (hostRead_neverFaults _ s).andThen fun vt _ => (ih (k + 1) vt.2).andThen fun _ _ => neverFaults_next _

/-! ## The commands and the polls -/

/-- R122: a command under way reaches DONE within the ticks it has to go. -/
theorem runToDone_neverFaults {n : Nat} {s : State} (h : Inv s) (he : s.eng ≠ .idle) (hn : ticksLeft s ≤ n) :
    NeverFaults (runToDone n s) := by
  rcases busy_or_done he with hb | hd
  case inr => rw [runToDone_done hd]; exact neverFaults_next s
  have hne : s.eng ≠ .done := fun hd => by simp [isBusy, hd] at hb
  induction n generalizing s with
  | zero => exact absurd (ticksLeft_pos h.toInvCore hb) (by omega)
  | succ n ih =>
    rw [runToDone, if_neg hne]
    refine (idleTick_neverFaults s).andThen fun t ht => ?_
    obtain ⟨hlt, het⟩ := idleTick_busy h hb ht
    rcases busy_or_done het with hbt | hdt
    · exact ih (h.idleTick ht) het (by omega) hbt (fun hd => by simp [isBusy, hd] at hbt)
    · rw [runToDone_done hdt]; exact neverFaults_next t

/-- R154: the read of a poll is its two ticks, and answers busy as it is in the first. -/
theorem hostRead_status_next {s t : State} {v : Data} (ha : s.busAck = false) (ht : hostRead .status s = .next (v, t)) :
    v = bitWord (isBusy s) ∧ ∃ u, busRead .status s = .next u ∧ idleTick u = .next t := by
  rw [hostRead, awaitAck, if_neg (by simp [ha]), andThen_next] at ht
  obtain ⟨u, hu, ht⟩ := andThen_eq_next.mp ht
  obtain ⟨w, hw, ht⟩ := andThen_eq_next.mp ht
  cases ht
  obtain ⟨-, x, -, rfl⟩ := requestTick_next hu
  exact ⟨drive_busRdata _, _, hu, hw⟩

/-- R122, R154: a poll that sees busy leaves fewer ticks to go, if any. -/
theorem hostRead_status_busy {s t : State} {v : Data} (h : Inv s) (ha : s.busAck = false) (hb : isBusy s = true)
    (ht : hostRead .status s = .next (v, t)) (hbt : isBusy t = true) : ticksLeft t < ticksLeft s := by
  obtain ⟨-, u, hu, hut⟩ := hostRead_status_next ha ht
  obtain ⟨hlt, heu⟩ := busRead_busy h hb hu
  rcases busy_or_done heu with hbu | hdu
  · exact (idleTick_busy (h.busRead hu) hbu hut).1.trans hlt
  · simp [idleTick_done_quiet hdu hut] at hbt

theorem idleTick_busAck {s t : State} (ht : idleTick s = .next t) : t.busAck = false := by
  obtain ⟨u, -, rfl⟩ := idleTick_next_iff.mp ht
  exact drive_busAck _

theorem poll_quiet_neverFaults {n : Nat} {s : State} (ha : s.busAck = false) (hb : isBusy s = false) :
    NeverFaults (poll (n + 1) s) := by
  refine (hostRead_neverFaults _ s).andThen fun ⟨v, t⟩ ht => ?_
  have hv : v.testBit 0 = false := by rw [(hostRead_status_next ha ht).1, hb]; decide
  rw [if_neg (by simp [hv])]
  exact neverFaults_next t

/-- R154: polls that begin with the bus free see busy fall. -/
theorem poll_neverFaults_of_free {n : Nat} {s : State} (h : Inv s) (ha : s.busAck = false)
    (hn : isBusy s = true → ticksLeft s ≤ n) : NeverFaults (poll (n + 1) s) := by
  cases hb : isBusy s with
  | false => exact poll_quiet_neverFaults ha hb
  | true =>
    induction n generalizing s with
    | zero => exact absurd (ticksLeft_pos h.toInvCore hb) (by have := hn hb; omega)
    | succ n ih =>
      refine (hostRead_neverFaults _ s).andThen fun ⟨v, t⟩ ht => ?_
      obtain ⟨hv, u, -, hut⟩ := hostRead_status_next ha ht
      have hv : v.testBit 0 = true := by rw [hv, hb]; decide
      rw [if_pos hv]
      cases hbt : isBusy t with
      | false => exact poll_quiet_neverFaults (idleTick_busAck hut) hbt
      | true =>
        have hlt := hostRead_status_busy h ha hb ht hbt
        exact ih (kept_inv.hostRead h ht) (idleTick_busAck hut) (fun _ => Nat.le_of_lt_succ (hlt.trans_le (hn hb))) hbt

theorem awaitAck_busAck {s t : State} (ht : awaitAck s = .next t) : t.busAck = false := by
  unfold awaitAck at ht
  split at ht
  · exact idleTick_busAck ht
  · next ha => cases ht; simpa using ha

/-- A poll that finds the access before still being acknowledged waits for it first. -/
theorem poll_awaitAck (n : Nat) (s : State) : poll (n + 1) s = andThen (awaitAck s) (poll (n + 1)) := by
  cases h : awaitAck s with
  | next u =>
    have hu : awaitAck u = .next u := by simp [awaitAck, awaitAck_busAck h]
    simp only [poll, hostRead, h, andThen_next, hu]
  | fault f => simp only [poll, hostRead, h, andThen_fault]
  | refused r => simp only [poll, hostRead, h, andThen_refused]

theorem awaitAck_outside {s t : State} (ht : awaitAck s = .next t) : outside t = outside s :=
  (kept_outside fun o => o = outside s).awaitAck rfl ht

/-- R122, R154: the driver's polls see busy fall within the bound. -/
theorem poll_neverFaults {s : State} (h : Inv s) : NeverFaults (poll (commandTickBound s + 1) s) := by
  rw [poll_awaitAck]
  refine (awaitAck_neverFaults s).andThen fun t ht => ?_
  have hi := kept_inv.awaitAck h ht
  have hc : commandTickBound t = commandTickBound s :=
    congrArg (fun o => 5 + (Config.routeDiameter + Config.bufBits + Config.routeDiameter) * (2 * (1 + o.2)))
      (awaitAck_outside ht)
  exact poll_neverFaults_of_free hi (awaitAck_busAck ht) fun _ => hc ▸ ticksLeft_le_bound hi.toInvCore

theorem scanCommand_neverFaults {len : Nat} {a b : TapState} {s : State} (h : Inv s) :
    NeverFaults (scanCommand len a b s) :=
  (hostWrite_neverFaults _ _ s).andThen fun _ h1 =>
  (hostWrite_neverFaults _ _ _).andThen fun _ h2 =>
  (hostWrite_neverFaults _ _ _).andThen fun _ h3 =>
  (hostWrite_neverFaults _ _ _).andThen fun _ h4 =>
  (hostWrite_neverFaults _ _ _).andThen fun _ h5 =>
  have w := @Kept.hostWrite Inv kept_inv
  (poll_neverFaults (w (w (w (w (w h h1) h2) h3) h4) h5)).andThen fun _ _ =>
  hostWrite_neverFaults _ _ _

theorem scanVector_neverFaults {c : TapState} {n : Nat} {l : List Nibble} {s : State} (h : Inv s) :
    NeverFaults (scanVector c n l s) := by
  unfold scanVector
  split
  · exact neverFaults_refused _
  · exact (loadBytes_neverFaults _ _ s).andThen fun _ hu =>
      (scanCommand_neverFaults (kept_inv.loadBytes h hu)).andThen fun _ _ =>
      (readBytes_neverFaults _ _ _).andThen fun _ _ => neverFaults_next _

theorem runChunks_neverFaults {n : Nat} {s : State} (h : Inv s) : NeverFaults (runChunks n s) := by
  induction n generalizing s with
  | zero => exact neverFaults_next s
  | succ n ih => exact (scanCommand_neverFaults h).andThen fun _ hu => ih (kept_inv.scanCommand h hu)

theorem execRuntest_neverFaults {n : Nat} {s : State} (h : Inv s) : NeverFaults (execRuntest n s) := by
  refine (runChunks_neverFaults h).andThen fun u hu => ?_
  refine NeverFaults.andThen ?_ fun _ _ => neverFaults_next _
  split
  · exact neverFaults_next u
  · exact scanCommand_neverFaults (kept_inv.runChunks h hu)

/-- R102, R122: a command that a pending trigger starts; or one tick. -/
theorem command_neverFaults {d : State → State} {s : State}
    (h : triggered s = true → Inv (drive (withAck false (d s)))) (he : (d s).eng ≠ .idle)
    (hd : (d s).clockDivider = s.clockDivider) :
    NeverFaults (if triggered s then runCommand d s else idleTick s) := by
  split
  · next htr =>
    have hi := h htr
    refine runToDone_neverFaults hi (by simpa using he) ((ticksLeft_le_bound hi.toInvCore).trans_eq ?_)
    simp [commandTickBound, hd]
  · exact idleTick_neverFaults s

/-! ## The instructions and the step -/

theorem whenCurStateMapped_neverFaults {s : State} {o : Result State} (h : NeverFaults o) :
    NeverFaults (whenCurStateMapped s o) := by
  unfold whenCurStateMapped
  split
  · exact h
  · exact neverFaults_refused _

theorem exec_neverFaults {i : Instr} {s : State} (h : Inv s) : NeverFaults (exec i s) := by
  cases i with
  | cmdNone | cmdReserved4 | cmdReserved5 | cmdReserved6 | cmdReserved7 => exact idleTick_neverFaults s
  | cmdScan => exact command_neverFaults (kept_inv.scan s h) nofun rfl
  | cmdReset => exact command_neverFaults (kept_inv.reset s h) nofun rfl
  | cmdState => exact command_neverFaults (kept_inv.state s h) nofun rfl
  | rdBuf | rdScanState | rdEndState | rdChainLength | rdControl | rdStatus | rdCommand =>
    exact busRead_neverFaults _ s
  | wrBuf | wrScanState | wrEndState | wrChainLength | wrCommand => exact busWrite_neverFaults _ _ s
  | wrControl d => exact busWrite_neverFaults .control d s
  | wrStatus d => exact busWrite_neverFaults .status d s
  | rdCurState => exact whenCurStateMapped_neverFaults (busRead_neverFaults _ s)
  | wrCurState d => exact whenCurStateMapped_neverFaults (busWrite_neverFaults _ d s)
  | outOfRange => exact neverFaults_refused _
  | mw addr d =>
    simp only [exec, execMw]
    split
    · exact neverFaults_refused _
    · exact (hostWrite_neverFaults _ _ s).andThen fun _ _ => neverFaults_next _
  | mr addr =>
    simp only [exec, execMr]
    split
    · exact neverFaults_refused _
    · exact (hostRead_neverFaults _ s).andThen fun _ _ => neverFaults_next _
  | startsim | stopsim | exit => exact neverFaults_next _
  | scanIr | scanDr => exact scanVector_neverFaults h
  | runtest n => exact execRuntest_neverFaults h

theorem runDecoded_neverFaults {o : Except Reject Instr} {s : State} (h : Inv s) : NeverFaults (runDecoded o s) := by
  cases o with
  | ok i => exact exec_neverFaults h
  | error e => exact neverFaults_refused _

theorem stimulate_neverFaults {x : Stimulus} {s : State} (h : Inv s) : NeverFaults (stimulate x s) := by
  cases x with
  | request | line | call => unfold stimulate; exact runDecoded_neverFaults h
  | idle => exact idleTick_neverFaults s
  | reset r => exact neverFaults_next _
  | divider d =>
    simp only [stimulate, changeDivider]
    split
    · exact neverFaults_refused _
    · exact neverFaults_next _

/-- Settles O55: a command ends because the ticks it has to go fall with every tick from at most the bound, a poll because
they fall with every read; nothing else of the model faults. -/
theorem stepNeverFaults : Obligations.StepNeverFaults := by
  intro s f h
  suffices NeverFaults (step s) from this f
  unfold step
  split
  · exact stimulate_neverFaults (h.congr rfl)
  · split
    · exact runDecoded_neverFaults h
    · exact idleTick_neverFaults s

end Sys2Proof.Machine
end

section
/-! O24, O26: the pulses of SHIFT and of TAP_RESET (R112, R118). What one pulse of each step leaves is the pulse's law
(`pulsed_shift`, `pulsed_tapReset`); the rest reads the pins off at its first tick. -/

namespace Sys2Proof.Machine

/-- Settles O24: the pulse's law, and the store rules of the bit it writes. -/
theorem shiftStep : Obligations.ShiftStep := by
  intro s he hi _ hb hpin ht i v
  have hop := pulseOp_shift he hi
  obtain ⟨hv, hx⟩ := hpin _ hop
  replace hv : s.tms = shiftTms s := hv
  replace hx : s.tdi = readBit s i := hx _ rfl
  have hvt : shiftTms s = v := by
    have : s.bitIndex = s.chainLength - 1 ↔ i = s.chainLength.toNat - 1 := by bv_omega
    simp only [shiftTms, this]
    rfl
  obtain ⟨v', x', hu, -⟩ := pulsed_shift he hb ht hi hv hx
  have hr := Run.pulse hop hb ht
  rw [hu, hv, hx, hvt] at hr
  refine ⟨hr.edges, _, hr.ticks, readBit_writeBit_same s i _, fun j hj => readBit_writeBit_ne s _ hj, rfl, rfl, rfl⟩

/-- Settles O26: the pulse's law, and the bookkeeping step after the fifth. -/
theorem tapResetSteps : Obligations.TapResetSteps := by
  intro s he hb
  refine ⟨fun hc hpin ht => ?_, fun hc => ?_⟩
  · have hop := pulseOp_tapReset he hc
    have hv : s.tms = true := (hpin _ hop).1
    have hr := Run.pulse hop hb ht
    rw [pulsed_tapReset he hb ht hv hc, hv] at hr
    refine ⟨hr.edges, _, hr.ticks, ?_⟩
    apply State.ext <;> simp [hv]
  · rw [idleTick_step (u := leaveTapReset s) (pulseOp_tapReset_over he hc) (by rw [bookkeepingTick, he]),
      drive_done rfl]
    rfl

end Sys2Proof.Machine
end

section
/-! O32 to O37: the three commands. Each is the tick of its dispatch and the run of ticks from there to DONE (Laws/Command);
a SCAN that completes met R116 at its shift entry, and what it captures is what the device gives at its shift pulses. -/

namespace Sys2Proof.Machine

/-! ## From the dispatch to DONE -/

/-- R102: the edges of a command, its dispatch tick included. -/
theorem risingEdges_command {d : State → State} {n : Nat} {s u : State} {es : List Edge}
    (hd : idleTick s = .next (drive (withAck false (d s)))) (ht : (d s).tck = false)
    (hr : Run n (drive (withAck false (d s))) u es) : risingEdges (1 + n) s = es := by
  rw [risingEdges_add ((idleTicks_one s).trans hd), risingEdges_one_low hd (by simpa using ht), List.nil_append,
    hr.edges]

/-- R122, R203: so many pulses and bookkeeping steps fit the model's bound. -/
theorem pulses_le_bound (s : State) {n k : Nat} (hn : n ≤ 8208) (hk : k ≤ 5) :
    n * pulseTicks s + k ≤ commandTickBound s := by
  have := Nat.mul_le_mul_right (pulseTicks s) hn
  exact (Nat.add_comm _ _).trans_le (Nat.add_le_add hk this)

theorem runCommand_of_run {d : State → State} {n : Nat} {s u : State} {es : List Edge}
    (hr : Run n (drive (withAck false (d s))) u es) (hu : u.eng = .done) (hn : n ≤ commandTickBound s) :
    runCommand d s = .next u := runToDone_of_run hr hu hn

/-! ## RESET and STATE -/

/-- Settles O32: five pulses with TMS = 1 (`Run.reset`). -/
theorem resetCommandEffect : Obligations.ResetCommandEffect := by
  intro s htr hb ht
  obtain ⟨u, hr, hu⟩ := Run.reset hb ht
  refine ⟨fun hc => risingEdges_command ((idleTick_dispatch htr).2.1 hc) ht hr, u, ?_, ?_⟩
  · exact (if_pos htr).trans (runCommand_of_run hr (by rw [hu]) (pulses_le_bound s (by decide) (by decide)))
  · rw [hu]

/-- Settles O33: the navigation to END_STATE (`Run.state`). -/
theorem stateCommandEffect : Obligations.StateCommandEffect := by
  intro s htr hb ht
  have hr := Run.state hb ht
  refine ⟨fun hc => risingEdges_command ((idleTick_dispatch htr).2.2 hc) ht hr, ?_⟩
  have he := runCommand_of_run hr rfl (pulses_le_bound s ((distance_le _ _).trans (by decide)) (by decide))
  exact ⟨_, (if_pos htr).trans he, rfl⟩

/-! ## SCAN -/

/-- R106, R122: the run of a SCAN is its meaning. -/
theorem exec_cmdScan_of_run {s u : State} {es : List Edge} (htr : triggered s = true)
    (hL : s.chainLength.toNat ≤ Config.bufBits) (hu : u.eng = .done)
    (hr : Run (5 + (scanEdges s).length * pulseTicks s) (drive (withAck false (dispatchScan s))) u es) :
    exec .cmdScan s = .next u :=
  (if_pos htr).trans (runCommand_of_run hr hu (scanEdges_bound hL))

/-- Settles O34: the run of a SCAN (`Run.scan`). -/
theorem scanCommandEffect : Obligations.ScanCommandEffect := by
  intro s htr hb ht hs hL
  obtain ⟨u, m, b, hr, hu, -, hkeep⟩ := Run.scan hb ht hs hL
  exact ⟨u, exec_cmdScan_of_run htr hL (by rw [hu]) hr, hkeep, by rw [hu]⟩

/-- Settles O35: the edges of that run. -/
theorem scanCommandPulses : Obligations.ScanCommandPulses := by
  intro s htr hc hb ht hs hL
  obtain ⟨u, m, b, hr, -⟩ := Run.scan hb ht hs hL
  exact risingEdges_command ((idleTick_dispatch htr).1 hc) ht hr

/-- A run that has not ended in this state goes on by a tick that completes. -/
theorem idleTick_of_runToDone {n : Nat} {s t : State} (he : s.eng ≠ .done) (h : runToDone n s = .next t) :
    ∃ u, idleTick s = .next u := by
  cases n with
  | zero => rw [runToDone, if_neg he] at h; cases h
  | succ n =>
    rw [runToDone, if_neg he] at h
    obtain ⟨u, hu, -⟩ := andThen_eq_next.mp h
    exact ⟨u, hu⟩

/-- R116: a SCAN that completes met the conditions of shift entry. -/
theorem scan_legal_of_completes {s t : State} (htr : triggered s = true) (hb : betweenPulses s = true)
    (ht : s.tck = false) (h : exec .cmdScan s = .next t) :
    isStable s.scanState = true ∧ s.chainLength.toNat ≤ Config.bufBits := by
  obtain ⟨a, hr⟩ := Run.scanArrive hb ht
  have hn : 2 + distance s.curState s.scanState * pulseTicks s ≤ commandTickBound s :=
    (Nat.add_comm _ _).trans_le (pulses_le_bound s ((distance_le _ _).trans (by decide)) (by decide))
  rw [exec, execCmdScan, if_pos htr, runCommand, runToDone_run hr hn] at h
  obtain ⟨v, hv⟩ := idleTick_of_runToDone (show Phase.gotoStart ≠ .done by decide) h
  obtain ⟨w, hw, -⟩ := idleTick_next_iff.mp hv
  have hleg := engineTick_next_iff.mp ⟨w, hw⟩
  rw [tickLegal, if_pos ⟨rfl, rfl⟩, Bool.and_eq_true, decide_eq_true_eq] at hleg
  exact hleg

/-- R123: every bit of the vector is the device's sample at its pulse, every bit beyond it is kept. -/
theorem scan_captures {s t : State} (htr : triggered s = true) (hb : betweenPulses s = true) (ht : s.tck = false)
    (h : exec .cmdScan s = .next t) :
    (∀ j, j < s.chainLength.toNat → (scanSamples s).1[j]? = some (readBit t j)) ∧
    (∀ j, s.chainLength.toNat ≤ j → readBit t j = readBit s j) := by
  obtain ⟨hs, hL⟩ := scan_legal_of_completes htr hb ht h
  obtain ⟨u, m, b, hr, hu, hget, hkeep⟩ := Run.scan hb ht hs hL
  cases (exec_cmdScan_of_run htr hL (by rw [hu]) hr).symm.trans h
  exact ⟨hget, hkeep⟩

theorem scanShiftEdges_length (s : State) : (scanShiftEdges s).length = s.chainLength.toNat := by
  simp [scanShiftEdges]

/-- R33: the samples of a SCAN from scripted ones, and from the identity-loopback device. -/
theorem scanSamples_samples {s : State} {l : List Bool} (hd : s.dut = .samples l) {i : Nat}
    (hi : i < s.chainLength.toNat) :
    (scanSamples s).1[i]? = some ((l[i]?).getD (Config.tdoLevel (s.draws + (i - l.length)))) := by
  rw [scanSamples, hd, devNavigate_samples, devCapture_samples (by rwa [scanShiftEdges_length])]

theorem scanSamples_loopback {s : State} (hd : s.dut = .loopback) {i : Nat} (hi : i < s.chainLength.toNat) :
    (scanSamples s).1[i]? = some (readBit s i) := by
  rw [scanSamples, hd, devNavigate_loopback, devCapture_loopback]
  simp [scanShiftEdges, hi]

/-- Settles O36: what it captures, for these two devices. -/
theorem scanCommandCaptures : Obligations.ScanCommandCaptures := by
  intro s t htr hb ht h
  obtain ⟨hget, hkeep⟩ := scan_captures htr hb ht h
  refine ⟨fun l hd i hi => ?_, fun hd i => ?_⟩
  · exact Option.some.inj ((hget i hi).symm.trans (scanSamples_samples hd hi))
  · rcases Nat.lt_or_ge i s.chainLength.toNat with hi | hi
    · exact Option.some.inj ((hget i hi).symm.trans (scanSamples_loopback hd hi))
    · exact hkeep i hi

/-- 95_test_vectors.md: on the way from RUN_TEST_IDLE to a shift state no edge finds the device's TAP in a shift state, so
a RegDUT's register is untouched. -/
theorem devNavigate_to_shift {c : TapState} (hc : c = .shiftDr ∨ c = .shiftIr) (x : Bool) (bits : List Bool) :
    devNavigate ((path .runTestIdle c).map fun v => { tms := v, tdi := x }) .runTestIdle (.register bits) =
      .register bits := by
  rcases hc with rfl | rfl <;> rfl

/-- V9: the samples of a SCAN against a RegDUT are its register and then the vector. -/
theorem scanSamples_register {s : State} {bits : List Bool} (hd : s.dut = .register bits)
    (hc : s.curState = .runTestIdle) (htap : s.dutTap = .runTestIdle)
    (hs : s.scanState = .shiftDr ∨ s.scanState = .shiftIr) {i : Nat} (hi : i < s.chainLength.toNat) :
    (scanSamples s).1[i]? = some ((bits[i]?).getD (readBit s (i - bits.length))) := by
  have hstay : ∀ (j : Nat) (h : j < (scanShiftEdges s).length), j + 1 < (scanShiftEdges s).length →
      (scanShiftEdges s)[j].tms = false := by
    intro j _ hj
    rw [scanShiftEdges_length] at hj
    have hroute : route s.scanState s.scanState = false := by rcases hs with h | h <;> rw [h] <;> rfl
    simp [scanShiftEdges, shiftTmsAt, hroute, Nat.ne_of_lt hj]
  rw [scanSamples, hd, scanStartEdges, htap, hc, devNavigate_to_shift hs, tapRun_path,
    devCapture_register hs hstay (by rwa [scanShiftEdges_length]), ← List.getElem?_eq_getElem]
  rcases Nat.lt_or_ge i bits.length with h | h
  · simp [List.getElem?_append_left h, h]
  · rw [List.getElem?_append_right h, List.getElem?_eq_none h, scanShiftEdges, List.getElem?_map,
      List.getElem?_map, List.getElem?_range (Nat.lt_of_le_of_lt (Nat.sub_le _ _) hi)]
    rfl

/-- Settles O37: what it captures, for a RegDUT. -/
theorem latencyEcho : Obligations.LatencyEcho := by
  intro s t bits htr hb ht hd hc htap hs h i hi
  have hget := (scan_captures htr hb ht h).1 i hi
  exact Option.some.inj (hget.symm.trans (scanSamples_register hd hc htap hs hi))

end Sys2Proof.Machine
end

section
/-! O48: runtest. Each of its commands is one SCAN from RUN_TEST_IDLE to itself (`scanCommand_run`), from IDLE to IDLE; what
it leaves is the frame of one SCAN, and frames, samples taken and bytes kept compose along the chunks (R157). -/

namespace Sys2Proof.Machine

/-- Where the driver's commands begin and end: in IDLE with GO down, no trigger pending and no pulse in progress. -/
structure AtRest (s : State) : Prop where
  idle : s.eng = .idle
  notPending : s.pending = false
  goLow : s.go = false
  between : betweenPulses s = true
  tckLow : s.tck = false

/-- R157: what the SCANs of a runtest leave, the last of `len` bits: every register they set, and the frame. -/
def RuntestFrame (len : Nat) (s t : State) : Prop :=
  t = { s with
    buf := t.buf, scanState := .runTestIdle, endState := .runTestIdle, chainLength := BitVec.ofNat 16 len
    bitIndex := BitVec.ofNat 16 len, command := 1#3, curState := .runTestIdle, target := .runTestIdle
    scanTms := false, endTms := false, tms := t.tms, tdi := t.tdi, tdoSample := t.tdoSample, busAck := false
    busRdata := t.busRdata, dut := t.dut, dutTap := t.dutTap, draws := t.draws }

/-- R157: `n` bits have been shifted, in vectors of at most 1024 bits. -/
structure ShiftedBits (n : Nat) (s t : State) : Prop where
  samples : ∀ l, s.dut = .samples l → t.dut = .samples (l.drop n) ∧ t.draws = s.draws + (n - l.length)
  bytes : ∀ k, 128 ≤ k → readByte t k = readByte s k

theorem RuntestFrame.trans {a b : Nat} {s t u : State} (h : RuntestFrame a s t) (g : RuntestFrame b t u) :
    RuntestFrame b s u := by
  rw [RuntestFrame, g, h]

theorem RuntestFrame.atRest {len : Nat} {s t : State} (h : RuntestFrame len s t) (hs : AtRest s) : AtRest t := by
  rw [h]
  exact ⟨hs.idle, hs.notPending, hs.goLow, hs.between, hs.tckLow⟩

theorem ShiftedBits.trans {m n : Nat} {s t u : State} (h : ShiftedBits m s t) (g : ShiftedBits n t u) :
    ShiftedBits (m + n) s u where
  samples l hl := by
    obtain ⟨ht, hdt⟩ := h.samples l hl
    obtain ⟨hu, hdu⟩ := g.samples _ ht
    rw [List.drop_drop] at hu
    refine ⟨hu, ?_⟩
    rw [hdu, hdt, List.length_drop]
    omega
  bytes k hk := (g.bytes k hk).trans (h.bytes k hk)

/-- R33: a SCAN takes as many samples as it has bits. -/
theorem scan_takes_samples {s : State} {l : List Bool} (hd : s.dut = .samples l) :
    (scanSamples s).2 = (.samples (l.drop s.chainLength.toNat), s.draws + (s.chainLength.toNat - l.length)) := by
  rw [scanSamples, hd, devNavigate_samples, devCapture_samples_rest, scanShiftEdges_length]

/-- R91: bytes beyond those of the vector hold no bit of it. -/
theorem readByte_of_bits_kept {s t : State} {n k : Nat} (h : ∀ j, n ≤ j → readBit t j = readBit s j)
    (hk : nbytes n ≤ k) : readByte t k = readByte s k := by
  rw [nbytes_eq] at hk
  exact readByte_ext fun j _ => h _ (by omega)

/-- R157: one command of a runtest. -/
theorem scanCommand_runtest {s : State} {len : Nat} (hs : AtRest s) (hlen : len ≤ 1024) :
    ∃ t, scanCommand len .runTestIdle .runTestIdle s = .next t ∧ RuntestFrame len s t ∧ ShiftedBits len s t := by
  have hL : len ≤ Config.bufBits := hlen.trans (by decide)
  have hLn : (BitVec.ofNat 16 len).toNat = len := by rw [BitVec.toNat_ofNat]; omega
  obtain ⟨u, d, he, hc⟩ := scanCommand_run (scan := .runTestIdle) (finish := .runTestIdle) hs.idle hs.notPending hs.goLow
    hs.between hs.tckLow rfl hL
  have hL' : (scanRequest len .runTestIdle .runTestIdle s).chainLength.toNat ≤ Config.bufBits := by
    rw [scanRequest, hLn]; exact hL
  obtain ⟨u', m, b, hr, hu, -, hkeep⟩ := Run.scan (s := scanRequest len .runTestIdle .runTestIdle s) hs.between
    hs.tckLow rfl hL'
  cases he.symm.trans (exec_cmdScan_of_run (by simp [triggered, scanRequest, hs.idle]) hL' (by rw [hu]) hr)
  refine ⟨_, hc, ?_, fun l hl => ?_, fun k hk => ?_⟩
  · rw [RuntestFrame, hu]
    apply State.ext <;> simp [scanRequest, hs.idle, hs.notPending, hs.goLow] <;> rfl
  · have hrest := scan_takes_samples (s := scanRequest len .runTestIdle .runTestIdle s) hl
    rw [hu, hrest, devNavigate_samples, scanRequest, hLn]
    exact ⟨rfl, rfl⟩
  · refine readByte_of_bits_kept (s := scanRequest len .runTestIdle .runTestIdle s) (t := u) hkeep (le_trans ?_ hk)
    rw [scanRequest, hLn, nbytes_eq]
    omega

/-- R157: the full chunks. -/
theorem runChunks_runtest {n : Nat} {s : State} (hs : AtRest s) :
    ∃ t, runChunks (n + 1) s = .next t ∧ RuntestFrame 1024 s t ∧ ShiftedBits ((n + 1) * 1024) s t := by
  obtain ⟨t, ht, hf, hb⟩ := scanCommand_runtest hs (len := Config.runtestChunk) (by decide)
  induction n generalizing s t with
  | zero => exact ⟨t, by rw [runChunks, ht]; rfl, hf, (Nat.one_mul 1024).symm ▸ hb⟩
  | succ n ih =>
    obtain ⟨u, hu, hfu, hbu⟩ := scanCommand_runtest (hf.atRest hs) (len := Config.runtestChunk) (by decide)
    obtain ⟨v, hv, hfv, hbv⟩ := ih (hf.atRest hs) u hu hfu hbu
    refine ⟨v, by rw [runChunks, ht, andThen_next, hv], hf.trans hfv, ?_⟩
    rw [Nat.succ_mul, Nat.add_comm]
    exact hb.trans hbv

/-- R157: the chunks and the remainder of a runtest of at least one tick. -/
theorem execRuntest_pos {s : State} {ticks : Nat} (hs : AtRest s) (h0 : 0 < ticks) :
    ∃ t, execRuntest ticks s = .next { t with reply := .returned } ∧ ShiftedBits ticks s t ∧
      RuntestFrame (if ticks % 1024 = 0 then 1024 else ticks % 1024) s t := by
  have hdiv := Nat.div_add_mod' ticks 1024
  have hmod : ticks % 1024 ≤ 1024 := (Nat.mod_lt ticks (by decide)).le
  unfold execRuntest Config.runtestChunk
  generalize ticks / 1024 = q, ticks % 1024 = r at *
  cases q with
  | zero =>
    have hr : r ≠ 0 := by omega
    obtain ⟨t, ht, hf, hb⟩ := scanCommand_runtest hs hmod
    rw [if_neg hr, runChunks, andThen_next, if_neg hr, ht]
    exact ⟨t, rfl, by rwa [← hdiv, Nat.zero_mul, Nat.zero_add], hf⟩
  | succ q =>
    obtain ⟨t, ht, hf, hb⟩ := runChunks_runtest (n := q) hs
    rw [ht, andThen_next]
    by_cases hr : r = 0
    · rw [if_pos hr, if_pos hr]
      exact ⟨t, rfl, by rwa [← hdiv, hr, Nat.add_zero], hf⟩
    · obtain ⟨u, hu, hfu, hbu⟩ := scanCommand_runtest (hf.atRest hs) hmod
      rw [if_neg hr, if_neg hr, hu]
      exact ⟨u, rfl, hdiv ▸ hb.trans hbu, hf.trans hfu⟩

/-- Settles O48: the commands composed; with no tick asked for there is none. -/
theorem runtestEffect : Obligations.RuntestEffect := by
  intro s ticks he hp hg hb ht
  have hs : AtRest s := ⟨he, hp, hg, hb, ht⟩
  rcases Nat.eq_zero_or_pos ticks with rfl | h0
  · exact ⟨{ s with reply := .returned }, rfl, fun l hl => ⟨by simpa using hl, by simp⟩, fun _ _ => rfl, fun _ => rfl,
      nofun⟩
  · obtain ⟨t, ht, hbits, hf⟩ := execRuntest_pos hs h0
    refine ⟨_, ht, hbits.samples, hbits.bytes, fun h => absurd h (Nat.ne_of_gt h0), fun _ => ?_⟩
    exact congrArg (fun x : State => { x with reply := .returned }) hf

end Sys2Proof.Machine
end

section
/-! O7, O8, O10, O11, O12, O14, O30: the accesses of the register bridge. A read, and a write of the control register, touch
nothing the pins of the tick depend on, so each is the tick without a request and then the access (R146). A write of the
buffer or of a parameter register completes only with no command in flight (R196), where the engine's part of the tick is
at most the step out of DONE (R121). -/

namespace Sys2Proof.Machine

/-! ## An access beside the engine's step -/

/-- The fields a read and a write of the control register touch: the bus outputs, the count of the free values drawn, GO
and `pending`. -/
def withAccess (a g p : Bool) (x : Data) (n : Nat) (s : State) : State :=
  { s with busAck := a, go := g, pending := p, busRdata := x, draws := n }

theorem pulseOp_withAccess (a g p : Bool) (x : Data) (n : Nat) (s : State) :
    pulseOp (withAccess a g p x n s) = pulseOp s := rfl

/-- They have no part in the pins. -/
theorem drive_withAccess (a g p : Bool) (x : Data) (n : Nat) (s : State) :
    drive (withAccess a g p x n s) = withAccess a g p x n (drive s) := by
  unfold drive
  rw [pulseOp_withAccess]
  cases pulseOp s with
  | none => rfl
  | some o =>
    exact (apply_ite (withAccess a g p x n) (s.tckHalf = .low ∧ s.halfCount = 0)
      (withPins o.tms (o.tdi.getD s.tdi) s) s).symm

/-- R146: an access that the pins do not depend on is the tick without a request, and then the access. -/
theorem requestTick_of_idleTick {f : State → State} {s u : State} (ha : s.busAck = false) (hu : idleTick s = .next u)
    (hf : ∀ v, drive (f v) = f (withAck false (drive v))) : requestTick f s = .next (f u) := by
  rw [requestTick, if_neg (by simp [ha])]
  exact tickWith_eq_idleTick hu fun v => (hf v).trans (congrArg f (drive_withAck false v).symm)

/-! ## Reads -/

/-- R132, R146: what a read of any register gives, whatever the engine is doing. -/
theorem busRead_of_idleTick {s u : State} (r : Reg) (ha : s.busAck = false) (hu : idleTick s = .next u) :
    busRead r s = .next { u with
      busAck := true, busRdata := regRead r s, draws := u.draws + regReadDraws r s } := by
  refine requestTick_of_idleTick ha hu fun v => ?_
  refine (drive_withAccess true v.go v.pending (regRead r s) (v.draws + regReadDraws r s) v).trans ?_
  simp [withAccess, withAck]

theorem bitWord_isBusy (s : State) : bitWord (isBusy s) = if s.eng ≠ .idle ∧ s.eng ≠ .done then 1 else 0 := by
  simp [bitWord, isBusy]

theorem whenCurStateMapped_of_ne_none {s : State} (h : s.params.addrCurState ≠ none) (o : Result State) :
    whenCurStateMapped s o = o :=
  if_pos (Option.isSome_iff_ne_none.mpr h)

/-- Settles O7: the free value of R57 is the one draw a read of the bridge makes. -/
theorem bufferReadEffect : Obligations.BufferReadEffect := by
  intro s k ha hl
  obtain ⟨u, hu⟩ := idleTick_next hl
  have hr : exec (.rdBuf k) s = _ := busRead_of_idleTick (.buf k) ha hu
  refine ⟨u, hu, fun hk => ?stored, fun hk => ?free⟩
  case stored => simpa [regRead, regReadDraws, hk] using hr
  case free => simpa [regRead, regReadDraws, hk] using hr

/-- Settles O8: no read of these draws a free value. -/
theorem registerReadEffect : Obligations.RegisterReadEffect := by
  intro s ha hl
  obtain ⟨u, hu⟩ := idleTick_next hl
  have hr := fun r => busRead_of_idleTick r ha hu
  refine ⟨u, hu, hr .scanState, hr .endState, hr .chainLength, hr .control, ?status, hr .command, fun hm => ?curState⟩
  case status => exact bitWord_isBusy s ▸ hr .status
  case curState => exact (whenCurStateMapped_of_ne_none hm _).trans (hr .curState)

/-! ## Writes with no command in flight -/

/-- R131, R121: the write falls into the engine's step out of DONE, if that is due, and starts no pulse. -/
theorem busWrite_quiet {s : State} (r : Reg) (d : Data) (ha : s.busAck = false) (hc : commandInFlight s = false) :
    busWrite r d s = .next (withAck true (regWrite r d s
      { s with eng := if s.eng = .done ∧ s.go = false then .idle else s.eng })) := by
  obtain ⟨hb, hd⟩ := commandInFlight_false hc
  rw [busWrite, if_neg (by simp [hc]), requestTick, if_neg (by simp [ha]), tickWith, engineTick_quiet hb hd,
    andThen_next, drive_quiet ((isBusy_congr (AccessOnly.regWrite r d s _).eng).trans (isBusy_quiet_eng hb))]

/-- Settles O10: the byte written is the store of R94, with its frame. -/
theorem bufferWriteEffect : Obligations.BufferWriteEffect := by
  intro s k d ha hc
  refine ⟨_, busWrite_quiet (.buf k) d ha hc, ?written, fun j hj => ?others, rfl⟩
  case written => exact (congrArg BitVec.toNat (readByte_writeByte_same _ k.toNat _)).trans (BitVec.toNat_ofNat d 8)
  case others => exact readByte_writeByte_ne _ _ hj

/-- Settles O11: each register is one case of `regWrite`. -/
theorem parameterWriteEffect : Obligations.ParameterWriteEffect := fun _ d ha hc =>
  ⟨busWrite_quiet .scanState d ha hc, busWrite_quiet .endState d ha hc, busWrite_quiet .chainLength d ha hc,
    busWrite_quiet .command d ha hc⟩

/-! ## Read after write -/

/-- What a read returns depends neither on the pins nor on the acknowledge. -/
theorem regRead_drive_withAck (r : Reg) (a : Bool) (s : State) :
    regRead r (drive (withAck a s)) = regRead r s := by
  rw [drive_withAck, drive_eq]
  cases r <;> rfl

/-- R131: what a write that completes leaves to be read is what it stored. -/
theorem regRead_of_busWrite {r : Reg} {d : Data} {s t : State} (h : busWrite r d s = .next t) :
    ∃ u, regRead r t = regRead r (regWrite r d s u) := by
  unfold busWrite at h
  split at h
  · cases h
  · obtain ⟨-, u, -, rfl⟩ := requestTick_next h
    exact ⟨u, regRead_drive_withAck r true _⟩

/-- Settles O12: each field read back is the number the stored bits denote. -/
theorem parameterReadBack : Obligations.ParameterReadBack := by
  intro s t d
  have back : ∀ r, busWrite r d s = .next t → ∃ u, regRead r t = regRead r (regWrite r d s u) :=
    fun _ => regRead_of_busWrite
  refine ⟨fun h => ?scanState, fun h => ?endState, fun h => ?chainLength, fun h => ?command, fun h => ?control⟩
  case scanState => obtain ⟨u, hu⟩ := back .scanState h; simpa [regRead, regWrite] using hu
  case endState => obtain ⟨u, hu⟩ := back .endState h; simpa [regRead, regWrite] using hu
  case chainLength => obtain ⟨u, hu⟩ := back .chainLength h; simpa [regRead, regWrite] using hu
  case command => obtain ⟨u, hu⟩ := back .command h; simpa [regRead, regWrite] using hu
  case control =>
    obtain ⟨u, hu⟩ := back .control h
    rw [hu]
    rcases Nat.mod_two_eq_zero_or_one d with h2 | h2 <;> simp [regRead, regWrite, bitWord, h2]

/-! ## The control register -/

/-- R101, R146: the trigger edge, spelled out. -/
theorem pendingAfterWrite_eq (d : Data) (s u : State) :
    pendingAfterWrite d s u =
      if d.testBit 0 = true ∧ s.go = false ∧ s.eng = .idle ∧ dispatching s = false then true else u.pending := by
  simp only [pendingAfterWrite, triggerEdge, Bool.and_eq_true, Bool.not_eq_true', decide_eq_true_eq, and_assoc]

/-- R139, R146: what a write of the control register does, whatever the engine is doing. -/
theorem busWrite_control_of_idleTick {s u : State} (d : Data) (ha : s.busAck = false) (hu : idleTick s = .next u) :
    busWrite .control d s = .next { u with
      busAck := true, go := d.testBit 0, pending := pendingAfterWrite d s u } := by
  refine requestTick_of_idleTick (f := fun u => withAck true (regWrite .control d s u)) ha hu fun v => ?_
  refine (drive_withAccess true (d.testBit 0) (pendingAfterWrite d s v) v.busRdata v.draws v).trans ?_
  simp [withAccess, withAck, regWrite, pendingAfterWrite]

/-- Settles O14: GO and `pending` have no part in the pins, so the write comes after the engine's whole tick. -/
theorem controlWriteEffect : Obligations.ControlWriteEffect := by
  intro s d ha hl
  obtain ⟨u, hu⟩ := idleTick_next hl
  exact ⟨u, hu, pendingAfterWrite_eq d s u ▸ busWrite_control_of_idleTick d ha hu⟩

/-! ## A trigger left pending -/

/-- R102: the tick of IDLE with a trigger pending, by the code in COMMAND. -/
theorem idleTick_triggered {s : State} (h : triggered s = true) :
    ∃ t, idleTick s = .next t ∧
      (s.command = 1#3 → t.eng = .preShift ∧ t.pending = false) ∧
      (s.command = 2#3 → t.eng = .tapReset ∧ t.pending = false) ∧
      (s.command = 3#3 → t.eng = .gotoState ∧ t.pending = false) ∧
      (selectsCommand s.command = false → t.eng = .idle ∧ t.pending = true) := by
  obtain ⟨he, hp⟩ := triggered_iff.mp h
  refine ⟨_, dispatch_tick (pulseOp_idle he) he, fun hc => ?scan, fun hc => ?reset, fun hc => ?state, fun hc => ?none⟩
  case scan => simp [stepIdle, hp, hc]
  case reset => simp [stepIdle, hp, hc]
  case state => simp [stepIdle, hp, hc]
  case none =>
    simp only [selectsCommand, Bool.or_eq_false_iff, decide_eq_false_iff_not] at hc
    obtain ⟨⟨h1, h2⟩, h3⟩ := hc
    simp [stepIdle, hp, h1, h2, h3, he]

/-- Settles O30: the write of COMMAND leaves the trigger as it is, for the next tick to take. -/
theorem pendingStartsLaterCommand : Obligations.PendingStartsLaterCommand := by
  intro s d he hp hs ha
  have hc : commandInFlight s = false := by simp [commandInFlight, isBusy, he, hs]
  have hw := busWrite_quiet .command d ha hc
  rw [if_neg (by simp [he])] at hw
  have htr : triggered (withAck true (regWrite .command d s s)) = true := triggered_iff.mpr ⟨he, hp⟩
  obtain ⟨t, ht, hclauses⟩ := idleTick_triggered htr
  exact ⟨_, t, hw, ht, hclauses⟩

end Sys2Proof.Machine
end

section
/-! O42, O43: the session lines MW and MR. Each is one whole access of a blocking host (R161): the wait for the bus, the
request tick of the row its address selects, and the acknowledge tick; with no command in flight (R196) none of the three
stops. -/

namespace Sys2Proof.Machine

/-! ## Results -/

/-- What follows a result matters only for what that result can be. -/
theorem andThen_congr {α β : Type} {o : Result α} {f g : α → Result β} (h : ∀ a, o = .next a → f a = g a) :
    andThen o f = andThen o g := by
  cases o with
  | next a => exact h a rfl
  | fault r => rfl
  | refused r => rfl

/-! ## The row an address selects -/

/-- R142: an offset selects `cur_state` only where ADDR_CUR_STATE is set. -/
theorem addrCurState_of_decodeOffset {p : Params} {off : Addr} (h : decodeOffset p off = some .curState) :
    p.addrCurState ≠ none := by
  unfold decodeOffset at h
  split_ifs at h with _ _ _ _ _ _ _ hcur <;> cases h
  obtain ⟨a, ha, -⟩ := Option.map_eq_some_iff.mp hcur
  exact Option.ne_none_iff_exists'.mpr ⟨a, ha⟩

/-- R67, R131: the row of a write request is the bus write of the register it selects. -/
theorem exec_decodeBus_write {s : State} {addr : Addr} {d : Data} {r : Reg}
    (h : decodeOffset s.params (addr - s.params.engineBase) = some r) :
    exec (decodeBus s.params { we := true, addr := addr, wdata := d }) s = busWrite r (s.params.busWord d) s := by
  rw [decodeBus_some (r := { we := true, addr := addr, wdata := d }) h, if_pos rfl]
  cases r with
  | curState => exact whenCurStateMapped_of_ne_none (addrCurState_of_decodeOffset h) _
  | _ => rfl

/-- R67, R132: the row of a read request is the bus read of the register it selects. -/
theorem exec_decodeBus_read {s : State} {addr : Addr} {d : Data} {r : Reg}
    (h : decodeOffset s.params (addr - s.params.engineBase) = some r) :
    exec (decodeBus s.params { we := false, addr := addr, wdata := d }) s = busRead r s := by
  rw [decodeBus_some (r := { we := false, addr := addr, wdata := d }) h, if_neg Bool.false_ne_true]
  cases r with
  | curState => exact whenCurStateMapped_of_ne_none (addrCurState_of_decodeOffset h) _
  | _ => rfl

theorem exec_mw_eq {s : State} {addr : Addr} {r : Reg} (d : Data)
    (h : decodeOffset s.params (addr - s.params.engineBase) = some r) :
    exec (.mw addr d) s =
      andThen (hostWrite r (s.params.busWord d) s) fun t => .next { t with reply := .ok } := by
  simp only [exec, execMw, h]

theorem exec_mr_eq {s : State} {addr : Addr} {r : Reg}
    (h : decodeOffset s.params (addr - s.params.engineBase) = some r) :
    exec (.mr addr) s = andThen (hostRead r s) fun vt => .next { vt.2 with reply := .value vt.1 } := by
  simp only [exec, execMr, h]

/-! ## The wait for the bus -/

theorem awaitAck_free {s : State} (ha : s.busAck = false) : awaitAck s = .next s := by simp [awaitAck, ha]

theorem awaitAck_held {s : State} (ha : s.busAck = true) : awaitAck s = idleTick s := if_pos ha

/-- R130: an access that finds the one before still being acknowledged is one tick, and then the access. -/
theorem hostWrite_held {s : State} (r : Reg) (d : Data) (ha : s.busAck = true) :
    hostWrite r d s = andThen (idleTick s) (hostWrite r d) := by
  rw [hostWrite, awaitAck_held ha]
  exact andThen_congr fun u hu => by rw [hostWrite, awaitAck_free (idleTick_busAck hu), andThen_next]

theorem hostRead_held {s : State} (r : Reg) (ha : s.busAck = true) :
    hostRead r s = andThen (idleTick s) (hostRead r) := by
  rw [hostRead, awaitAck_held ha]
  exact andThen_congr fun u hu => by rw [hostRead, awaitAck_free (idleTick_busAck hu), andThen_next]

/-- R6: no tick moves the map, so an address selects the same register after it. -/
theorem idleTick_params {s t : State} (ht : idleTick s = .next t) : t.params = s.params :=
  congrArg Prod.fst (idleTick_outside ht)

/-- R161: MW with an acknowledge on the bus. -/
theorem exec_mw_held {s : State} {addr : Addr} {r : Reg} (d : Data)
    (h : decodeOffset s.params (addr - s.params.engineBase) = some r) (ha : s.busAck = true) :
    exec (.mw addr d) s = andThen (idleTick s) (exec (.mw addr d)) := by
  rw [exec_mw_eq d h, hostWrite_held r _ ha, andThen_assoc]
  refine andThen_congr fun u hu => ?_
  have hp := idleTick_params hu
  rw [exec_mw_eq d (hp ▸ h), hp]

/-- R161: MR with an acknowledge on the bus. -/
theorem exec_mr_held {s : State} {addr : Addr} {r : Reg}
    (h : decodeOffset s.params (addr - s.params.engineBase) = some r) (ha : s.busAck = true) :
    exec (.mr addr) s = andThen (idleTick s) (exec (.mr addr)) := by
  rw [exec_mr_eq h, hostRead_held r ha, andThen_assoc]
  refine andThen_congr fun u hu => ?_
  have hp := idleTick_params hu
  rw [exec_mr_eq (hp ▸ h)]

/-! ## With no command in flight -/

theorem tickLegal_quiet {s : State} (hb : isBusy s = false) : tickLegal s = true := by
  have hne : s.eng ≠ .gotoStart := fun he => by simp [isBusy, he] at hb
  simp [tickLegal, hne]

/-- R196: the wait ends with the bus free and still no command in flight. -/
theorem awaitAck_quiet {s : State} (hc : commandInFlight s = false) :
    ∃ u, awaitAck s = .next u ∧ u.params = s.params ∧ u.busAck = false ∧ commandInFlight u = false := by
  cases ha : s.busAck with
  | false => exact ⟨s, awaitAck_free ha, rfl, ha, hc⟩
  | true =>
    obtain ⟨hb, hd⟩ := commandInFlight_false hc
    obtain ⟨-, hp⟩ := Bool.or_eq_false_iff.mp hc
    exact ⟨_, (awaitAck_held ha).trans (idleTick_quiet hb hd), rfl, rfl,
      Bool.or_eq_false_iff.mpr ⟨isBusy_quiet_eng hb, hp⟩⟩

/-- R131, R133: a whole write of any register completes and leaves the bus free. -/
theorem hostWrite_quiet {s : State} (r : Reg) (d : Data) (hc : commandInFlight s = false) :
    ∃ t, hostWrite r d s = .next t ∧ t.busAck = false := by
  obtain ⟨u, hu, -, hua, huc⟩ := awaitAck_quiet hc
  have hw := busWrite_quiet r d hua huc
  obtain ⟨hb, -⟩ := commandInFlight_false huc
  obtain ⟨t, ht⟩ := idleTick_next
    (tickLegal_quiet ((isBusy_congr (AccessOnly.regWrite r d u _).eng).trans (isBusy_quiet_eng hb)))
  refine ⟨t, ?_, idleTick_busAck ht⟩
  rw [hostWrite, hu, andThen_next, hw, andThen_next, ht]

/-- R132: the request tick of a read puts the register's value on the bus, and no command begins in it. -/
theorem busRead_quiet {s : State} (r : Reg) (ha : s.busAck = false) (hc : commandInFlight s = false) :
    ∃ u, busRead r s = .next u ∧ u.busRdata = regRead r s ∧ isBusy u = false := by
  obtain ⟨hb, hd⟩ := commandInFlight_false hc
  exact ⟨_, busRead_of_idleTick r ha (idleTick_quiet hb hd), rfl, isBusy_quiet_eng hb⟩

/-- R132, R133: a whole read with the bus free answers the value of its request tick and leaves the bus free. -/
theorem hostRead_quiet {s : State} (r : Reg) (ha : s.busAck = false) (hc : commandInFlight s = false) :
    ∃ t, hostRead r s = .next (regRead r s, t) ∧ t.busAck = false := by
  obtain ⟨u, hu, hud, hub⟩ := busRead_quiet r ha hc
  obtain ⟨t, ht⟩ := idleTick_next (tickLegal_quiet hub)
  refine ⟨t, ?_, idleTick_busAck ht⟩
  rw [hostRead, awaitAck_free ha, andThen_next, hu, andThen_next, ht, andThen_next, hud]

/-! ## The text of an MR reply -/

theorem mrDigits_ne_nil (v : Data) : mrDigits v ≠ [] := by
  rw [mrDigits, hexLength, Nat.add_right_comm, hexDigitsOf]
  exact List.append_ne_nil_of_right_ne_nil _ (List.cons_ne_nil _ _)

/-! ## The obligations -/

/-- Settles O42: the wait, the write's row and the acknowledge tick, by the parts of `hostWrite`. -/
theorem mwIsOneBusWrite : Obligations.MwIsOneBusWrite := by
  intro s addr d r h
  refine ⟨exec_mw_held d h, fun ha => ?free, fun hc => ?quiet⟩
  case free =>
    rw [exec_mw_eq d h, hostWrite, awaitAck_free ha, andThen_next, andThen_assoc, exec_decodeBus_write h]
  case quiet =>
    obtain ⟨t, ht, hta⟩ := hostWrite_quiet r (s.params.busWord d) hc
    exact ⟨{ t with reply := .ok }, by rw [exec_mw_eq d h, ht, andThen_next], rfl, hta⟩

/-- Settles O43: the same of `hostRead`, and the digits of the value read back. -/
theorem mrIsOneBusRead : Obligations.MrIsOneBusRead := by
  refine ⟨fun v => ⟨mrDigits v, mrDigits_ne_nil v, hexValue_hexLength v _, ?text⟩, fun s addr r h => ?read⟩
  case text =>
    simp only [replyText, mrValueText]
    cases Config.mrUpperCase v
    · exact .inr rfl
    · exact .inl rfl
  case read =>
    refine ⟨exec_mr_held h, fun ha => ?free, fun ha hc => ?quiet⟩
    case free =>
      rw [exec_mr_eq h, hostRead, awaitAck_free ha, andThen_next, exec_decodeBus_read h, andThen_assoc]
      refine andThen_congr fun u _ => ?_
      rw [andThen_assoc]
      rfl
    case quiet =>
      obtain ⟨t, ht, hta⟩ := hostRead_quiet r ha hc
      exact ⟨{ t with reply := .value (regRead r s) }, by rw [exec_mr_eq h, ht, andThen_next], rfl, hta⟩

end Sys2Proof.Machine
end

section
/-! O45, O46: scan_ir and scan_dr. The driver's call is the vector loaded into the buffer, one SCAN of it (`scanCommand_run`)
and the bytes read back, each in a block at rest; what it answers and leaves is therefore what that SCAN answers and leaves
(`scanCommandEffect`, `scanCommandCaptures`). -/

namespace Sys2Proof.Machine

/-! ## The vector in the buffer -/

/-- R152: the machine with the vector's bytes in the buffer, the bus free. -/
def loaded (tdi : List Nibble) (s : State) : State := withAck false (storeBytes 0 (encodeVector tdi) s)

theorem loaded_eq (tdi : List Nibble) (s : State) :
    loaded tdi s = { s with buf := (loaded tdi s).buf, busAck := false } := by
  rw [loaded, storeBytes_eq]
  rfl

theorem loaded_atRest {tdi : List Nibble} {s : State} (hs : AtRest s) : AtRest (loaded tdi s) := by
  rw [loaded_eq]
  exact ⟨hs.idle, hs.notPending, hs.goLow, hs.between, hs.tckLow⟩

/-- R151, R152: byte `k` of the buffer is byte `k` of the vector. -/
theorem readByte_loaded {tdi : List Nibble} {s : State} {k : Nat} (hk : k < (encodeVector tdi).length) :
    readByte (loaded tdi s) k = (encodeVector tdi)[k] := by
  have h := readByte_storeBytes (k := 0) (s := s) hk
  rwa [Nat.zero_add] at h

theorem readByte_loaded_beyond {tdi : List Nibble} {s : State} {k : Nat} (hk : (encodeVector tdi).length ≤ k) :
    readByte (loaded tdi s) k = readByte s k :=
  readByte_storeBytes_ne (.inr (by rwa [Nat.zero_add]))

theorem loadBytes_loaded {tdi : List Nibble} {s : State} (hs : AtRest s) (hne : encodeVector tdi ≠ [])
    (hle : (encodeVector tdi).length ≤ Config.bufBytes) :
    loadBytes 0 (encodeVector tdi) s = .next (loaded tdi s) := by
  rw [loadBytes_idle hs.idle hs.notPending (by rwa [Nat.zero_add]), if_neg hne, loaded]

/-! ## The call as one SCAN -/

/-- R150, R152: the preconditions of a call. -/
structure ScanArgs (count : Nat) (tdi : List Nibble) : Prop where
  pos : 1 ≤ count
  fits : count ≤ Config.bufBits
  bytes : (encodeVector tdi).length = nbytes count

theorem scanPrecondition_iff {count : Nat} {tdi : List Nibble} :
    scanPrecondition count tdi = true ↔ ScanArgs count tdi := by
  simp only [scanPrecondition, decide_eq_true_eq]
  exact ⟨fun ⟨h1, h2, h3⟩ => ⟨h1, h2, h3⟩, fun h => ⟨h.pos, h.fits, h.bytes⟩⟩

/-- U19: a call that completes met its preconditions. -/
theorem scanArgs_of_completes {c : TapState} {count : Nat} {tdi : List Nibble} {s t : State}
    (h : scanVector c count tdi s = .next t) : ScanArgs count tdi := by
  rw [← scanPrecondition_iff]
  by_contra hne
  rw [scanVector, if_pos (eq_false_of_ne_true hne)] at h
  cases h

/-- R91: a vector occupies at least one byte, and no more than the buffer has. -/
theorem ScanArgs.nbytes_bounds {count : Nat} {tdi : List Nibble} (h : ScanArgs count tdi) :
    0 < nbytes count ∧ nbytes count ≤ Config.bufBytes := by
  have h1 := h.pos
  have h2 := h.fits
  rw [nbytes_eq]
  unfold Config.bufBits at h2
  unfold Config.bufBytes
  omega

/-- R153: the SCAN of a call, with its trigger pending. -/
def driverScan (c : TapState) (count : Nat) (tdi : List Nibble) (s : State) : State :=
  scanRequest count c .runTestIdle (loaded tdi s)

/-- R155: the bytes read back as the string of a reply. -/
def vectorText (count : Nat) (s : State) : List Byte :=
  decodeVector count ((List.range (nbytes count)).map (readByte s))

theorem ScanArgs.chainLength {count : Nat} {tdi : List Nibble} (h : ScanArgs count tdi) (c : TapState) (s : State) :
    (driverScan c count tdi s).chainLength.toNat = count := by
  have h2 := h.fits
  unfold Config.bufBits at h2
  rw [driverScan, scanRequest, BitVec.toNat_ofNat]
  omega

theorem driverScan_triggered {c : TapState} {count : Nat} {tdi : List Nibble} {s : State} (hs : AtRest s) :
    triggered (driverScan c count tdi s) = true :=
  triggered_iff.mpr ⟨(loaded_atRest hs).idle, rfl⟩

/-- R123, R153: what that SCAN leaves: nothing of the buffer beyond the vector, and of the registers its own. -/
theorem driverScan_effect {c : TapState} {count : Nat} {tdi : List Nibble} {s : State} (hs : AtRest s)
    (hc : isStable c = true) (ha : ScanArgs count tdi) :
    ∃ u, exec .cmdScan (driverScan c count tdi s) = .next u ∧
      (∀ k, nbytes count ≤ k → readByte u k = readByte s k) ∧
      u = { s with
        buf := u.buf, scanState := c, endState := .runTestIdle, chainLength := BitVec.ofNat 16 count, go := true
        command := 1#3, curState := .runTestIdle, eng := .done, bitIndex := BitVec.ofNat 16 count, pending := false
        target := .runTestIdle, scanTms := route c c, endTms := route c .runTestIdle, tms := u.tms, tdi := u.tdi
        tdoSample := u.tdoSample, busAck := false, dut := u.dut, dutTap := u.dutTap, draws := u.draws } := by
  have hr := loaded_atRest (tdi := tdi) hs
  have hL := ha.chainLength c s
  obtain ⟨u, hu, hkeep, hform⟩ := scanCommandEffect (driverScan c count tdi s) (driverScan_triggered hs) hr.between
    hr.tckLow hc (hL.trans_le ha.fits)
  refine ⟨u, hu, fun k hk => ?bytes, ?registers⟩
  case bytes =>
    rw [hL] at hkeep
    exact (readByte_of_bits_kept hkeep hk).trans (readByte_loaded_beyond (ha.bytes.trans_le hk))
  case registers =>
    rw [hform, driverScan, loaded_eq]
    rfl

/-- R150 to R155: a call from rest is its SCAN, with GO lowered after it and the bytes of the buffer as the reply. -/
theorem scanVector_of_scan {c : TapState} {count : Nat} {tdi : List Nibble} {s u : State} (hs : AtRest s)
    (hc : isStable c = true) (ha : ScanArgs count tdi) (hu : exec .cmdScan (driverScan c count tdi s) = .next u) :
    ∃ d, scanVector c count tdi s = .next { u with
      go := false, eng := .idle, busAck := false, busRdata := d, reply := .vector (vectorText count u) } := by
  obtain ⟨hpos, hle⟩ := ha.nbytes_bounds
  have hload := loadBytes_loaded (tdi := tdi) hs (List.ne_nil_of_length_pos (ha.bytes ▸ hpos)) (ha.bytes ▸ hle)
  have hr := loaded_atRest (tdi := tdi) hs
  obtain ⟨v, d, hv, hscan⟩ := scanCommand_run (finish := .runTestIdle) hr.idle hr.notPending hr.goLow hr.between
    hr.tckLow hc ha.fits
  cases hu.symm.trans hv
  have hup : u.pending = false := by
    obtain ⟨w, hw, -, hform⟩ := driverScan_effect hs hc ha
    cases hu.symm.trans hw
    rw [hform]
  obtain ⟨t, ht, hbus, hack⟩ := readBytes_idle (k := 0) (n := nbytes count)
    (s := { u with go := false, eng := .idle, busAck := false, busRdata := d }) rfl hup (by omega)
  rw [if_neg hpos.ne'] at hack
  refine ⟨t.busRdata, ?_⟩
  rw [scanVector, if_neg (by rw [scanPrecondition_iff.mpr ha]; decide), hload, andThen_next, hscan, andThen_next, ht,
    andThen_next, hbus, hack]
  simp only [Nat.zero_add]
  rfl

/-! ## The reply -/

/-- R155: the reply is the bytes in descending order, two characters each, cut to the last `ceil(count / 4)`. -/
theorem vectorText_eq (count : Nat) (s : State) :
    vectorText count s = ((List.range (nbytes count)).reverse.flatMap fun k =>
      [hexChar ((readByte s k).extractLsb' 4 4), hexChar ((readByte s k).extractLsb' 0 4)]).drop
        (2 * nbytes count - (count + 3) / 4) := by
  rw [vectorText, decodeVector_eq (by rw [List.length_map, List.length_range]), renderBytes, ← List.map_reverse,
    List.flatMap_map]

/-- R151, R155: a buffer that holds a vector's bytes is answered as the vector's digits. -/
theorem vectorText_of_bytes {count : Nat} {tdi : List Nibble} {s : State} (hl : (encodeVector tdi).length = nbytes count)
    (h : ∀ (k : Nat) (hk : k < (encodeVector tdi).length), readByte s k = (encodeVector tdi)[k]) :
    vectorText count s =
      ((padDigits tdi).drop ((padDigits tdi).length - (count + 3) / 4)).map hexChar := by
  have hbytes : (List.range (nbytes count)).map (readByte s) = encodeVector tdi := by
    refine List.ext_getElem (by simp [hl]) fun k _ hk => ?_
    rw [List.getElem_map, List.getElem_range, h k hk]
  have hpad : (padDigits tdi).length = 2 * nbytes count := by
    rw [padDigits_length, ← encodeVector_length, hl]
  rw [vectorText, hbytes, decodeVector_eq hl, renderBytes_encodeVector, hpad, List.map_drop]

/-! ## What a call leaves -/

/-- R150 to R155: a call to a shift state from rest. -/
theorem scanVector_effect {c : TapState} (hc : c = .shiftIr ∨ c = .shiftDr) {count : Nat} {tdi : List Nibble} {s : State}
    (hs : AtRest s) (ha : ScanArgs count tdi) :
    ∃ t, scanVector c count tdi s = .next t ∧ t.reply = .vector (vectorText count t) ∧
      (∀ k, nbytes count ≤ k → readByte t k = readByte s k) ∧
      t = { s with
        buf := t.buf, scanState := c, endState := .runTestIdle
        chainLength := BitVec.ofNat 16 count, command := 1#3, curState := .runTestIdle
        target := .runTestIdle, bitIndex := BitVec.ofNat 16 count, scanTms := false, endTms := true
        tms := t.tms, tdi := t.tdi, tdoSample := t.tdoSample, busAck := false, busRdata := t.busRdata
        dut := t.dut, dutTap := t.dutTap, reply := t.reply, draws := t.draws } := by
  have hst : isStable c = true := by rcases hc with rfl | rfl <;> rfl
  obtain ⟨hstay, hexit⟩ : route c c = false ∧ route c .runTestIdle = true := by rcases hc with rfl | rfl <;> decide
  obtain ⟨u, hu, hkeep, hform⟩ := driverScan_effect hs hst ha
  obtain ⟨d, ht⟩ := scanVector_of_scan hs hst ha hu
  refine ⟨_, ht, rfl, hkeep, ?_⟩
  rw [hform, hstay, hexit]
  apply State.ext <;> simp [hs.idle, hs.notPending, hs.goLow]

/-- R43, R156: on the loopback device every byte comes back as it went out. -/
theorem scanVector_loopback {c : TapState} (hc : isStable c = true) {count : Nat} {tdi : List Nibble} {s t : State}
    (hs : AtRest s) (hd : s.dut = .loopback) (h : scanVector c count tdi s = .next t) :
    t.reply = .vector (((padDigits tdi).drop ((padDigits tdi).length - (count + 3) / 4)).map hexChar) := by
  have ha := scanArgs_of_completes h
  have hr := loaded_atRest (tdi := tdi) hs
  obtain ⟨u, hu, -, -⟩ := driverScan_effect hs hc ha
  obtain ⟨d, ht⟩ := scanVector_of_scan hs hc ha hu
  cases ht.symm.trans h
  have hdl : (driverScan c count tdi s).dut = .loopback := by
    rw [driverScan, loaded_eq]
    exact hd
  have hbits := (scanCommandCaptures _ u (driverScan_triggered hs) hr.between hr.tckLow hu).2 hdl
  exact congrArg Reply.vector (vectorText_of_bytes ha.bytes fun k hk =>
    (readByte_ext fun j _ => hbits _).trans (readByte_loaded hk))

/-! ## The obligations -/

/-- Settles O45: what the call to each of the two shift states leaves, its reply spelled out byte by byte. -/
theorem scanDriverEffect : Obligations.ScanDriverEffect := by
  intro s count tdi he hp hg hb ht h1 h2 hlen
  have hs : AtRest s := ⟨he, hp, hg, hb, ht⟩
  have ha : ScanArgs count tdi := ⟨h1, h2, (encodeVector_length tdi).trans hlen⟩
  have key := fun c hc => scanVector_effect (c := c) hc hs ha
  simp only [vectorText_eq] at key
  exact ⟨key .shiftIr (.inl rfl), key .shiftDr (.inr rfl)⟩

/-- Settles O46: the two calls differ in the shift state only, and the loopback device does not see which it is. -/
theorem scanDriverLoopback : Obligations.ScanDriverLoopback := by
  intro s t count tdi he hp hg hb ht hd h
  have hs : AtRest s := ⟨he, hp, hg, hb, ht⟩
  rcases h with h | h
  · exact scanVector_loopback (c := .shiftIr) rfl hs hd h
  · exact scanVector_loopback (c := .shiftDr) rfl hs hd h

end Sys2Proof.Machine
end

section
/-! O53: `cur_state` stays the state of the device's TAP (R193). The device moves at the rising edge by the level of TMS, and
`cur_state` follows at the falling edge by the pulse's own TMS value: the pins of the invariant make them the same value
(R202). No other tick moves either, but the step out of TAP_RESET, which sets `cur_state` to where the five pulses have
already brought it (R118, R119). -/

namespace Sys2Proof.Machine

/-! ## What the agreement depends on -/

theorem dutInSync_low {s : State} (hl : s.tckHalf = .low) : DutInSync s ↔ s.dutTap = s.curState := by
  rw [DutInSync, hl]

theorem dutInSync_high {s : State} (hh : s.tckHalf = .high) : DutInSync s ↔ s.dutTap = tapNext s.curState s.tms := by
  rw [DutInSync, hh]

theorem DutInSync.drive {s : State} (h : DutInSync s) : DutInSync (drive s) := by
  cases hh : s.tckHalf with
  | low => exact (dutInSync_low (by simpa using hh)).mpr (by simpa using (dutInSync_low hh).mp h)
  | high => rwa [drive_within (by simp [betweenPulses, hh])]

theorem DutInSync.regWrite {u : State} (h : DutInSync u) (r : Reg) (d : Data) (s : State) :
    DutInSync (regWrite r d s u) := by
  cases r <;> exact h

theorem DutInSync.stepAfterPulse {s : State} (h : DutInSync s) : DutInSync (stepAfterPulse s) := by
  unfold Machine.stepAfterPulse
  cases s.eng <;> exact h

theorem DutInSync.stepIdle {s : State} (h : DutInSync s) : DutInSync (stepIdle s) := by
  unfold Machine.stepIdle
  split_ifs <;> exact h

theorem DutInSync.stepDone {s : State} (h : DutInSync s) : DutInSync (stepDone s) := by
  unfold Machine.stepDone
  split_ifs <;> exact h

/-! ## The engine's part -/

/-- R104: at the rising edge the device goes one transition ahead. -/
theorem DutInSync.risingEdge {s : State} (h : DutInSync s) (hl : s.tckHalf = .low) (p : PulseOp) :
    DutInSync (risingEdge p s) := by
  rw [dutInSync_high (by simp)]
  simp [(dutInSync_low hl).mp h]

/-- R104, R202: at the falling edge `cur_state` comes after it, because TMS still has the pulse's value. -/
theorem DutInSync.fallingEdge {s : State} {p : PulseOp} (h : DutInSync s) (hh : s.tckHalf = .high)
    (hv : s.tms = p.tms) : DutInSync (fallingEdge p s) := by
  rw [dutInSync_low rfl]
  simp [(dutInSync_high hh).mp h, hv]

theorem DutInSync.pulseTick {s : State} {p : PulseOp} (h : DutInSync s) (hpins : pinsDriven s)
    (hp : pulseOp s = some p) : DutInSync (pulseTick p s) := by
  unfold Machine.pulseTick
  split
  · exact h
  · split
    · next hl => exact h.risingEdge hl p
    · next hh => exact (h.fallingEdge hh (hpins p hp).1).stepAfterPulse

/-- R118: after the last reset pulse `cur_state` is TEST_LOGIC_RESET already. -/
theorem InvCore.curState_of_reset_over {s : State} (c : InvCore s) (he : s.eng = .tapReset) (hp : pulseOp s = none) :
    s.curState = .testLogicReset := by
  have hn : Config.resetPulses ≤ s.resetCount :=
    Nat.not_lt.mp fun hc => nomatch (pulseOp_tapReset he hc).symm.trans hp
  have hrun := c.resetProgress he
  rwa [Nat.sub_eq_zero_of_le hn] at hrun

theorem DutInSync.bookkeepingTick {s u : State} (h : DutInSync s) (c : InvCore s) (hp : pulseOp s = none)
    (hu : bookkeepingTick s = .next u) : DutInSync u := by
  unfold Machine.bookkeepingTick at hu
  cases he : s.eng with
  | idle => rw [he] at hu; cases hu; exact h.stepIdle
  | done => rw [he] at hu; cases hu; exact h.stepDone
  | gotoStart => rw [he] at hu; rw [shiftEntry_next hu]; exact h
  | tapReset =>
    rw [he] at hu
    cases hu
    rw [leaveTapReset, ← c.curState_of_reset_over he hp]
    exact h
  | preShift | clearBuffer | shift | gotoState => rw [he] at hu; cases hu; exact h

theorem DutInSync.engineTick {s u : State} (h : DutInSync s) (hs : Inv s) (hu : engineTick s = .next u) :
    DutInSync u := by
  cases hp : pulseOp s with
  | some p => rw [engineTick_pulse hp] at hu; cases hu; exact h.pulseTick hs.pins hp
  | none => rw [engineTick_none hp] at hu; exact h.bookkeepingTick hs.toInvCore hp hu

/-! ## The ticks -/

theorem DutInSync.idleTick {s t : State} (h : DutInSync s) (hs : Inv s) (ht : idleTick s = .next t) :
    DutInSync t := by
  obtain ⟨u, hu, rfl⟩ := idleTick_next_iff.mp ht
  exact DutInSync.drive (h.engineTick hs hu :)

theorem DutInSync.busRead {r : Reg} {s t : State} (h : DutInSync s) (hs : Inv s) (ht : busRead r s = .next t) :
    DutInSync t := by
  obtain ⟨-, u, hu, rfl⟩ := requestTick_next ht
  exact DutInSync.drive (h.engineTick hs hu :)

theorem DutInSync.busWrite {r : Reg} {d : Data} {s t : State} (h : DutInSync s) (hs : Inv s)
    (ht : busWrite r d s = .next t) : DutInSync t := by
  unfold Machine.busWrite at ht
  split at ht
  · cases ht
  · obtain ⟨-, u, hu, rfl⟩ := requestTick_next ht
    exact DutInSync.drive ((h.engineTick hs hu).regWrite r d s :)

/-- Every kind of tick keeps the agreement, beside the invariant. -/
theorem kept_inv_dutInSync : Kept fun s => Inv s ∧ DutInSync s where
  idle _ _ hs ht := ⟨hs.1.idleTick ht, hs.2.idleTick hs.1 ht⟩
  read _ _ _ hs ht := ⟨hs.1.busRead ht, hs.2.busRead hs.1 ht⟩
  write _ _ _ _ hs ht := ⟨hs.1.busWrite ht, hs.2.busWrite hs.1 ht⟩
  scan s hs htr := ⟨kept_inv.scan s hs.1 htr, DutInSync.drive (s := withAck false (dispatchScan s)) hs.2⟩
  reset s hs htr := ⟨kept_inv.reset s hs.1 htr, DutInSync.drive (s := withAck false (dispatchReset s)) hs.2⟩
  state s hs htr := ⟨kept_inv.state s hs.1 htr, DutInSync.drive (s := withAck false (dispatchState s)) hs.2⟩
  reply s r n hs := ⟨kept_inv.reply s r n hs.1, hs.2⟩

/-! ## The step -/

/-- Settles O53: every kind of tick keeps the agreement, and of the host's own acts only the reset of the block, which
the statement leaves out, moves `cur_state`. -/
theorem stepKeepsDutInSync : Obligations.StepKeepsDutInSync := by
  intro s t hs hsync hnoreset ht
  exact (kept_inv_dutInSync.step ⟨hs, hsync⟩ (fun _ => ⟨hs.congr rfl, hsync⟩)
    (fun r rest h => absurd h (hnoreset r rest))
    (fun d l _ hb => ⟨hs.divider hb d l, hsync⟩) ht).2

end Sys2Proof.Machine
end

section
/-! O19: COMMAND is read at the step of IDLE and never again during the command (R102, R55). No other part of a tick takes
notice of it: the pulse of a step, the pins, the device and the bookkeeping steps are the same beside another COMMAND. -/

namespace Sys2Proof.Machine

/-- R19: another content of COMMAND. -/
def withCommand (c : BitVec 3) (s : State) : State := { s with command := c }

theorem pulseOp_withCommand (c : BitVec 3) (s : State) : pulseOp (withCommand c s) = pulseOp s := rfl

theorem drive_withCommand (c : BitVec 3) (s : State) : drive (withCommand c s) = withCommand c (drive s) := by
  unfold drive
  rw [pulseOp_withCommand]
  cases pulseOp s with
  | none => rfl
  | some p =>
    exact (apply_ite (withCommand c) (s.tckHalf = .low ∧ s.halfCount = 0)
      (withPins p.tms (p.tdi.getD s.tdi) s) s).symm

theorem risingEdge_withCommand (p : PulseOp) (c : BitVec 3) (s : State) :
    risingEdge p (withCommand c s) = withCommand c (risingEdge p s) := by
  unfold risingEdge
  cases p.capture
  · rfl
  · simp only [if_true, dutEdge_eq, sampleTdo_eq]
    rfl

theorem stepAfterPulse_withCommand (c : BitVec 3) (s : State) :
    stepAfterPulse (withCommand c s) = withCommand c (stepAfterPulse s) := by
  unfold stepAfterPulse
  have h : (withCommand c s).eng = s.eng := rfl
  rw [h]
  cases s.eng <;> rfl

theorem pulseTick_withCommand (p : PulseOp) (c : BitVec 3) (s : State) :
    pulseTick p (withCommand c s) = withCommand c (pulseTick p s) := by
  have hcount : (withCommand c s).halfCount = s.halfCount := rfl
  have hdiv : (withCommand c s).clockDivider = s.clockDivider := rfl
  have hhalf : (withCommand c s).tckHalf = s.tckHalf := rfl
  rw [pulseTick, pulseTick, hcount, hdiv, hhalf]
  by_cases hlt : s.halfCount < s.clockDivider
  · rw [if_pos hlt, if_pos hlt]
    rfl
  · rw [if_neg hlt, if_neg hlt]
    cases s.tckHalf with
    | low => exact risingEdge_withCommand p c s
    | high => exact stepAfterPulse_withCommand c (fallingEdge p s)

/-- R102: of the bookkeeping steps only that of IDLE reads COMMAND. -/
theorem bookkeepingTick_withCommand {s u : State} (c : BitVec 3) (he : s.eng ≠ .idle)
    (hu : bookkeepingTick s = .next u) : bookkeepingTick (withCommand c s) = .next (withCommand c u) := by
  have h : (withCommand c s).eng = s.eng := rfl
  unfold bookkeepingTick at hu ⊢
  rw [h]
  cases hs : s.eng with
  | idle => exact absurd hs he
  | gotoStart =>
    rw [hs] at hu
    simp only [shiftEntry] at hu ⊢
    split_ifs at hu with hunstable hlong
    cases hu
    exact (if_neg hunstable).trans (if_neg hlong)
  | done =>
    rw [hs] at hu
    cases hu
    exact congrArg _ (apply_ite (withCommand c) (s.go = true) s { s with eng := .idle }).symm
  | preShift | clearBuffer | shift | gotoState | tapReset => rw [hs] at hu; cases hu; rfl

theorem engineTick_withCommand {s u : State} (c : BitVec 3) (he : s.eng ≠ .idle) (hu : engineTick s = .next u) :
    engineTick (withCommand c s) = .next (withCommand c u) := by
  cases hp : pulseOp s with
  | some p =>
    rw [engineTick_pulse hp] at hu
    cases hu
    rw [engineTick_pulse (s := withCommand c s) hp, pulseTick_withCommand]
  | none =>
    rw [engineTick_none hp] at hu
    rw [engineTick_none (s := withCommand c s) hp, bookkeepingTick_withCommand c he hu]

/-- Settles O19: the engine's part of the tick and the pins are the same beside another COMMAND. -/
theorem commandReadOnlyInIdle : Obligations.CommandReadOnlyInIdle := by
  intro s t c he ht
  obtain ⟨u, hu, rfl⟩ := idleTick_next_iff.mp ht
  exact idleTick_next_iff.mpr
    ⟨_, engineTick_withCommand c he hu, (drive_withCommand c (withAck false u)).symm⟩

end Sys2Proof.Machine
end

section
/-! O22, O23: the schedule of one TCK pulse (R104, R202), and the pulse of a navigation step (R107). Every state within a
pulse is its first one with a half-period counted, before or after the rising edge (`idleTicks_within`); its end is the
falling edge (`Run.pulse`). -/

namespace Sys2Proof.Machine

theorem stepAfterPulse_curState (s : State) : (stepAfterPulse s).curState = s.curState := by
  unfold stepAfterPulse
  cases s.eng <;> rfl

/-- R104: at the end of a pulse `cur_state` has followed its TMS value. -/
theorem pulsed_curState (p : PulseOp) (s : State) : (pulsed p s).curState = tapNext s.curState p.tms := by
  simp [pulsed, endOfPulse, stepAfterPulse_curState]

/-- The end of a pulse does not end the phase. -/
theorem pulsed_eng (p : PulseOp) (s : State) : (pulsed p s).eng = s.eng := by
  simp [pulsed, endOfPulse, stepAfterPulse_eng]

theorem pulsed_tck (p : PulseOp) (s : State) : (pulsed p s).tck = false := by simp [pulsed]

theorem betweenPulses_drive (s : State) : betweenPulses (drive s) = betweenPulses s := by simp [betweenPulses]

theorem pulsed_betweenPulses (p : PulseOp) (s : State) : betweenPulses (pulsed p s) = true := by
  rw [pulsed, betweenPulses_drive, betweenPulses_withAck, endOfPulse_betweenPulses]

/-- R202: what holds in every tick of a pulse: TCK by the half, the pins and the block as in the first. -/
theorem idleTicks_within_frame {s : State} {p : PulseOp} (hp : pulseOp s = some p) (hb : betweenPulses s = true)
    (ht : s.tck = false) {n : Nat} (hn : n < pulseTicks s) :
    ∃ u, idleTicks n s = .next u ∧ u.tck = decide (s.clockDivider < n) ∧ u.tms = s.tms ∧ u.tdi = s.tdi ∧
      u.curState = s.curState ∧ u.eng = s.eng ∧ u.bitIndex = s.bitIndex ∧ u.buf = s.buf := by
  obtain ⟨b, j, ⟨hlow, hu⟩ | ⟨hhigh, hu⟩⟩ := idleTicks_within hp hb hn
  · exact ⟨_, hu, by simp [ht, hlow], rfl, rfl, rfl, rfl, rfl, rfl⟩
  · exact ⟨_, hu, by simp [hhigh], by simp, by simp, by simp, by simp, by simp, by simp⟩

/-- Settles O22: the states within the pulse, the state at its end, and its one edge. -/
theorem pulseSchedule : Obligations.PulseSchedule := by
  intro s p hp hb hpin ht
  obtain ⟨hv, -⟩ := hpin p hp
  have hr := Run.pulse hp hb ht
  rw [← hv]
  exact ⟨fun n hn => idleTicks_within_frame hp hb ht hn,
    ⟨_, hr.ticks, pulsed_tck p s, pulsed_betweenPulses p s, hv ▸ pulsed_curState p s, pulsed_eng p s⟩, hr.edges⟩

/-- Settles O23: the pulse's law gives the step with its frame, the router's table that it leads nearer. -/
theorem navigationStep : Obligations.NavigationStep := by
  intro s he hc hb hpin ht
  have hop := pulseOp_nav he hc
  obtain ⟨hv, -⟩ := hpin _ hop
  have hr := Run.pulse hop hb ht
  rw [pulsed_nav he hb ht hv] at hr
  exact ⟨_, hr.ticks, rfl, (distance_step hc).symm, rfl, rfl⟩

end Sys2Proof.Machine
end

section
/-! O38, O39: how long the three commands take (R203), and the two inputs at which a SCAN stops (R116). A command is the tick
of its dispatch and a run of busy ticks to DONE; a SCAN that is refused runs to its shift entry first. -/

namespace Sys2Proof.Machine

/-! ## Shift entry -/

theorem shiftEntry_unstable {s : State} (hs : isStable s.scanState = false) :
    shiftEntry s = .refused .scanStateNotStable := if_pos hs

theorem shiftEntry_tooLong {s : State} (hs : isStable s.scanState = true) (hL : Config.bufBits < s.chainLength.toNat) :
    shiftEntry s = .refused .chainLengthExceedsBuffer := by
  rw [shiftEntry, if_neg (by simp [hs]), if_pos hL]

theorem shiftEntry_legal {s : State} (hs : isStable s.scanState = true) (hL : s.chainLength.toNat ≤ Config.bufBits) :
    shiftEntry s = .next (enterShift s) := by
  rw [shiftEntry, if_neg (by simp [hs]), if_neg (Nat.not_lt.mpr hL)]

/-- R110, R128: once GOTO_START has reached its target the tick is the shift entry. -/
theorem idleTick_shiftEntry {s : State} (he : s.eng = .gotoStart) (hc : s.curState = s.target) :
    idleTick s = andThen (shiftEntry s) fun u => .next (drive (withAck false u)) := by
  rw [idleTick_none (pulseOp_arrived (.inl he) hc), bookkeepingTick, he]

/-! ## A SCAN that is refused -/

/-- What refuses a shift entry are SCAN_STATE and CHAIN_LENGTH alone. -/
theorem shiftEntry_refused_congr {s u : State} {r : Refusal} (hs : u.scanState = s.scanState)
    (hL : u.chainLength = s.chainLength) (h : shiftEntry s = .refused r) : shiftEntry u = .refused r := by
  unfold shiftEntry at h ⊢
  rw [hs, hL]
  split_ifs at h ⊢ <;> exact h

/-- R106, R116: a SCAN reaches its shift entry well within the model's bound, and what that tick refuses, it refuses. -/
theorem exec_cmdScan_refused {s : State} {r : Refusal} (htr : triggered s = true) (hb : betweenPulses s = true)
    (ht : s.tck = false) (h : shiftEntry s = .refused r) : exec .cmdScan s = .refused r := by
  obtain ⟨a, hr⟩ := Run.scanArrive hb ht
  have hn : 3 + distance s.curState s.scanState * pulseTicks s ≤ commandTickBound s :=
    (Nat.add_comm _ _).trans_le (pulses_le_bound s ((distance_le _ _).trans (by decide)) (by decide))
  obtain ⟨k, hk⟩ : ∃ k, commandTickBound s - (2 + distance s.curState s.scanState * pulseTicks s) = k + 1 :=
    Nat.exists_eq_succ_of_ne_zero (by omega)
  rw [exec, execCmdScan, if_pos htr, runCommand, runToDone_run hr (by omega), hk, runToDone, if_neg (by nofun),
    idleTick_shiftEntry rfl rfl, shiftEntry_refused_congr (s := s) ?_ ?_ h, andThen_refused, andThen_refused]
  · rfl
  · rfl

/-- Settles O38: the two refusals of shift entry. -/
theorem scanCommandRefusals : Obligations.ScanCommandRefusals := by
  intro s htr hb ht
  exact ⟨fun hs => exec_cmdScan_refused htr hb ht (shiftEntry_unstable hs),
    fun hs hL => exec_cmdScan_refused htr hb ht (shiftEntry_tooLong hs hL)⟩

/-! ## Durations -/

/-- R102, R203: a command is the tick of its dispatch and then its run, busy after every tick but the last. -/
theorem command_ticks {d : State → State} {n : Nat} {s u : State} {es : List Edge} {o : Result State}
    (hd : idleTick s = .next (drive (withAck false (d s)))) (hr : Run n (drive (withAck false (d s))) u es)
    (ho : o = .next u) :
    o = idleTicks (1 + n) s ∧
      ∀ k v, 0 < k → k < 1 + n → idleTicks k s = .next v → isBusy v = true := by
  have hafter : ∀ k, idleTicks (1 + k) s = idleTicks k (drive (withAck false (d s))) := fun k => by
    rw [idleTicks_add, idleTicks_one, hd, andThen_next]
  refine ⟨by rw [ho, hafter, hr.ticks], fun k v hk hlt hv => ?_⟩
  obtain ⟨j, rfl⟩ := Nat.exists_eq_add_of_le hk
  exact hr.busy j v (by omega) (hafter j ▸ hv)

/-- Settles O39: the runs of the three commands, each with its length. -/
theorem commandDurations : Obligations.CommandDurations := by
  intro s htr hb ht
  obtain ⟨hscan, hreset, hstate⟩ := idleTick_dispatch htr
  refine ⟨fun hc => ?reset, fun hc => ?state, fun hc hs hL => ?scan⟩
  case reset =>
    obtain ⟨u, hr, hu⟩ := Run.reset hb ht
    have hx := runCommand_of_run hr (by rw [hu]) (pulses_le_bound s (by decide) (by decide))
    exact command_ticks (hreset hc) hr ((if_pos htr).trans hx)
  case state =>
    have hr := Run.state hb ht
    have hx := runCommand_of_run hr rfl (pulses_le_bound s ((distance_le _ _).trans (by decide)) (by decide))
    exact command_ticks (hstate hc) hr ((if_pos htr).trans hx)
  case scan =>
    obtain ⟨u, m, b, hr, hu, -⟩ := Run.scan hb ht hs hL
    exact command_ticks (hscan hc) hr (exec_cmdScan_of_run htr hL (by rw [hu]) hr)

end Sys2Proof.Machine
end

section
/-! O20, O21, O29, O31: the steps that prepare a shift (R108 to R110, R116), and the commands that start nothing (R101,
R105). -/

namespace Sys2Proof.Machine

/-- Settles O20: two bookkeeping steps; the second may begin the navigation. -/
theorem preparatorySteps : Obligations.PreparatorySteps := by
  intro s hb
  refine ⟨fun he => ?preShift, fun he => ?clearBuffer⟩
  case preShift =>
    rw [idleTick_step (u := leavePreShift s) (by simp [pulseOp, he]) (by rw [bookkeepingTick, he]),
      drive_clearBuffer rfl]
    rfl
  case clearBuffer =>
    rw [idleTick_step (u := leaveClearBuffer s) (by simp [pulseOp, he]) (by rw [bookkeepingTick, he]),
      drive_nav (s := withAck false (leaveClearBuffer s)) (.inl rfl) hb]
    rfl

/-- R83, D6: toward any other state the router leaves a stable state, so its value is not the self-loop's. -/
theorem route_eq_not_self {s t : TapState} (hs : isStable s = true) (h : s ≠ t) : route s t = !route s s := by
  refine Bool.eq_not_of_ne fun he => ?_
  have hd := distance_step h
  rw [he, tapNext_route_self hs] at hd
  omega

/-- Settles O21: the two refusals, and the two TMS values by the router's table. -/
theorem shiftEntryEffect : Obligations.ShiftEntry := by
  intro s he hc
  rw [idleTick_shiftEntry he hc]
  refine ⟨fun hs => ?unstable, fun hs hL => ?tooLong, fun hs hL => ?legal⟩
  case unstable => rw [shiftEntry_unstable hs, andThen_refused]
  case tooLong => rw [shiftEntry_tooLong hs hL, andThen_refused]
  case legal =>
    rw [shiftEntry_legal hs hL, andThen_next]
    refine ⟨_, rfl, drive_eq _, ?_, fun hne => ?_, fun heq => ?_⟩
    · simpa using tapNext_route_self hs
    · simpa using route_eq_not_self hs hne.symm
    · simp [heq]

/-- R102, R105: in IDLE a code that selects no command lets the tick pass. -/
theorem idleTick_unselected {s : State} (he : s.eng = .idle) (hc : selectsCommand s.command = false) :
    idleTick s = .next { s with busAck := false } := by
  rw [idleTick_quiet (by simp [isBusy, he]) (by simp [dispatching, hc]), if_neg (by simp [he])]

/-- Settles O29: none of the five codes selects a command. -/
theorem noCommandEffect : Obligations.NoCommandEffect := by
  intro s he
  have hpass : ∀ c, s.command = c → selectsCommand c = false → idleTick s = .next { s with busAck := false } :=
    fun c hc hsel => idleTick_unselected he (hc ▸ hsel)
  exact ⟨fun hc => hpass _ hc rfl, fun hc => hpass _ hc rfl, fun hc => hpass _ hc rfl, fun hc => hpass _ hc rfl,
    fun hc => hpass _ hc rfl⟩

/-- Settles O31: the other branch of each command row. -/
theorem commandNeedsTrigger : Obligations.CommandNeedsTrigger := by
  intro s htr
  have hno : ¬triggered s = true := by simp [htr]
  exact ⟨if_neg hno, if_neg hno, if_neg hno⟩

end Sys2Proof.Machine
end

section
/-! O13, O15, O16, O17, O40: what the bridge refuses (R143, R196, U23), the writes without an effect (R140, R142), and the
first poll after a trigger (R197). -/

namespace Sys2Proof.Machine

/-! ## Refusals -/

/-- R196: no register a command uses is written during one. -/
theorem busWrite_inFlight {r : Reg} {s : State} (d : Data) (hr : isParameter r = true)
    (hc : commandInFlight s = true) : busWrite r d s = .refused .writeDuringCommand :=
  if_pos (by simp [hr, hc])

/-- Settles O13: the five are the registers R196 names. -/
theorem writeDuringCommandRefused : Obligations.WriteDuringCommandRefused := fun _ _ d hc =>
  ⟨busWrite_inFlight d rfl hc, busWrite_inFlight d rfl hc, busWrite_inFlight d rfl hc, busWrite_inFlight d rfl hc,
    busWrite_inFlight d rfl hc⟩

/-- U23: the bus takes no request in the tick of an acknowledge. -/
theorem requestTick_held {s : State} (f : State → State) (ha : s.busAck = true) :
    requestTick f s = .refused .requestTooSoon := if_pos ha

/-- Settles O17: a read is a request, and so is a write that R196 does not refuse first. -/
theorem requestSpacing : Obligations.RequestSpacing := by
  rintro s ⟨we, addr, d⟩ g ha hg hw
  cases we with
  | false =>
    rw [exec_decodeBus_read hg]
    exact requestTick_held _ ha
  | true =>
    have hfree : ¬(isParameter g && commandInFlight s) = true := by
      rcases hw with hw | hw | hw
      · cases hw
      · simp [hw]
      · simp [hw]
    rw [exec_decodeBus_write hg, busWrite, if_neg hfree]
    exact requestTick_held _ ha

theorem whenCurStateMapped_of_none {s : State} (h : s.params.addrCurState = none) (o : Result State) :
    whenCurStateMapped s o = .refused .outOfRange :=
  if_neg (by simp [h])

/-- Settles O16: outside the map no address selects a register, and where `cur_state` has no offset its rows are outside
too. -/
theorem outOfRangeRefused : Obligations.OutOfRangeRefused := by
  intro s we addr d
  refine ⟨rfl, fun habove hcur => ?outside, fun hnone => ?unmapped⟩
  case outside =>
    have hout : decodeOffset s.params (addr - s.params.engineBase) = none :=
      (decodeOffset_above habove).trans (if_neg hcur)
    refine ⟨decodeBus_none (r := { we := we, addr := addr, wdata := d }) hout, ?_, ?_⟩
    · simp only [exec, execMw, hout]
    · simp only [exec, execMr, hout]
  case unmapped => exact ⟨whenCurStateMapped_of_none hnone _, whenCurStateMapped_of_none hnone _⟩

/-! ## Writes without an effect -/

/-- R66, R146: a write that stores nothing is the tick without a request, and the acknowledge. -/
theorem busWrite_readOnly {r : Reg} {s u : State} (d : Data) (hr : ∀ v, regWrite r d s v = v)
    (hp : isParameter r = false) (ha : s.busAck = false) (hu : idleTick s = .next u) :
    busWrite r d s = .next { u with busAck := true } := by
  rw [busWrite, if_neg (by simp [hp])]
  refine (requestTick_of_idleTick ha hu fun v => ?_).trans (by rw [hr]; rfl)
  rw [hr, hr, withAck_withAck, drive_withAck]

/-- Settles O15: the two registers that no write changes. -/
theorem readOnlyWriteEffect : Obligations.ReadOnlyWriteEffect := by
  intro s d ha hl
  obtain ⟨u, hu⟩ := idleTick_next hl
  exact ⟨u, hu, busWrite_readOnly (r := .status) d (fun _ => rfl) rfl ha hu,
    fun hm => (whenCurStateMapped_of_ne_none hm _).trans
      (busWrite_readOnly (r := .curState) d (fun _ => rfl) rfl ha hu)⟩

/-! ## The first poll -/

/-- R102: the tick of a dispatch leaves the engine busy, in the first phase of a command. -/
theorem idleTick_dispatch_busy {s : State} (htr : triggered s = true) (hc : selectsCommand s.command = true) :
    ∃ t, idleTick s = .next t ∧ isBusy t = true ∧ t.eng ≠ .gotoStart := by
  obtain ⟨t, ht, hscan, hreset, hstate, -⟩ := idleTick_triggered htr
  simp only [selectsCommand, Bool.or_eq_true, decide_eq_true_eq] at hc
  refine ⟨t, ht, ?_⟩
  rcases hc with (hc | hc) | hc
  · simp [isBusy, (hscan hc).1]
  · simp [isBusy, (hreset hc).1]
  · simp [isBusy, (hstate hc).1]

/-- R101: a rising edge of GO in IDLE leaves a trigger pending, for the next tick to dispatch. -/
theorem busWrite_trigger {s : State} {d : Data} (he : s.eng = .idle) (hp : s.pending = false) (hg : s.go = false)
    (ha : s.busAck = false) (hd : d.testBit 0 = true) :
    ∃ u, busWrite .control d s = .next u ∧ triggered u = true ∧ u.command = s.command ∧ isBusy u = false := by
  have hb : isBusy s = false := by simp [isBusy, he]
  refine ⟨_, busWrite_control_quiet d hb (by simp [dispatching, triggered, hp]) ha, triggered_iff.mpr ⟨?_, ?_⟩,
    rfl, isBusy_quiet_eng hb⟩
  · simp [he]
  · simp [triggerEdge, hd, hg, he]

/-- Settles O40: the acknowledge tick of the write is the tick of the dispatch. -/
theorem firstPollSeesBusy : Obligations.FirstPollSeesBusy := by
  intro s d he hp hg ha hc hd
  obtain ⟨u, hw, htr, hcmd, hub⟩ := busWrite_trigger he hp hg ha hd
  obtain ⟨v, hv, hvb, hve⟩ := idleTick_dispatch_busy htr (hcmd ▸ hc)
  obtain ⟨x, hx⟩ := idleTick_next (s := v) (by simp [tickLegal, hve])
  exact ⟨u, v, _, hw, hv, busRead_of_idleTick .status (idleTick_busAck hv) hx, hub, rfl,
    by simp [regRead, hvb, bitWord]⟩

end Sys2Proof.Machine
end

section
/-! O44, O47: the session lines that are no access (R160), and the driver's calls outside their preconditions (U19). -/

namespace Sys2Proof.Machine

/-- Settles O44: none of the three rows is a tick. -/
theorem sessionLinesLeaveBlock : Obligations.SessionLinesLeaveBlock := fun _ _ => ⟨rfl, rfl, rfl, rfl, rfl⟩

/-- R152: the bytes to load are half the digits, rounded up. -/
theorem scanArgs_iff {count : Nat} {tdi : List Nibble} :
    ScanArgs count tdi ↔ 1 ≤ count ∧ count ≤ 8192 ∧ (tdi.length + 1) / 2 = nbytes count := by
  rw [← encodeVector_length]
  exact ⟨fun h => ⟨h.pos, h.fits, h.bytes⟩, fun ⟨hpos, hfits, hbytes⟩ => ⟨hpos, hfits, hbytes⟩⟩

/-- U19: without its preconditions a call makes no access. -/
theorem scanVector_refused {c : TapState} {count : Nat} {tdi : List Nibble} {s : State} (h : ¬ScanArgs count tdi) :
    scanVector c count tdi s = .refused .driverPrecondition := by
  rw [← scanPrecondition_iff] at h
  exact if_pos (eq_false_of_ne_true h)

/-- Settles O47: the preconditions, spelled out. -/
theorem scanDriverPreconditions : Obligations.ScanDriverPreconditions := by
  intro s count tdi h
  rw [← scanArgs_iff] at h
  exact ⟨scanVector_refused h, scanVector_refused h⟩

end Sys2Proof.Machine
end

section
/-! O1, O49, O50, O51, O60: the tables, the machine after reset (R32, R190), and the step of the machine (R11, R102). -/

namespace Sys2Proof.Machine

/-- Settles O1: read off the tables, state by state. -/
theorem transitionTable : Obligations.TransitionTable := by
  intro s
  refine ⟨?next0, ?next1, tapOfCode_tapCode s⟩
  case next0 => cases s <;> rfl
  case next1 => cases s <;> rfl

/-! ## Reset -/

/-- Settles O49: the fields as `State.reset` lists them, and busy of its phase. -/
theorem resetValues : Obligations.ResetValues := by
  exact ⟨rfl, rfl, rfl, rfl, rfl, rfl, rfl, rfl, rfl, rfl, rfl, rfl, rfl, rfl, rfl, rfl, rfl, rfl, rfl⟩

/-- Settles O51: the engine is in IDLE, between pulses, and the ports carry the defaults. -/
theorem resetHasInv : Obligations.ResetHasInv where
  bufWf := rfl
  resetCountBound := Nat.zero_le _
  pendingInIdle := nofun
  tckIsHalf := rfl
  halfCountBound := Nat.zero_le _
  atRest _ := ⟨rfl, rfl⟩
  startTarget := nofun
  endTarget := nofun
  shifting := nofun
  shiftPosition := nofun
  resetProgress := nofun
  paramsWf := rfl
  dividerFits := rfl
  rdataFits := Nat.two_pow_pos 32
  pins _ hp := nomatch hp

/-! ## The step -/

/-- R11: the host's next act is taken from the script and done. -/
theorem step_of_script {s : State} {x : Stimulus} {rest : List Stimulus} (h : s.script = x :: rest) :
    step s = stimulate x { s with script := rest } := by
  rw [step, h]

/-- R102: the host silent, a pending trigger is what the step runs, and without one it is a tick. -/
theorem step_of_silence {s : State} (h : s.script = []) :
    step s = if triggered s then runDecoded (decode s.params (.command s.command)) s else idleTick s := by
  rw [step, h]

/-- Settles O50: the reset is the host's act, whatever request comes with it; an empty buffer reads as free values. -/
theorem resetTick : Obligations.ResetTick := by
  intro s r rest h
  exact ⟨_, step_of_script h, rfl, fun _ => rfl⟩

theorem runDecoded_ok {o : Except Reject Instr} {i : Instr} (h : o = .ok i) (s : State) :
    runDecoded o s = exec i s := by
  rw [h]; rfl

theorem runDecoded_error {o : Except Reject Instr} {e : Reject} (h : o = .error e) (s : State) :
    runDecoded o s = .refused (.undecodable e) := by
  rw [h]; rfl

/-- R27, U17: the input changes only with busy = 0, and carries DIVW bits. -/
theorem changeDivider_busy {s : State} (d : Nat) (hb : isBusy s = true) :
    changeDivider d s = .refused .dividerDuringCommand := if_pos hb

theorem changeDivider_quiet {s : State} (d : Nat) (hb : isBusy s = false) :
    changeDivider d s = .next { s with clockDivider := s.params.dividerValue d } := if_neg (by simp [hb])

/-- Settles O60: what each act of the host does, and what the machine does where there is none. -/
theorem stepRunsDecoded : Obligations.StepRunsDecoded := by
  intro s rest i
  refine ⟨fun r h hi => ?request, fun text h hi => ?line, fun text e h he => ?badLine, fun op count arg h hi => ?call,
    fun op count arg e h he => ?badCall, fun h htr hi => ?command, fun h htr => ?tick, step_of_script,
    fun d h => ?divider⟩
  case request => exact (step_of_script h).trans (runDecoded_ok hi _)
  case line => exact (step_of_script h).trans (runDecoded_ok hi _)
  case badLine => exact (step_of_script h).trans (runDecoded_error he _)
  case call => exact (step_of_script h).trans (runDecoded_ok hi _)
  case badCall => exact (step_of_script h).trans (runDecoded_error he _)
  case command => rw [step_of_silence h, if_pos htr, runDecoded_ok hi]
  case tick => rw [step_of_silence h, if_neg (by simp [htr])]
  case divider =>
    have hstep : step s = changeDivider d { s with script := rest } := step_of_script h
    have hquiet : isBusy s = false →
        step s = .next { s with script := rest, clockDivider := s.params.dividerValue d } :=
      fun hb => hstep.trans (changeDivider_quiet d hb)
    refine ⟨fun hb => hstep.trans (changeDivider_busy d hb), fun hb hw => ?unbounded, fun w hb hw => ?bits⟩
    case unbounded => rw [hquiet hb, Params.dividerValue, hw]
    case bits => rw [hquiet hb, Params.dividerValue, hw]

end Sys2Proof.Machine
end
